-- ==== Sys2Proof/Word.lean ====
section
/-! DEFINITION. The plain value types of the core: register words, data words, check bytes and line levels (spec R10, R11, R23). -/

namespace Sys2Proof

/-- A register of the port: 32 bits (R23). -/
abbrev Word := BitVec 32

/-- A data word of a frame: 16 bits (R8, WORD_BITS). -/
abbrev Half := BitVec 16

/-- A check byte, or one byte lane of the register port: 8 bits (R8 CHECK_BITS, R83). -/
abbrev Byte := BitVec 8

/-- A line level is one bit (R10): `true` is HIGH, `false` is LOW. -/
abbrev Level := Bool

/-- The level HIGH = 1 (R10). -/
abbrev HIGH : Level := true

/-- The level LOW = 0 (R10). -/
abbrev LOW : Level := false

end Sys2Proof
end

