-- ==== Sys2Proof/Syntax.lean ====
section
/-! DEFINITION. The syntax: the line's symbols and delimiter elements (R13, R104, R106), the encoding layers, and `Instr`, one
constructor for each row of spec/opcode_table.json. -/

namespace Sys2Proof

/-- The four line symbols (R104). -/
inductive Symbol where
  | nl | zero | one | nh
deriving DecidableEq, Repr

/-- An element of a delimiter pattern: a symbol `S(x)` or a bit `B(b)` (R106). -/
inductive Element where
  | sym (x : Symbol)
  | bit (b : Bool)
deriving DecidableEq, Repr

/-- The encoding layers of the opcode table (its "format" column; spec/30_encoding.md, introduction). Three rows of the layers
`lineBit` and `lineDelimiter` have the same bits as a row of `lineSymbol` (R105, R111): the layer, not the bits, tells them apart. -/
inductive Format where
  /-- A 32-bit word written to CTRL (R100). -/
  | command
  /-- A 2-bit symbol code (R104). -/
  | lineSymbol
  /-- The two half-period levels of a data bit (R105). -/
  | lineBit
  /-- The half-period levels of a start bit with its delimiter, or of the end delimiter (R107 to R111). -/
  | lineDelimiter
  /-- A 16-bit master word (R113). -/
  | masterWord
deriving DecidableEq, Repr

/-- The rows of the opcode table. A command carries the ARG field of its CTRL word, which CTRL keeps whether or not the command
reads it (R25, R102, R140); a master word carries its 12-bit address (R113). -/
inductive Instr where
  | nop (arg : Nat)
  | decSymbol (arg : Nat)
  | decBit (arg : Nat)
  | sync (arg : Nat)
  | rdMaster (arg : Nat)
  | rdSlave (arg : Nat)
  | rdTelegram (arg : Nat)
  | encSymbol (arg : Nat)
  | encBit (arg : Nat)
  | encMaster (arg : Nat)
  | encSlave (arg : Nat)
  | encTelegram (arg : Nat)
  | illegalOp7 (arg : Nat)
  | illegalOpD (arg : Nat)
  | illegalOpE (arg : Nat)
  | illegalOpF (arg : Nat)
  | symNl
  | symZero
  | symOne
  | symNh
  | bit0
  | bit1
  | startMaster
  | startSlave
  | endDelim
  | mwordFc0 (addr : Nat)
  | mwordFc1 (addr : Nat)
  | mwordFc2 (addr : Nat)
  | mwordFc3 (addr : Nat)
  | mwordFc4 (addr : Nat)
  | mwordFc5 (addr : Nat)
  | mwordFc6 (addr : Nat)
  | mwordFc7 (addr : Nat)
  | mwordFc8 (addr : Nat)
  | mwordFc9 (addr : Nat)
  | mwordFc10 (addr : Nat)
  | mwordFc11 (addr : Nat)
  | mwordFc12 (addr : Nat)
  | mwordFc13 (addr : Nat)
  | mwordFc14 (addr : Nat)
  | mwordFc15 (addr : Nat)
deriving DecidableEq, Repr

end Sys2Proof
end

