-- ==== Sys2Proof/WellFormed.lean ====
section
/-! DEFINITION. Well-formed instructions: ARG fits its 4 bits (R100) and a master word's address fits its 12 bits (R113). -/

namespace Sys2Proof

/-- ARG is a 4-bit field (R24, R100). -/
def argFits (arg : Nat) : Bool := decide (arg < 16)

/-- ADDR is a 12-bit field (R113). -/
def addrFits (addr : Nat) : Bool := decide (addr < 4096)

/-- An instruction is well formed when its operand fits the field its encoding gives it. -/
def Instr.wf (i : Instr) : Bool :=
  match i with
  | .nop a | .decSymbol a | .decBit a | .sync a | .rdMaster a | .rdSlave a | .rdTelegram a
  | .encSymbol a | .encBit a | .encMaster a | .encSlave a | .encTelegram a
  | .illegalOp7 a | .illegalOpD a | .illegalOpE a | .illegalOpF a => argFits a
  | .symNl | .symZero | .symOne | .symNh | .bit0 | .bit1 | .startMaster | .startSlave | .endDelim => true
  | .mwordFc0 a | .mwordFc1 a | .mwordFc2 a | .mwordFc3 a | .mwordFc4 a | .mwordFc5 a | .mwordFc6 a | .mwordFc7 a
  | .mwordFc8 a | .mwordFc9 a | .mwordFc10 a | .mwordFc11 a | .mwordFc12 a | .mwordFc13 a | .mwordFc14 a
  | .mwordFc15 a => addrFits a

end Sys2Proof
end

