-- ==== Sys2Proof/Decode.lean ====
section
/-! DEFINITION. Decoding the encoding layers of spec/30_encoding.md, total and rejecting by name, and the encoder beside it. -/

namespace Sys2Proof

/-- Why the decoder reads no instruction. -/
inductive Reject where
  /-- A CTRL word with START = 0 names no command (R100, R140). -/
  | noStart
  /-- A symbol code has 2 bits (R104). -/
  | notASymbol
  /-- A data bit's two half-period levels differ (R105). -/
  | notABit
  /-- The half-period levels are those of no start or end delimiter (R108, R109, R111). -/
  | notADelimiter
  /-- A master word has 16 bits (R113). -/
  | notAMasterWord
  /-- Fewer bytes than the layer's encodings have. -/
  | tooFewBytes
  /-- More than the four bytes of the widest encoding. -/
  | tooManyBytes
deriving DecidableEq, Repr

/-- The OP field of a CTRL word (R24). -/
def wordOp (w : Word) : BitVec 4 := w.extractLsb' 4 4

/-- The ARG field of a CTRL word (R24). -/
def wordArg (w : Word) : BitVec 4 := w.extractLsb' 12 4

/-- The START bit of a CTRL word (R24). -/
def wordStart (w : Word) : Bool := w.getLsbD 0

/-- The function code of a master word, its top 4 bits (R113). -/
def wordFcode (w : Half) : BitVec 4 := w.extractLsb' 12 4

/-- The address of a master word, its low 12 bits (R113). -/
def wordAddr (w : Half) : BitVec 12 := w.extractLsb' 0 12

/-- The master word of a function code and an address (R113). -/
def masterWord (fcode : BitVec 4) (addr : BitVec 12) : Half := fcode ++ addr

/-- The command a 4-bit opcode names, with its ARG (R101, R103). -/
def commandOf (op : BitVec 4) (arg : Nat) : Instr :=
  match op.toNat with
  | 0x0 => .nop arg
  | 0x1 => .decSymbol arg
  | 0x2 => .decBit arg
  | 0x3 => .sync arg
  | 0x4 => .rdMaster arg
  | 0x5 => .rdSlave arg
  | 0x6 => .rdTelegram arg
  | 0x7 => .illegalOp7 arg
  | 0x8 => .encSymbol arg
  | 0x9 => .encBit arg
  | 0xA => .encMaster arg
  | 0xB => .encSlave arg
  | 0xC => .encTelegram arg
  | 0xD => .illegalOpD arg
  | 0xE => .illegalOpE arg
  | _ => .illegalOpF arg

/-- The row of a master word, by its function code (R117, R191). -/
def masterWordOf (fcode : BitVec 4) (addr : Nat) : Instr :=
  match fcode.toNat with
  | 0 => .mwordFc0 addr
  | 1 => .mwordFc1 addr
  | 2 => .mwordFc2 addr
  | 3 => .mwordFc3 addr
  | 4 => .mwordFc4 addr
  | 5 => .mwordFc5 addr
  | 6 => .mwordFc6 addr
  | 7 => .mwordFc7 addr
  | 8 => .mwordFc8 addr
  | 9 => .mwordFc9 addr
  | 10 => .mwordFc10 addr
  | 11 => .mwordFc11 addr
  | 12 => .mwordFc12 addr
  | 13 => .mwordFc13 addr
  | 14 => .mwordFc14 addr
  | _ => .mwordFc15 addr

/-- A word written to CTRL (R100): bits 3:1, 11:8 and 31:16 are ignored. -/
def decodeCommand (w : Word) : Except Reject Instr :=
  if wordStart w then .ok (commandOf (wordOp w) (wordArg w).toNat) else .error .noStart

/-- A symbol code `{first half, second half}` (R104). -/
def decodeLineSymbol (w : Word) : Except Reject Instr :=
  match w.toNat with
  | 0 => .ok .symNl
  | 1 => .ok .symZero
  | 2 => .ok .symOne
  | 3 => .ok .symNh
  | _ => .error .notASymbol

/-- The two half-period levels of a data bit (R105). -/
def decodeLineBit (w : Word) : Except Reject Instr :=
  match w.toNat with
  | 1 => .ok .bit0
  | 2 => .ok .bit1
  | _ => .error .notABit

/-- The half-period levels of a delimiter, the first half in the highest bit (R107 to R109, R111). -/
def decodeLineDelimiter (w : Word) : Except Reject Instr :=
  if w = 0x2C715 then .ok .startMaster
  else if w = 0x2A8E3 then .ok .startSlave
  else if w = 0 then .ok .endDelim
  else .error .notADelimiter

/-- A master word: every 16-bit value is one (R113, R117). -/
def decodeMasterWord (w : Word) : Except Reject Instr :=
  if w.toNat < 65536 then
    .ok (masterWordOf (wordFcode (w.setWidth 16)) (wordAddr (w.setWidth 16)).toNat)
  else .error .notAMasterWord

/-- The instruction whose bits, read in the given layer, are `w`. -/
def decode (f : Format) (w : Word) : Except Reject Instr :=
  match f with
  | .command => decodeCommand w
  | .lineSymbol => decodeLineSymbol w
  | .lineBit => decodeLineBit w
  | .lineDelimiter => decodeLineDelimiter w
  | .masterWord => decodeMasterWord w

/-- The word of a list of bytes, little-endian lanes (R83). -/
def wordOfBytes : List Byte → Word
  | [] => 0
  | b :: bs => (wordOfBytes bs <<< 8) ||| b.setWidth 32

/-- The bytes of a word from lane 0 up, as many as asked for (R83). -/
def bytesOfWord (n : Nat) (w : Word) : List Byte :=
  (List.range n).map fun j => w.extractLsb' (8 * j) 8

/-- How many bytes an encoding of the layer takes at least: END has one, the start delimiters three. -/
def formatBytes (f : Format) : Nat :=
  match f with
  | .command => 4
  | .masterWord => 2
  | .lineSymbol | .lineBit | .lineDelimiter => 1

/-- The instruction in a list of bytes, the lowest lane first (R83). -/
def decodeBytes (f : Format) (bs : List Byte) : Except Reject Instr :=
  if bs.length < formatBytes f then .error .tooFewBytes
  else if 4 < bs.length then .error .tooManyBytes
  else decode f (wordOfBytes bs)

/-- The layer a row of the table belongs to. -/
def Instr.format (i : Instr) : Format :=
  match i with
  | .nop _ | .decSymbol _ | .decBit _ | .sync _ | .rdMaster _ | .rdSlave _ | .rdTelegram _
  | .encSymbol _ | .encBit _ | .encMaster _ | .encSlave _ | .encTelegram _
  | .illegalOp7 _ | .illegalOpD _ | .illegalOpE _ | .illegalOpF _ => .command
  | .symNl | .symZero | .symOne | .symNh => .lineSymbol
  | .bit0 | .bit1 => .lineBit
  | .startMaster | .startSlave | .endDelim => .lineDelimiter
  | .mwordFc0 _ | .mwordFc1 _ | .mwordFc2 _ | .mwordFc3 _ | .mwordFc4 _ | .mwordFc5 _ | .mwordFc6 _ | .mwordFc7 _
  | .mwordFc8 _ | .mwordFc9 _ | .mwordFc10 _ | .mwordFc11 _ | .mwordFc12 _ | .mwordFc13 _ | .mwordFc14 _
  | .mwordFc15 _ => .masterWord

/-- The CTRL word of an opcode and an ARG with START = 1 and the ignored bits 0 (R100, R121). -/
def commandWord (op : BitVec 4) (arg : Nat) : Word :=
  (0 : BitVec 16) ++ BitVec.ofNat 4 arg ++ (0 : BitVec 4) ++ op ++ (1 : BitVec 4)

/-- The master word of a function code and an address as a right-aligned 32-bit value (R113). -/
def masterWordBits (fcode : BitVec 4) (addr : Nat) : Word :=
  (masterWord fcode (BitVec.ofNat 12 addr)).setWidth 32

/-- The bits of an instruction in its layer, written from the tables of spec/30_encoding.md. -/
def encode (i : Instr) : Word :=
  match i with
  | .nop a => commandWord 0x0 a
  | .decSymbol a => commandWord 0x1 a
  | .decBit a => commandWord 0x2 a
  | .sync a => commandWord 0x3 a
  | .rdMaster a => commandWord 0x4 a
  | .rdSlave a => commandWord 0x5 a
  | .rdTelegram a => commandWord 0x6 a
  | .illegalOp7 a => commandWord 0x7 a
  | .encSymbol a => commandWord 0x8 a
  | .encBit a => commandWord 0x9 a
  | .encMaster a => commandWord 0xA a
  | .encSlave a => commandWord 0xB a
  | .encTelegram a => commandWord 0xC a
  | .illegalOpD a => commandWord 0xD a
  | .illegalOpE a => commandWord 0xE a
  | .illegalOpF a => commandWord 0xF a
  | .symNl => 0b00
  | .symZero => 0b01
  | .symOne => 0b10
  | .symNh => 0b11
  | .bit0 => 0b01
  | .bit1 => 0b10
  | .startMaster => 0b101100011100010101
  | .startSlave => 0b101010100011100011
  | .endDelim => 0b00
  | .mwordFc0 a => masterWordBits 0 a
  | .mwordFc1 a => masterWordBits 1 a
  | .mwordFc2 a => masterWordBits 2 a
  | .mwordFc3 a => masterWordBits 3 a
  | .mwordFc4 a => masterWordBits 4 a
  | .mwordFc5 a => masterWordBits 5 a
  | .mwordFc6 a => masterWordBits 6 a
  | .mwordFc7 a => masterWordBits 7 a
  | .mwordFc8 a => masterWordBits 8 a
  | .mwordFc9 a => masterWordBits 9 a
  | .mwordFc10 a => masterWordBits 10 a
  | .mwordFc11 a => masterWordBits 11 a
  | .mwordFc12 a => masterWordBits 12 a
  | .mwordFc13 a => masterWordBits 13 a
  | .mwordFc14 a => masterWordBits 14 a
  | .mwordFc15 a => masterWordBits 15 a

/-- The layer in which a table row of `nbits` bits is read (DESIGN CHOICE, log entry 3). Rows of one byte share their bits: a byte that is a
command word with its ignored bits 0 is read as that command, another value below 4 as a symbol code. -/
def tableFormat (nbits w : Nat) : Format :=
  if nbits ≤ 8 then (if w % 16 = 1 then .command else if w < 4 then .lineSymbol else .command)
  else if nbits ≤ 16 then .masterWord
  else if nbits ≤ 24 then .lineDelimiter
  else .command

/-- The instruction the decoder reads from a table row whose bits are `w`, laid out as the hardware stores them. -/
def decodeTableWord (nbits w : Nat) : Option Instr :=
  match decodeBytes (tableFormat nbits w) (bytesOfWord 4 (BitVec.ofNat 32 w)) with
  | .ok i => some i
  | .error _ => none

end Sys2Proof
end

