-- ==== Sys2Proof/Config.lean ====
section
/-! DEFINITION. What an implementation fixes: the function-code table type and its default contents (R47, R118, R190, R191),
the parameters CheckValid and CheckGen (R220 to R225), and the free values the spec leaves to a draw (R244, R297). -/

namespace Sys2Proof

/-- ADDR_KIND codes 0 to 4 (R118); codes 5 to 7 are unused and no entry holds them. -/
inductive AddrKind where
  | none | logical | device | allDevices | deviceGroup
deriving DecidableEq, Repr

/-- REQ_KIND codes 0 to 7 (R118); codes 8 to 15 are unused. -/
inductive ReqKind where
  | processData | reserved | mastershipTransfer | generalEvent | messageData | groupEvent | singleEvent | deviceStatus
deriving DecidableEq, Repr

/-- RESP_KIND codes 0 to 5 (R118); codes 6 to 15 are unused. -/
inductive RespKind where
  | none | processData | mastershipTransfer | eventIdentifier | messageData | deviceStatus
deriving DecidableEq, Repr

/-- SRC_KIND codes 0 to 2 (R118); codes 3 to 15 are unused. -/
inductive SrcKind where
  | none | oneDevice | oneOrMoreDevices
deriving DecidableEq, Repr

/-- DEST_KIND codes 0 to 4 (R118); codes 5 to 15 are unused. -/
inductive DestKind where
  | none | subscribedSinks | master | selectedDevices | masterOrMonitor
deriving DecidableEq, Repr

/-- One entry of the function-code table (R47, R190). Only `size` changes what the core does (R118). -/
structure FctEntry where
  addrKind : AddrKind
  reqKind  : ReqKind
  /-- SIZE, the slave-frame size in bits, register bits 8:0 (R47). -/
  size     : BitVec 9
  respKind : RespKind
  srcKind  : SrcKind
  destKind : DestKind
deriving DecidableEq, Repr

/-- The default entry of a reserved function code (R191: fc 5, 6, 7, 10, 11). -/
def Config.reservedEntry : FctEntry := ⟨.none, .reserved, 0, .none, .none, .none⟩

/-- The default entry of a process-data function code of the given size (R191: fc 0 to 4). -/
def Config.processDataEntry (size : BitVec 9) : FctEntry :=
  ⟨.logical, .processData, size, .processData, .oneDevice, .subscribedSinks⟩

/-- The default function-code table of R191, general knowledge but for part of entry 0 (PRESUMED, unsafe: log entry 9). -/
def Config.defaultFct : Vector FctEntry 16 :=
  #v[Config.processDataEntry 16, Config.processDataEntry 32, Config.processDataEntry 64,
     Config.processDataEntry 128, Config.processDataEntry 256,
     Config.reservedEntry, Config.reservedEntry, Config.reservedEntry,
     ⟨.device, .mastershipTransfer, 16, .mastershipTransfer, .oneDevice, .master⟩,
     ⟨.allDevices, .generalEvent, 16, .eventIdentifier, .oneOrMoreDevices, .master⟩,
     Config.reservedEntry, Config.reservedEntry,
     ⟨.device, .messageData, 256, .messageData, .oneDevice, .selectedDevices⟩,
     ⟨.deviceGroup, .groupEvent, 16, .eventIdentifier, .oneOrMoreDevices, .master⟩,
     ⟨.device, .singleEvent, 16, .eventIdentifier, .oneDevice, .master⟩,
     ⟨.device, .deviceStatus, 16, .deviceStatus, .oneDevice, .masterOrMonitor⟩]

/-- The parameter CheckValid: which validator the core is built with (R8, R220; DESIGN CHOICE, log entry 10). It is chosen apart from
CheckGen. -/
inductive ValidatorFn where
  /-- The reference validator: every check byte is accepted (R223). -/
  | reference
  /-- The validator that accepts exactly one check byte, whatever the words: the parameter of test vectors M4 and M5. -/
  | exactly (c : Byte)
  /-- The validator that accepts exactly the listed chunks with their check bytes: the parameter of test vector S5. -/
  | only (accepted : List (List Half × Byte))
  /-- Any other validator an implementation supplies, by number: nothing is known of it (R225, OPEN). -/
  | supplied (k : Nat)
deriving DecidableEq, Repr

/-- The parameter CheckGen: which check-byte generator the core is built with (R8, R224; DESIGN CHOICE, log entry 10). It is chosen
apart from CheckValid. -/
inductive GeneratorFn where
  /-- The reference generator: TX_CHK.PLACEHOLDER is sent for every chunk (R224). -/
  | reference
  /-- The generator that sends one byte for every chunk, whatever TX_CHK holds: with `ValidatorFn.exactly` a matched pair (R225). -/
  | constant (c : Byte)
  /-- Any other generator an implementation supplies, by number: nothing is known of it (R225, OPEN). -/
  | supplied (k : Nat)
deriving DecidableEq, Repr

/-- FREE VALUE: the verdict of the supplied validator number `k` on a chunk's words and check byte (R220). -/
opaque Config.suppliedCheckValid : Nat → List Half → Byte → Bool

/-- FREE VALUE: the check byte the supplied generator number `k` sends for a chunk's words (R224). -/
opaque Config.suppliedCheckGen : Nat → List Half → Byte

/-- FREE VALUE: the `n`-th draw of an inter-frame gap, before it is brought into [MIN, MAX] (R244). -/
opaque Config.gapDraw : Nat → Nat

/-- FREE VALUE: which of the values a register has held since START the `n`-th racing read returns (R297). -/
opaque Config.raceDraw : Nat → Nat

end Sys2Proof
end

