-- ==== Sys2Proof/Machine/State.lean ====
section
/-! DEFINITION. The state of the core (spec R20 to R50), the environment it is run against (R70 to R79), and the state after reset
(R290, R291). Everything is plain data. -/

namespace Sys2Proof.Machine

/-- The core has no event that stops it: every error of the spec ends a command and is reported in STATUS (R267), no register
access faults (R84, R269), and a wait that never ends leaves the core BUSY (R301). So no step raises a fault. Safe: nothing stops
where the hardware goes on (DEDUCED, log entry 17). -/
inductive Fault where
deriving DecidableEq, Repr

/-- Why a step has no meaning. -/
inductive Refusal where
  /-- Raised by an arm of `exec` whose instruction has no meaning yet; no arm raises it. Safe: the run stops. -/
  | notModelled (mnemonic : String)
  /-- Raised by `step` when the line event that comes next carries bits that no row of the opcode table's line layers has.
  Safe: the run stops; any other waveform reaches the core as raw samples (DESIGN CHOICE, log entry 16). -/
  | notALineElement (f : Format) (bits : Word)
deriving DecidableEq, Repr

/-- STATUS.ERR (R260). Codes 8 to 15 are never written. -/
inductive ErrorCode where
  | none | endOfSignal | invalidStartDelimiter | unexpectedRole | checkSequenceMismatch | invalidEndDelimiter
  | illegalCommand | illegalConfig
deriving DecidableEq, Repr

/-- SYNC_STATE.STATE (R30, R170). Code 7 is never held. -/
inductive SyncState where
  | idle | awaitHigh | awaitLow | atStartBit | inDelimiter | synced | error
deriving DecidableEq, Repr

/-- CFG (R26). -/
structure Cfg where
  qs          : BitVec 8
  rxInvert    : Bool
  idleLevel   : Level
  slavePolicy : Bool
  ie          : Bool
deriving DecidableEq, Repr

/-- The registers the host writes, which no command changes while it runs (R24, R26, R38 to R42, R91). -/
structure Regs where
  /-- CTRL.OP (R24). -/
  op      : BitVec 4
  /-- CTRL.ARG (R24). -/
  arg     : BitVec 4
  cfg     : Cfg
  /-- TX_MWORD.WORD (R38). -/
  txMword : Half
  /-- TX_NW.COUNT (R39). -/
  txNw    : BitVec 5
  /-- TX_GAP.MIN (R40). -/
  gapMin  : BitVec 16
  /-- TX_GAP.MAX (R40). -/
  gapMax  : BitVec 16
  /-- TX_CHK.PLACEHOLDER (R41). -/
  txChk   : Byte
  /-- TX_SWORD0 to TX_SWORD15 (R42). -/
  txSword : Vector Half 16
deriving DecidableEq, Repr

/-- The registers only the engine writes: SYNC_STATE, RX_RESULT, RX_MWORD, RX_SCNT, RX_SCHK, RX_SWORD and the STATUS fields ROLE,
ROLE_VALID and SKIPPED (R28, R30, R33 to R37). -/
structure Results where
  syncState : SyncState
  /-- SYNC_STATE.KIND: 1 master, 0 slave. -/
  kind      : Bool
  /-- SYNC_STATE.ELEM. -/
  elem      : BitVec 4
  /-- RX_RESULT.SYM, a symbol by its code. -/
  sym       : Symbol
  /-- RX_RESULT.BIT. -/
  bit       : Bool
  /-- RX_MWORD.WORD. -/
  mword     : Half
  /-- RX_MWORD.CHK. -/
  mchk      : Byte
  /-- RX_SCNT.COUNT. -/
  count     : BitVec 5
  /-- RX_SCNT.EXPECTED. -/
  expected  : BitVec 5
  /-- RX_SCNT.CHUNKS. -/
  chunks    : BitVec 3
  /-- RX_SCHK0 to RX_SCHK3. -/
  schk      : Vector Byte 4
  /-- RX_SWORD0 to RX_SWORD15. -/
  sword     : Vector Half 16
  /-- STATUS.ROLE. -/
  role      : Bool
  /-- STATUS.ROLE_VALID. -/
  roleValid : Bool
  /-- STATUS.SKIPPED. -/
  skipped   : Bool
deriving DecidableEq, Repr

/-- The internal datapath state of a running command (R20(e), R46). Nothing reads it across commands. -/
structure Datapath where
  /-- The bit accumulator of ReadBits (R158). -/
  acc   : Nat
  /-- How many bits the accumulator has taken (R158). -/
  nbits : Nat
  /-- The slave word index i (R201). -/
  i     : Nat
  /-- The chunk index k (R201). -/
  k     : Nat
  /-- The chunk length m (R201). -/
  m     : Nat
  /-- The drawn gap length (R244). -/
  gap   : Nat
deriving DecidableEq, Repr

/-- The input stream port (R70(a), R71, R43): how many samples are consumed, the presented samples not yet consumed, and whether
the source is exhausted after them. N = `pos + ahead.length` once `ended` (R73). Nothing that was consumed is kept, so nothing can
be read again (R93). -/
structure RxPort where
  /-- The input position p (R43), unbounded. -/
  pos   : Nat
  /-- Raw levels presented and not consumed, the first one at p. -/
  ahead : List Level
  /-- rx_end: no sample follows `ahead`. -/
  ended : Bool
deriving DecidableEq, Repr

/-- The output stream port (R70(b), R79, R44). -/
structure TxPort where
  /-- The output sample count tp (R44), unbounded. -/
  count : Nat
  /-- The output record `out` since reset, oldest first (R79, R290(c)). -/
  out   : List Level
  /-- How many samples in all since reset the sink will have accepted when it next stops accepting; `none`: it always accepts
  (DESIGN CHOICE, log entry 19). -/
  limit : Option Nat
deriving DecidableEq, Repr

/-- What a running command reads and writes: the streams, the result registers, the datapath, and the draws. -/
structure Data where
  rx       : RxPort
  tx       : TxPort
  res      : Results
  dp       : Datapath
  /-- The MODEL's own: the values the result registers have held since START, newest first (R297); empty while idle. -/
  seen     : List Results
  /-- The MODEL's own: how many gaps have been drawn (R244). -/
  gapDraws : Nat
deriving DecidableEq, Repr

/-- What a running command waits for (R71, R73, R79, R301). -/
inductive Wait where
  /-- A sample to look at (Level, or the level test of AdvanceUntil). -/
  | look
  /-- A sample to consume (Advance). -/
  | move
  /-- The sink's acceptance of a sample of this level. -/
  | sink (v : Level)
deriving DecidableEq, Repr

/-- The MODEL's own record of a command that waits: the data its body started from (after START's writes) and what it waits for. -/
structure Running where
  start : Data
  wait  : Wait
deriving DecidableEq, Repr

/-- The parameters of R8 that are no register: the function-code table, CheckValid, CheckGen and the base address. No step
writes them. -/
structure Params where
  fct   : Vector FctEntry 16
  /-- CheckValid (R8, R220). -/
  validator : ValidatorFn
  /-- CheckGen (R8, R224). -/
  generator : GeneratorFn
  /-- BASE (R86). -/
  base  : Word
deriving DecidableEq, Repr

/-- What the outside world does next: the host, the input source, the output sink, and the reset input (DESIGN CHOICE, log
entry 1). -/
inductive Event where
  /-- The host's MemWrite(addr, 4, v) (R12, R84). -/
  | write (addr v : Word)
  /-- The host's MemRead(addr, 4) (R12, R84). -/
  | read (addr : Word)
  /-- The line carries the element whose bits in the given layer are `bits`: the source presents its waveform (R104 to R113). -/
  | line (f : Format) (bits : Word)
  /-- The source presents one raw sample (R71). -/
  | sample (level : Level)
  /-- The replay adapter presents the sample of one capture byte (R78). -/
  | capture (b : Byte)
  /-- The source asserts rx_end (R71). -/
  | endOfInput
  /-- The sink accepts up to `n` more samples beyond those accepted so far, then stops (R79, R301(c)). -/
  | sinkAccepts (n : Nat)
  /-- The sink accepts every sample from now on (R79). -/
  | sinkAlways
  /-- The reset input is asserted and released (R290). -/
  | reset
deriving DecidableEq, Repr

/-- The state of one core and of the environment it runs against. The core has no data memory (R70; log entry 18). -/
structure State where
  regs         : Regs
  data         : Data
  /-- STATUS.DONE (R28). -/
  done         : Bool
  /-- STATUS.ERR (R28). -/
  err          : ErrorCode
  /-- STATUS.CMD_REJECTED (R28). -/
  cmdRejected  : Bool
  /-- STATUS.WRITE_IGNORED (R28). -/
  writeIgnored : Bool
  /-- The command engine (R45): a command runs exactly when this is `some`, and that is STATUS.BUSY (R28). -/
  running      : Option Running
  params       : Params
  /-- The MODEL's own: how many racing reads have drawn a value (R297). -/
  raceDraws    : Nat
  /-- The environment's: the values the host's reads have returned, newest first. -/
  busReads     : List Word
  /-- The environment's: what happens next, the next first. -/
  pending      : List Event
deriving DecidableEq, Repr

/-- CFG after reset: 0x00000002 (R26, R291). -/
def Cfg.reset : Cfg := { qs := 2, rxInvert := false, idleLevel := LOW, slavePolicy := false, ie := false }

/-- The host-written registers after reset (R291). -/
def Regs.reset : Regs :=
  { op := 0, arg := 0, cfg := Cfg.reset, txMword := 0, txNw := 0, gapMin := 0, gapMax := 0, txChk := 0,
    txSword := Vector.replicate 16 0 }

/-- The result registers after reset (R291). -/
def Results.reset : Results :=
  { syncState := .idle, kind := false, elem := 0, sym := .nl, bit := false, mword := 0, mchk := 0, count := 0, expected := 0,
    chunks := 0, schk := Vector.replicate 4 0, sword := Vector.replicate 16 0, role := false, roleValid := false,
    skipped := false }

/-- The datapath while no command runs. DESIGN CHOICE, unsafe (log entry 4): R290(f) leaves it undefined and no rule reads it. -/
def Datapath.idle : Datapath := { acc := 0, nbits := 0, i := 0, k := 0, m := 0, gap := 0 }

/-- The streams, results and datapath after reset (R290(b), (c), (f)). The source has presented nothing and has not ended, and the
sink always accepts: DESIGN CHOICE, unsafe (log entry 5). -/
def Data.reset : Data :=
  { rx := { pos := 0, ahead := [], ended := false }, tx := { count := 0, out := [], limit := none },
    res := Results.reset, dp := Datapath.idle, seen := [], gapDraws := 0 }

/-- The default parameters (R191, R223, R224). BASE = 0 is a DESIGN CHOICE, unsafe (log entry 6). -/
def Params.default : Params := { fct := Config.defaultFct, validator := .reference, generator := .reference, base := 0 }

/-- The machine right after reset (R290, R291). -/
def State.reset : State :=
  { regs := Regs.reset, data := Data.reset, done := false, err := .none, cmdRejected := false, writeIgnored := false,
    running := none, params := Params.default, raceDraws := 0, busReads := [], pending := [] }

end Sys2Proof.Machine
end

