-- ==== Sys2Proof/Machine/Operands.lean ====
section
/-! DEFINITION. The operand forms: what a command reads besides the streams (R21, R102), and the codes of symbols and levels. -/

namespace Sys2Proof.Machine

/-- The operands of a running command: the host-written registers, which cannot change while it runs (R91), and the parameters. -/
structure Ctx where
  regs   : Regs
  params : Params
deriving DecidableEq, Repr

/-- The operands a command started in `s` has. -/
def State.ctx (s : State) : Ctx := { regs := s.regs, params := s.params }

/-- QS as a number of samples (R8, R16(g)). -/
def Ctx.qs (c : Ctx) : Nat := c.regs.cfg.qs.toNat

/-- The level a raw sample has for the core (R72). -/
def Ctx.levelOf (c : Ctx) (raw : Level) : Level := raw ^^ c.regs.cfg.rxInvert

/-- ARG as a function code (R102, RD_SLAVE). -/
def Ctx.argFcode (c : Ctx) : BitVec 4 := c.regs.arg

/-- The symbol of a 2-bit code (R104). -/
def symbolOfCode (v : BitVec 2) : Symbol :=
  match v.toNat with
  | 0 => .nl
  | 1 => .zero
  | 2 => .one
  | _ => .nh

/-- The half-period levels of a symbol, first half first (R104). -/
def symbolHalves (x : Symbol) : Level × Level :=
  match x with
  | .nl => (LOW, LOW)
  | .zero => (LOW, HIGH)
  | .one => (HIGH, LOW)
  | .nh => (HIGH, HIGH)

/-- The code `{first half, second half}` of a symbol (R104). -/
def symbolCode (x : Symbol) : BitVec 2 :=
  BitVec.ofBool (symbolHalves x).1 ++ BitVec.ofBool (symbolHalves x).2

/-- The symbol with the given half-period levels (R104, R150). -/
def symbolOfHalves (a b : Level) : Symbol := symbolOfCode (BitVec.ofBool a ++ BitVec.ofBool b)

/-- ARG[1:0] as a symbol (R102, ENC_SYMBOL); ARG[3:2] is ignored. -/
def Ctx.argSymbol (c : Ctx) : Symbol := symbolOfCode (c.regs.arg.extractLsb' 0 2)

/-- ARG[0] as a bit (R102, ENC_BIT); ARG[3:1] is ignored. -/
def Ctx.argBit (c : Ctx) : Bool := c.regs.arg.getLsbD 0

/-- The function-code table entry of a function code (R117). -/
def Ctx.entry (c : Ctx) (fc : BitVec 4) : FctEntry := c.params.fct[fc.toNat]?.getD Config.reservedEntry

/-- Words(fc) = FCT[fc].SIZE / 16 (R192). -/
def Ctx.words (c : Ctx) (fc : BitVec 4) : Nat := (c.entry fc).size.toNat / 16

/-- TX_SWORD0 to TX_SWORD(n − 1) (R240, R243). -/
def Ctx.txWords (c : Ctx) (n : Nat) : List Half := c.regs.txSword.toList.take n

/-- CheckValid, as the core's parameter has it: a function of the chunk's words and its check byte alone (R220, R223). -/
def Ctx.checkValid (c : Ctx) (ws : List Half) (chk : Byte) : Bool :=
  match c.params.validator with
  | .reference => true
  | .exactly b => chk == b
  | .only accepted => accepted.contains (ws, chk)
  | .supplied k => Config.suppliedCheckValid k ws chk

/-- CheckGen, as the core's parameter has it, whichever CheckValid is (R8, R224). -/
def Ctx.checkGen (c : Ctx) (ws : List Half) : Byte :=
  match c.params.generator with
  | .reference => c.regs.txChk
  | .constant b => b
  | .supplied k => Config.suppliedCheckGen k ws

/-- The chunk count ⌈n/4⌉ (R221, R16(d)). -/
def chunkCount (n : Nat) : Nat := (n + 3) / 4

/-- The lengths of the chunks of `n` words: chunk k has min(4, n − 4k) (R221). -/
def chunkSizes (n : Nat) : List Nat := (List.range (chunkCount n)).map fun k => min 4 (n - 4 * k)

/-- The master start delimiter (R108). -/
def masterDelimiter : List Element :=
  [.sym .nh, .sym .nl, .bit false, .sym .nh, .sym .nl, .bit false, .bit false, .bit false]

/-- The slave start delimiter (R109). -/
def slaveDelimiter : List Element :=
  [.sym .one, .bit true, .bit true, .sym .nl, .sym .nh, .bit true, .sym .nl, .sym .nh]

/-- The delimiter of a role: 1 master, 0 slave (R174, R236). -/
def delimiterOf (kind : Bool) : List Element := if kind then masterDelimiter else slaveDelimiter

end Sys2Proof.Machine
end

