-- ==== Sys2Proof/Machine/Flags.lean ====
section
/-! DEFINITION. The status flags (R28, R50): STATUS as a register word, its W1C bits (R29), the interrupt output (R270) and the
outputs of the two stream ports (R71, R79). -/

namespace Sys2Proof.Machine

/-- One bit of a register word at position `n`. -/
def bitAt (n : Nat) (b : Bool) : Word := (BitVec.ofBool b).setWidth 32 <<< n

/-- A field of a register word whose bit 0 stands at position `n`. -/
def fieldAt {w : Nat} (n : Nat) (v : BitVec w) : Word := v.setWidth 32 <<< n

/-- STATUS.ERR codes (R260). -/
def errorNumber (e : ErrorCode) : BitVec 4 :=
  match e with
  | .none => 0
  | .endOfSignal => 1
  | .invalidStartDelimiter => 2
  | .unexpectedRole => 3
  | .checkSequenceMismatch => 4
  | .invalidEndDelimiter => 5
  | .illegalCommand => 6
  | .illegalConfig => 7

/-- STATUS.BUSY: 1 while a command runs (R28, R45). -/
def State.busy (s : State) : Bool := s.running.isSome

/-- STATUS (R28), with ROLE, ROLE_VALID and SKIPPED as `r` holds them. -/
def State.statusWith (s : State) (r : Results) : Word :=
  bitAt 0 s.busy ||| bitAt 1 s.done ||| fieldAt 4 (errorNumber s.err) ||| bitAt 8 r.role ||| bitAt 9 r.roleValid
    ||| bitAt 10 r.skipped ||| bitAt 16 s.cmdRejected ||| bitAt 17 s.writeIgnored

/-- STATUS as it stands now. -/
def State.status (s : State) : Word := s.statusWith s.data.res

/-- A write to STATUS: a W1C bit written as 1 is cleared, whether or not BUSY = 1, and nothing else changes (R29). Writing bit 1 is
the host's acknowledgement of a command's end, the core's return (R268). -/
def State.writeStatus (v : Word) (s : State) : State :=
  { s with
    done := s.done && !v.getLsbD 1
    cmdRejected := s.cmdRejected && !v.getLsbD 16
    writeIgnored := s.writeIgnored && !v.getLsbD 17 }

/-- The interrupt output, `STATUS.DONE AND CFG.IE` (R270). -/
def State.irq (s : State) : Bool := s.done && s.regs.cfg.ie

/-- tx_valid: 1 while a sample is presented to the sink (R79). -/
def State.txValid (s : State) : Bool :=
  match s.running with
  | some ⟨_, .sink _⟩ => true
  | _ => false

/-- tx_level: the presented sample, or CFG.IDLE_LEVEL (R79, R241). -/
def State.txLevel (s : State) : Level :=
  match s.running with
  | some ⟨_, .sink v⟩ => v
  | _ => s.regs.cfg.idleLevel

/-- rx_ready: a stream primitive needs to move past the sample (R71; DEDUCED, log entry 14). -/
def State.rxReady (s : State) : Bool :=
  match s.running with
  | some ⟨_, .move⟩ => true
  | _ => false

end Sys2Proof.Machine
end

