-- ==== Sys2Proof/Machine/Ops.lean ====
section
/-! DEFINITION. The shared operations: how a body runs, the stream primitives (R73 to R80), the symbol and bit decoder and encoder
(R150, R153, R158, R231 to R233), the synchronizer (R178), the frame parser and the frame encoder (R193, R198, R236 to R239), and
the start and the end of a command, the core's exception entry and return (R140, R142, R149, R267, R268). -/

namespace Sys2Proof.Machine

/-- What running a body, or a part of one, comes to (R141): it returns, it raises an error (R12), or it waits for the outside
world having done what the data shows (R301). -/
inductive Res (α : Type) where
  | ok (a : α) (d : Data)
  | raised (e : ErrorCode) (d : Data)
  | waiting (w : Wait) (d : Data)
deriving DecidableEq, Repr

/-- Statements run in order; the first error or wait ends the sequence (R12, R266). -/
def Res.bind {α β : Type} (r : Res α) (f : α → Data → Res β) : Res β :=
  match r with
  | .ok a d => f a d
  | .raised e d => .raised e d
  | .waiting w d => .waiting w d

/-- What happens to the data on a raise before the error goes to the caller (R178, "on any raise inside Sync"). -/
def Res.onRaise {α : Type} (r : Res α) (f : Data → Data) : Res α :=
  match r with
  | .ok a d => .ok a d
  | .raised e d => .raised e (f d)
  | .waiting w d => .waiting w d

/-! ### Write points -/

/-- One write point of a result register: the new values, and the values they leave behind for racing reads (R87, R297). -/
def Data.setRes (f : Results → Results) (d : Data) : Data :=
  { d with res := f d.res, seen := f d.res :: d.seen }

/-- A write to the internal datapath (R46). -/
def Data.setDp (f : Datapath → Datapath) (d : Data) : Data := { d with dp := f d.dp }

/-- Write SYNC_STATE.STATE (R170). -/
def Data.setSync (x : SyncState) (d : Data) : Data := d.setRes fun r => { r with syncState := x }

/-! ### The input stream (R73 to R76) -/

/-- `n` of the presented samples are consumed (R71, R74). -/
def RxPort.consume (n : Nat) (r : RxPort) : RxPort := { r with pos := r.pos + n, ahead := r.ahead.drop n }

/-- The data after `n` of the presented samples are consumed. -/
def Data.consume (n : Nat) (d : Data) : Data := { d with rx := d.rx.consume n }

/-- `Level()` (R73): the current level, not consumed. -/
def level (c : Ctx) (d : Data) : Res Level :=
  match d.rx.ahead with
  | raw :: _ => .ok (c.levelOf raw) d
  | [] => if d.rx.ended then .raised .endOfSignal d else .waiting .look d

/-- `Advance(n)` (R74): consumes exactly `n` samples. If the stream ends first, p is N and EndOfSignal is raised; if the samples
have not all arrived, those that have are consumed and the core waits for the next (R71; DEDUCED, log entry 14). -/
def advance (n : Nat) (d : Data) : Res Unit :=
  if n ≤ d.rx.ahead.length then .ok () (d.consume n)
  else if d.rx.ended then .raised .endOfSignal (d.consume d.rx.ahead.length)
  else .waiting .move (d.consume d.rx.ahead.length)

/-- How many of the presented samples come before the first one of level `v`. -/
def samplesBefore (c : Ctx) (v : Level) : List Level → Nat
  | [] => 0
  | raw :: rest => if c.levelOf raw = v then 0 else samplesBefore c v rest + 1

/-- `AdvanceUntil(v)` (R75): consumes samples until the current one has level `v`, which is not consumed. -/
def advanceUntil (c : Ctx) (v : Level) (d : Data) : Res Unit :=
  let n := samplesBefore c v d.rx.ahead
  if n < d.rx.ahead.length then .ok () (d.consume n)
  else if d.rx.ended then .raised .endOfSignal (d.consume n)
  else .waiting .look (d.consume n)

/-! ### The output stream (R79, R80) -/

/-- `n` samples of level `v` are accepted by the sink: the output record and tp grow (R79). -/
def TxPort.accept (n : Nat) (v : Level) (t : TxPort) : TxPort :=
  { t with count := t.count + n, out := t.out ++ List.replicate n v }

/-- The data after the sink has accepted `n` samples of level `v`. -/
def Data.accept (n : Nat) (v : Level) (d : Data) : Data := { d with tx := d.tx.accept n v }

/-- `n` times `Emit(v)` (R79). A sink that stops accepting holds the command with the next sample presented (R301(c)). -/
def emit (n : Nat) (v : Level) (d : Data) : Res Unit :=
  match d.tx.limit with
  | none => .ok () (d.accept n v)
  | some lim =>
    if d.tx.count + n ≤ lim ∨ n = 0 then .ok () (d.accept n v)
    else .waiting (.sink v) (d.accept (lim - d.tx.count) v)

/-- `EmitHalf(v)` (R80): 2·QS samples. -/
def emitHalf (c : Ctx) (v : Level) (d : Data) : Res Unit := emit (2 * c.qs) v d

/-! ### Symbols, bits and fields -/

/-- `DecodeSymbol()` (R150). -/
def decodeSymbol (c : Ctx) (d : Data) : Res Symbol :=
  (advance c.qs d).bind fun _ d =>
  (level c d).bind fun v1 d =>
  (advance (2 * c.qs) d).bind fun _ d =>
  (level c d).bind fun v2 d =>
  (advance c.qs d).bind fun _ d =>
  .ok (symbolOfHalves v1 v2) d

/-- `DecodeBit()` (R153). -/
def decodeBit (c : Ctx) (d : Data) : Res Bool :=
  (advance c.qs d).bind fun _ d =>
  (level c d).bind fun v d =>
  (advanceUntil c (!v) d).bind fun _ d =>
  (advance (2 * c.qs) d).bind fun _ d =>
  .ok v d

/-- One step of the bit accumulator, `((acc << 1) | b) mod 2^n` (R16(a), R158). -/
def accBit (n acc : Nat) (b : Bool) : Nat := (2 * acc + b.toNat) % 2 ^ n

/-- The loop of ReadBits(n): `k` more bits into the accumulator (R158). -/
def readBitsLoop (c : Ctx) (n : Nat) : Nat → Data → Res Unit
  | 0, d => .ok () d
  | k + 1, d =>
    (decodeBit c d).bind fun b d =>
    readBitsLoop c n k (d.setDp fun p => { p with acc := accBit n p.acc b, nbits := p.nbits + 1 })

/-- `ReadBits(n)` (R158), for n = 16 or 8: the first bit read becomes bit n − 1. -/
def readBits (c : Ctx) (n : Nat) (d : Data) : Res (BitVec n) :=
  (readBitsLoop c n n (d.setDp fun p => { p with acc := 0, nbits := 0 })).bind fun _ d =>
  .ok (BitVec.ofNat n d.dp.acc) d

/-- `EncodeSymbol(x)` (R231). -/
def encodeSymbol (c : Ctx) (x : Symbol) (d : Data) : Res Unit :=
  (emitHalf c (symbolHalves x).1 d).bind fun _ d => emitHalf c (symbolHalves x).2 d

/-- `EncodeBit(b)` (R232). -/
def encodeBit (c : Ctx) (b : Bool) (d : Data) : Res Unit :=
  (emitHalf c b d).bind fun _ d => emitHalf c (!b) d

/-- The bits of a value, bit n − 1 first (R82). -/
def bitsMsbFirst {n : Nat} (v : BitVec n) : List Bool := (List.range n).map fun j => v.getLsbD (n - 1 - j)

/-- The bits of a list sent one after the other. -/
def encodeBits (c : Ctx) : List Bool → Data → Res Unit
  | [], d => .ok () d
  | b :: bs, d => (encodeBit c b d).bind fun _ d => encodeBits c bs d

/-- `EncodeField(v, n)` (R233). -/
def encodeField (c : Ctx) {n : Nat} (v : BitVec n) (d : Data) : Res Unit := encodeBits c (bitsMsbFirst v) d

/-! ### The synchronizer (R170 to R179) -/

/-- Reads one element of a delimiter and says whether it matches (R106, R176). -/
def readElement (c : Ctx) (e : Element) (d : Data) : Res Bool :=
  match e with
  | .sym x => (decodeSymbol c d).bind fun y d => .ok (y == x) d
  | .bit b => (decodeBit c d).bind fun v d => .ok (v == b) d

/-- Reads the rest of a delimiter; `j` is the value ELEM takes when the next element matches (R176, R178). -/
def matchElements (c : Ctx) : List Element → Nat → Data → Res Unit
  | [], _, d => .ok () d
  | e :: es, j, d =>
    (readElement c e d).bind fun good d =>
    if good then matchElements c es (j + 1) (d.setRes fun r => { r with elem := BitVec.ofNat 4 j })
    else .raised .invalidStartDelimiter d

/-- The grammar the first delimiter symbol commits to: 1 master, 0 slave (R110, R174). -/
def kindOfFirst (x : Symbol) : Option Bool :=
  match x with
  | .nh => some true
  | .one => some false
  | .zero | .nl => none

/-- Sync from the first delimiter element on (R174 to R177). -/
def syncDelimiter (c : Ctx) (d : Data) : Res Bool :=
  (decodeSymbol c d).bind fun x d =>
  match kindOfFirst x with
  | none => .raised .invalidStartDelimiter d
  | some kind =>
    (matchElements c (delimiterOf kind).tail 2
      ((d.setRes fun r => { r with kind := kind }).setRes fun r => { r with elem := 1 })).bind fun _ d =>
    .ok kind (((d.setSync .synced).setRes fun r => { r with role := kind }).setRes fun r => { r with roleValid := true })

/-- What Sync writes first: ROLE_VALID ← 0 and SYNC_STATE ← AwaitHigh with KIND and ELEM 0 (R178). -/
def Data.syncBegin (d : Data) : Data :=
  d.setRes fun r => { r with roleValid := false, syncState := .awaitHigh, kind := false, elem := 0 }

/-- `Sync()` (R171, R178): the role of the next frame, 1 master, 0 slave. -/
def sync (c : Ctx) (d : Data) : Res Bool :=
  ((advanceUntil c HIGH d.syncBegin).bind fun _ d =>
   (advanceUntil c LOW (d.setSync .awaitLow)).bind fun _ d =>
   (advance (2 * c.qs) (d.setSync .atStartBit)).bind fun _ d =>
   syncDelimiter c (d.setSync .inDelimiter)).onRaise fun d => d.setSync .error

/-! ### The frame parser (R193 to R206) -/

/-- The end delimiter: one symbol, which must be NL (R111, R193, R198). -/
def readEnd (c : Ctx) (d : Data) : Res Unit :=
  (decodeSymbol c d).bind fun e d => if e = .nl then .ok () d else .raised .invalidEndDelimiter d

/-- `ReadMaster()` (R193, R197): the master word. -/
def readMaster (c : Ctx) (d : Data) : Res Half :=
  (sync c d).bind fun kind d =>
  if kind = false then .raised .unexpectedRole d
  else
    (readBits c 16 d).bind fun w d =>
    (readBits c 8 (d.setRes fun r => { r with mword := w })).bind fun chk d =>
    let d := d.setRes fun r => { r with mchk := chk }
    if c.checkValid [w] chk = false then .raised .checkSequenceMismatch d
    else (readEnd c d).bind fun _ d => .ok w d

/-- `RX_SWORD[at] ← v` (R37, R201). -/
def Results.setSword (r : Results) (at' : Nat) (v : Half) : Results := { r with sword := r.sword.setIfInBounds at' v }

/-- `RX_SCHK[k] ← v` (R36, R201). -/
def Results.setSchk (r : Results) (k : Nat) (v : Byte) : Results := { r with schk := r.schk.setIfInBounds k v }

/-- `RX_SWORD[i .. i+m−1]` (R198, R222). -/
def Results.chunkWords (r : Results) (i m : Nat) : List Half :=
  (List.range m).map fun j => r.sword[i + j]?.getD 0

/-- The words of one chunk: `m` words into RX_SWORD from index `at'` on, COUNT after each (R198, R201). -/
def readWords (c : Ctx) : Nat → Nat → Data → Res Unit
  | 0, _, d => .ok () d
  | m + 1, at', d =>
    (readBits c 16 d).bind fun w d =>
    readWords c m (at' + 1)
      ((d.setRes fun r => r.setSword at' w).setRes fun r => { r with count := BitVec.ofNat 5 (at' + 1) })

/-- The chunks of a slave frame (R198, R222): `i` words and `k` chunks are done. -/
def readChunks (c : Ctx) : List Nat → Nat → Nat → Data → Res Unit
  | [], _, _, d => .ok () d
  | m :: ms, i, k, d =>
    (readWords c m i (d.setDp fun p => { p with i := i, k := k, m := m })).bind fun _ d =>
    (readBits c 8 d).bind fun chk d =>
    let d := (d.setRes fun r => r.setSchk k chk).setRes fun r => { r with chunks := BitVec.ofNat 3 (k + 1) }
    if c.checkValid (d.res.chunkWords i m) chk = false then .raised .checkSequenceMismatch d
    else readChunks c ms (i + m) (k + 1) d

/-- What ReadSlave writes first: RX_SCNT ← COUNT 0, EXPECTED n, CHUNKS 0 (R198, R201). -/
def Data.slaveBegin (n : Nat) (d : Data) : Data :=
  d.setRes fun r => { r with count := 0, expected := BitVec.ofNat 5 n, chunks := 0 }

/-- `ReadSlave(fc)` (R198). -/
def readSlave (c : Ctx) (fc : BitVec 4) (d : Data) : Res Unit :=
  (sync c (d.slaveBegin (c.words fc))).bind fun kind d =>
  if kind = true then .raised .unexpectedRole d
  else (readChunks c (chunkSizes (c.words fc)) 0 0 d).bind fun _ d => readEnd c d

/-! ### The frame encoder (R236 to R245) -/

/-- `Send(e)` (R236). -/
def sendElement (c : Ctx) (e : Element) (d : Data) : Res Unit :=
  match e with
  | .sym x => encodeSymbol c x d
  | .bit b => encodeBit c b d

/-- The elements of a list sent one after the other. -/
def sendElements (c : Ctx) : List Element → Data → Res Unit
  | [], d => .ok () d
  | e :: es, d => (sendElement c e d).bind fun _ d => sendElements c es d

/-- `EncodeStart(kind)` (R236): the start bit and the delimiter of the role. -/
def encodeStart (c : Ctx) (kind : Bool) (d : Data) : Res Unit :=
  (encodeBit c true d).bind fun _ d => sendElements c (delimiterOf kind) d

/-- `EncodeMaster(w)` (R237). -/
def encodeMaster (c : Ctx) (w : Half) (d : Data) : Res Unit :=
  (encodeStart c true d).bind fun _ d =>
  (encodeField c w d).bind fun _ d =>
  (encodeField c (c.checkGen [w]) d).bind fun _ d =>
  encodeSymbol c .nl d

/-- The words of a list sent one after the other (R239). -/
def encodeWords (c : Ctx) : List Half → Data → Res Unit
  | [], d => .ok () d
  | w :: ws, d => (encodeField c w d).bind fun _ d => encodeWords c ws d

/-- The chunks of a slave frame, each with its check byte (R239): `ms` are the lengths of the chunks left of the words left. -/
def encodeChunks (c : Ctx) : List Nat → List Half → Data → Res Unit
  | [], _, d => .ok () d
  | m :: ms, ws, d =>
    (encodeWords c (ws.take m) d).bind fun _ d =>
    (encodeField c (c.checkGen (ws.take m)) d).bind fun _ d =>
    encodeChunks c ms (ws.drop m) d

/-- `EncodeSlave(ws)` (R239). -/
def encodeSlave (c : Ctx) (ws : List Half) (d : Data) : Res Unit :=
  (encodeStart c false d).bind fun _ d =>
  (encodeChunks c (chunkSizes ws.length) ws d).bind fun _ d =>
  encodeSymbol c .nl d

/-- The gap the `k`-th draw gives in `lo .. hi` (R244): a free choice, and no choice where the bounds agree (log entry 11). -/
def gapLength (lo hi k : Nat) : Nat := if lo = hi then lo else lo + Config.gapDraw k % (hi - lo + 1)

/-- Draws the inter-frame gap and emits it at CFG.IDLE_LEVEL (R243, R244). -/
def emitGap (c : Ctx) (d : Data) : Res Unit :=
  let g := gapLength c.regs.gapMin.toNat c.regs.gapMax.toNat d.gapDraws
  emit g c.regs.cfg.idleLevel { d with gapDraws := d.gapDraws + 1, dp := { d.dp with gap := g } }

/-! ### Start and end of a command: the core's exception entry and return -/

/-- What a command does between its start and its end. -/
abbrev Body := Ctx → Data → Res Unit

/-- The end of a command, with or without an error, at one instant (R142): the core's exception entry (R267). No datapath state
survives it (R46). -/
def State.endCommand (e : ErrorCode) (d : Data) (s : State) : State :=
  { s with data := { d with dp := Datapath.idle, seen := [] }, running := none, done := true, err := e }

/-- A body has run from `start` as far as it can: the command has ended, or it runs on and waits (R141, R142). The cycles this takes
are LATENCY (R310; DESIGN CHOICE, unsafe: log entry 8). -/
def State.settle (start : Data) (r : Res Unit) (s : State) : State :=
  match r with
  | .ok _ d => s.endCommand .none d
  | .raised e d => s.endCommand e d
  | .waiting w d => { s with data := d, running := some { start := start, wait := w } }

/-- OP = 0x7, 0xD, 0xE and 0xF are illegal (R103). -/
def illegalOp (op : BitVec 4) : Bool := op == 0x7 || op == 0xD || op == 0xE || op == 0xF

/-- The start checks, in their order (R144, R145, R149). -/
def startCheck (r : Regs) : Option ErrorCode :=
  if illegalOp r.op then some .illegalCommand
  else if r.op ≠ 0x0 ∧ r.cfg.qs = 0 then some .illegalConfig
  else if r.op = 0xB ∧ 16 < r.txNw.toNat then some .illegalConfig
  else if r.op = 0xC ∧ r.gapMax < r.gapMin then some .illegalConfig
  else none

/-- What START writes at one instant (R140). BUSY becomes 1 by the command's running, and `seen` begins with the values the result
registers hold at START (R297). -/
def State.begin (op arg : BitVec 4) (s : State) : State :=
  let res := { s.data.res with skipped := false }
  { s with
    regs := { s.regs with op := op, arg := arg }
    data := { s.data with res := res, seen := [res] }
    done := false
    err := .none }

/-- A START that finds a command running is refused: it starts nothing and sets both sticky flags (R143, R268). -/
def State.rejectStart (s : State) : State := { s with cmdRejected := true, writeIgnored := true }

/-- A write to CTRL with START = 1 (R140, R143, R149): refused while BUSY = 1; otherwise START's writes, the checks, the body. -/
def State.startCommand (op : BitVec 4) (arg : Nat) (body : Body) (s : State) : State :=
  if s.busy then s.rejectStart
  else
    let s := s.begin op (BitVec.ofNat 4 arg)
    match startCheck s.regs with
    | some e => s.endCommand e s.data
    | none => s.settle s.data (body s.ctx s.data)

end Sys2Proof.Machine
end

