-- ==== Sys2Proof/Machine/Decoder.lean ====
section
/-! DEFINITION. The commands of the Symbol/Bit Decoder and the Frame Synchronizer: DEC_SYMBOL, DEC_BIT, SYNC
(spec/41_symbol_bit_decoder.md, spec/42_frame_synchronizer.md). -/

namespace Sys2Proof.Machine

/-- `x <- DecodeSymbol(); RX_RESULT.SYM <- code(x)` (R152). -/
def bodyDecSymbol : Body := fun c d =>
  (decodeSymbol c d).bind fun x d => .ok () (d.setRes fun r => { r with sym := x })

/-- DEC_SYMBOL (R152). -/
def execDecSymbol (arg : Nat) (s : State) : Host.Outcome State Fault Refusal :=
  .next (s.startCommand 0x1 arg bodyDecSymbol)

/-- `b <- DecodeBit(); RX_RESULT.BIT <- b` (R155). -/
def bodyDecBit : Body := fun c d =>
  (decodeBit c d).bind fun b d => .ok () (d.setRes fun r => { r with bit := b })

/-- DEC_BIT (R155). -/
def execDecBit (arg : Nat) (s : State) : Host.Outcome State Fault Refusal :=
  .next (s.startCommand 0x2 arg bodyDecBit)

/-- `Sync()`; either role is accepted (R178). -/
def bodySync : Body := fun c d => (sync c d).bind fun _ d => .ok () d

/-- SYNC (R178). -/
def execSync (arg : Nat) (s : State) : Host.Outcome State Fault Refusal :=
  .next (s.startCommand 0x3 arg bodySync)

end Sys2Proof.Machine
end

