-- ==== Sys2Proof/Machine/Encoder.lean ====
section
/-! DEFINITION. The commands of the Encoder: ENC_SYMBOL, ENC_BIT, ENC_MASTER, ENC_SLAVE, ENC_TELEGRAM (spec/45_encoder.md). -/

namespace Sys2Proof.Machine

/-- `EncodeSymbol(the symbol whose code is CTRL.ARG[1:0])` (R234). -/
def bodyEncSymbol : Body := fun c d => encodeSymbol c c.argSymbol d

/-- ENC_SYMBOL (R234). -/
def execEncSymbol (arg : Nat) (s : State) : Host.Outcome State Fault Refusal :=
  .next (s.startCommand 0x8 arg bodyEncSymbol)

/-- `EncodeBit(CTRL.ARG[0])` (R235). -/
def bodyEncBit : Body := fun c d => encodeBit c c.argBit d

/-- ENC_BIT (R235). -/
def execEncBit (arg : Nat) (s : State) : Host.Outcome State Fault Refusal :=
  .next (s.startCommand 0x9 arg bodyEncBit)

/-- `EncodeMaster(TX_MWORD.WORD)` (R238). -/
def bodyEncMaster : Body := fun c d => encodeMaster c c.regs.txMword d

/-- ENC_MASTER (R238). -/
def execEncMaster (arg : Nat) (s : State) : Host.Outcome State Fault Refusal :=
  .next (s.startCommand 0xA arg bodyEncMaster)

/-- `EncodeSlave` of the first TX_NW.COUNT words (R240). -/
def bodyEncSlave : Body := fun c d => encodeSlave c (c.txWords c.regs.txNw.toNat) d

/-- ENC_SLAVE (R240). -/
def execEncSlave (arg : Nat) (s : State) : Host.Outcome State Fault Refusal :=
  .next (s.startCommand 0xB arg bodyEncSlave)

/-- Whether a telegram sent with function code `fc` has no slave frame: SLAVE_POLICY = 1 and n = 0 (R243, R245). -/
def Ctx.sendSkips (c : Ctx) (fc : BitVec 4) : Bool := c.regs.cfg.slavePolicy && c.words fc == 0

/-- The master frame, the drawn gap, and the slave frame of the word's function code unless SLAVE_POLICY leaves it out (R243). -/
def bodyEncTelegram : Body := fun c d =>
  (encodeMaster c c.regs.txMword d).bind fun _ d =>
  (emitGap c d).bind fun _ d =>
  if c.sendSkips (wordFcode c.regs.txMword) then .ok () (d.setRes fun r => { r with skipped := true })
  else encodeSlave c (c.txWords (c.words (wordFcode c.regs.txMword))) d

/-- ENC_TELEGRAM (R243). -/
def execEncTelegram (arg : Nat) (s : State) : Host.Outcome State Fault Refusal :=
  .next (s.startCommand 0xC arg bodyEncTelegram)

end Sys2Proof.Machine
end

