-- ==== Sys2Proof/Machine/Lifecycle.lean ====
section
/-! DEFINITION. NOP and the four illegal opcodes (spec/40_command.md). -/

namespace Sys2Proof.Machine

/-- The body of NOP, and of an illegal command, is empty (R144, R146). -/
def bodyNop : Body := fun _ d => .ok () d

/-- NOP (R146). -/
def execNop (arg : Nat) (s : State) : Host.Outcome State Fault Refusal :=
  .next (s.startCommand 0x0 arg bodyNop)

/-- OP = 0x7: the start check ends the command with ILLEGAL_COMMAND (R103, R144). -/
def execIllegalOp7 (arg : Nat) (s : State) : Host.Outcome State Fault Refusal :=
  .next (s.startCommand 0x7 arg bodyNop)

/-- OP = 0xD: the start check ends the command with ILLEGAL_COMMAND (R103, R144). -/
def execIllegalOpD (arg : Nat) (s : State) : Host.Outcome State Fault Refusal :=
  .next (s.startCommand 0xD arg bodyNop)

/-- OP = 0xE: the start check ends the command with ILLEGAL_COMMAND (R103, R144). -/
def execIllegalOpE (arg : Nat) (s : State) : Host.Outcome State Fault Refusal :=
  .next (s.startCommand 0xE arg bodyNop)

/-- OP = 0xF: the start check ends the command with ILLEGAL_COMMAND (R103, R144). -/
def execIllegalOpF (arg : Nat) (s : State) : Host.Outcome State Fault Refusal :=
  .next (s.startCommand 0xF arg bodyNop)

end Sys2Proof.Machine
end

