-- ==== Sys2Proof/Machine/Parser.lean ====
section
/-! DEFINITION. The commands of the Frame Parser: RD_MASTER, RD_SLAVE, RD_TELEGRAM (spec/43_frame_parser.md). -/

namespace Sys2Proof.Machine

/-- `ReadMaster()` (R196). -/
def bodyRdMaster : Body := fun c d => (readMaster c d).bind fun _ d => .ok () d

/-- RD_MASTER (R196). -/
def execRdMaster (arg : Nat) (s : State) : Host.Outcome State Fault Refusal :=
  .next (s.startCommand 0x4 arg bodyRdMaster)

/-- `ReadSlave(CTRL.ARG)` (R200); CFG.SLAVE_POLICY does not apply. -/
def bodyRdSlave : Body := fun c d => readSlave c c.argFcode d

/-- RD_SLAVE (R200). -/
def execRdSlave (arg : Nat) (s : State) : Host.Outcome State Fault Refusal :=
  .next (s.startCommand 0x5 arg bodyRdSlave)

/-- Whether a telegram read of function code `fc` leaves out the slave frame: SLAVE_POLICY = 1 and SIZE = 0 (R204, R205). -/
def Ctx.readSkips (c : Ctx) (fc : BitVec 4) : Bool := c.regs.cfg.slavePolicy && (c.entry fc).size == 0

/-- A master frame, then the slave frame of its function code unless SLAVE_POLICY leaves it out (R204, R205). -/
def bodyRdTelegram : Body := fun c d =>
  (readMaster c d).bind fun w d =>
  if c.readSkips (wordFcode w) then .ok () (d.setRes fun r => { r with skipped := true })
  else readSlave c (wordFcode w) d

/-- RD_TELEGRAM (R204). -/
def execRdTelegram (arg : Nat) (s : State) : Host.Outcome State Fault Refusal :=
  .next (s.startCommand 0x6 arg bodyRdTelegram)

end Sys2Proof.Machine
end

