-- ==== Sys2Proof/Machine/Engine.lean ====
section
/-! DEFINITION. The command engine between host accesses: a command that waits goes on when the input source or the output sink
moves (R71, R79, R141, R301). -/

namespace Sys2Proof.Machine

/-- The body CTRL.OP names (R45, R101); an illegal opcode has the empty body (R144). -/
def commandBody (op : BitVec 4) : Body :=
  match op.toNat with
  | 0x1 => bodyDecSymbol
  | 0x2 => bodyDecBit
  | 0x3 => bodySync
  | 0x4 => bodyRdMaster
  | 0x5 => bodyRdSlave
  | 0x6 => bodyRdTelegram
  | 0x8 => bodyEncSymbol
  | 0x9 => bodyEncBit
  | 0xA => bodyEncMaster
  | 0xB => bodyEncSlave
  | 0xC => bodyEncTelegram
  | _ => bodyNop

/-- The running command, if there is one, goes on as far as it can. Its operands cannot have changed (R91) and a body depends on
nothing but them and the data it started from, so what it has done by now is what its body does from that data with all that has
been presented and accepted since (DEDUCED, log entry 2). -/
def State.resume (s : State) : State :=
  match s.running with
  | none => s
  | some r => s.settle r.start (commandBody s.regs.op s.ctx r.start)

/-- Samples added at the end of those presented. -/
def Data.present (xs : List Level) (d : Data) : Data := { d with rx := { d.rx with ahead := d.rx.ahead ++ xs } }

/-- The source has ended. -/
def Data.endInput (d : Data) : Data := { d with rx := { d.rx with ended := true } }

/-- The sink's limit is set. -/
def Data.setLimit (lim : Option Nat) (d : Data) : Data := { d with tx := { d.tx with limit := lim } }

/-- A change of the environment, seen by the data and by the data the running command started from. -/
def State.changeData (f : Data → Data) (s : State) : State :=
  { s with data := f s.data, running := s.running.map fun r => { r with start := f r.start } }

/-- The source presents samples (R71; DEDUCED, log entry 13). An idle core leaves them to be consumed later; a waiting command goes on. The source never
presents a sample after rx_end (R71), so such a sample is no part of the stream. -/
def State.present (xs : List Level) (s : State) : State :=
  if s.data.rx.ended then s else (s.changeData (·.present xs)).resume

/-- The source asserts rx_end (R71): N is now known (R70). -/
def State.endInput (s : State) : State := (s.changeData (·.endInput)).resume

/-- The sink changes what it accepts (R79, R301(c)). -/
def State.setLimit (lim : Option Nat) (s : State) : State := (s.changeData (·.setLimit lim)).resume

end Sys2Proof.Machine
end

