-- ==== Sys2Proof/Machine/Line.lean ====
section
/-! DEFINITION. The rows of the opcode table's line layers as steps: the line carries the element, that is, the input source presents
its waveform at the bit period of CFG.QS (R104 to R113, R122), and the core does with it what its running command says (R22: the
input position plays the part of a program counter). The waveform is the same the encoder sends (R230). -/

namespace Sys2Proof.Machine

/-- The samples of half-bit periods, 2·QS each (R80, R122). -/
def samplesOfHalves (qs : Nat) (halves : List Level) : List Level :=
  halves.flatMap fun v => List.replicate (2 * qs) v

/-- The half-bit periods of a symbol (R104). -/
def halvesOfSymbol (x : Symbol) : List Level := [(symbolHalves x).1, (symbolHalves x).2]

/-- The half-bit periods of a bit (R105). -/
def halvesOfBit (b : Bool) : List Level := [b, !b]

/-- The half-bit periods of a delimiter element (R106). -/
def halvesOfElement (e : Element) : List Level :=
  match e with
  | .sym x => halvesOfSymbol x
  | .bit b => halvesOfBit b

/-- The half-bit periods of an n-bit field, most significant bit first (R82). -/
def halvesOfField {n : Nat} (v : BitVec n) : List Level := (bitsMsbFirst v).flatMap halvesOfBit

/-- The half-bit periods of a start bit and the delimiter of a role (R107 to R109). -/
def halvesOfStart (kind : Bool) : List Level := halvesOfBit true ++ (delimiterOf kind).flatMap halvesOfElement

/-- The line carries the given half-bit periods, at the bit period of CFG.QS (DESIGN CHOICE, unsafe: log entry 7). -/
def State.carry (halves : List Level) (s : State) : Host.Outcome State Fault Refusal :=
  .next (s.present (samplesOfHalves s.ctx.qs halves))

/-- The line carries a master word: fcode first, most significant bit first (R82, R113). -/
def State.carryWord (fcode : BitVec 4) (addr : Nat) (s : State) : Host.Outcome State Fault Refusal :=
  s.carry (halvesOfField (masterWord fcode (BitVec.ofNat 12 addr)))

/-- SYM_NL: `LL` (R104). -/
def execSymNl (s : State) : Host.Outcome State Fault Refusal := s.carry (halvesOfSymbol .nl)

/-- SYM_Zero: `LH` (R104). -/
def execSymZero (s : State) : Host.Outcome State Fault Refusal := s.carry (halvesOfSymbol .zero)

/-- SYM_One: `HL` (R104). -/
def execSymOne (s : State) : Host.Outcome State Fault Refusal := s.carry (halvesOfSymbol .one)

/-- SYM_NH: `HH` (R104). -/
def execSymNh (s : State) : Host.Outcome State Fault Refusal := s.carry (halvesOfSymbol .nh)

/-- BIT_0: `LH` (R105). -/
def execBit0 (s : State) : Host.Outcome State Fault Refusal := s.carry (halvesOfBit false)

/-- BIT_1: `HL` (R105). -/
def execBit1 (s : State) : Host.Outcome State Fault Refusal := s.carry (halvesOfBit true)

/-- START_MASTER: the start bit and the master start delimiter (R107, R108). -/
def execStartMaster (s : State) : Host.Outcome State Fault Refusal := s.carry (halvesOfStart true)

/-- START_SLAVE: the start bit and the slave start delimiter (R107, R109). -/
def execStartSlave (s : State) : Host.Outcome State Fault Refusal := s.carry (halvesOfStart false)

/-- END: the end delimiter, one symbol NL (R111). -/
def execEndDelim (s : State) : Host.Outcome State Fault Refusal := s.carry (halvesOfElement (.sym .nl))

/-- MWORD_FC0 (R113, R191). -/
def execMwordFc0 (addr : Nat) (s : State) : Host.Outcome State Fault Refusal := s.carryWord 0 addr

/-- MWORD_FC1 (R113, R191). -/
def execMwordFc1 (addr : Nat) (s : State) : Host.Outcome State Fault Refusal := s.carryWord 1 addr

/-- MWORD_FC2 (R113, R191). -/
def execMwordFc2 (addr : Nat) (s : State) : Host.Outcome State Fault Refusal := s.carryWord 2 addr

/-- MWORD_FC3 (R113, R191). -/
def execMwordFc3 (addr : Nat) (s : State) : Host.Outcome State Fault Refusal := s.carryWord 3 addr

/-- MWORD_FC4 (R113, R191). -/
def execMwordFc4 (addr : Nat) (s : State) : Host.Outcome State Fault Refusal := s.carryWord 4 addr

/-- MWORD_FC5 (R113, R191). -/
def execMwordFc5 (addr : Nat) (s : State) : Host.Outcome State Fault Refusal := s.carryWord 5 addr

/-- MWORD_FC6 (R113, R191). -/
def execMwordFc6 (addr : Nat) (s : State) : Host.Outcome State Fault Refusal := s.carryWord 6 addr

/-- MWORD_FC7 (R113, R191). -/
def execMwordFc7 (addr : Nat) (s : State) : Host.Outcome State Fault Refusal := s.carryWord 7 addr

/-- MWORD_FC8 (R113, R191). -/
def execMwordFc8 (addr : Nat) (s : State) : Host.Outcome State Fault Refusal := s.carryWord 8 addr

/-- MWORD_FC9 (R113, R191). -/
def execMwordFc9 (addr : Nat) (s : State) : Host.Outcome State Fault Refusal := s.carryWord 9 addr

/-- MWORD_FC10 (R113, R191). -/
def execMwordFc10 (addr : Nat) (s : State) : Host.Outcome State Fault Refusal := s.carryWord 10 addr

/-- MWORD_FC11 (R113, R191). -/
def execMwordFc11 (addr : Nat) (s : State) : Host.Outcome State Fault Refusal := s.carryWord 11 addr

/-- MWORD_FC12 (R113, R191). -/
def execMwordFc12 (addr : Nat) (s : State) : Host.Outcome State Fault Refusal := s.carryWord 12 addr

/-- MWORD_FC13 (R113, R191). -/
def execMwordFc13 (addr : Nat) (s : State) : Host.Outcome State Fault Refusal := s.carryWord 13 addr

/-- MWORD_FC14 (R113, R191). -/
def execMwordFc14 (addr : Nat) (s : State) : Host.Outcome State Fault Refusal := s.carryWord 14 addr

/-- MWORD_FC15 (R113, R191). -/
def execMwordFc15 (addr : Nat) (s : State) : Host.Outcome State Fault Refusal := s.carryWord 15 addr

end Sys2Proof.Machine
end

