-- ==== Sys2Proof/Machine/Dispatch.lean ====
section
/-! DEFINITION. One arm per row of the opcode table. -/

namespace Sys2Proof.Machine

def exec (i : Instr) (s : State) : Host.Outcome State Fault Refusal :=
  match i with
  | .nop arg => Sys2Proof.Machine.execNop arg s
  | .decSymbol arg => Sys2Proof.Machine.execDecSymbol arg s
  | .decBit arg => Sys2Proof.Machine.execDecBit arg s
  | .sync arg => Sys2Proof.Machine.execSync arg s
  | .rdMaster arg => Sys2Proof.Machine.execRdMaster arg s
  | .rdSlave arg => Sys2Proof.Machine.execRdSlave arg s
  | .rdTelegram arg => Sys2Proof.Machine.execRdTelegram arg s
  | .encSymbol arg => Sys2Proof.Machine.execEncSymbol arg s
  | .encBit arg => Sys2Proof.Machine.execEncBit arg s
  | .encMaster arg => Sys2Proof.Machine.execEncMaster arg s
  | .encSlave arg => Sys2Proof.Machine.execEncSlave arg s
  | .encTelegram arg => Sys2Proof.Machine.execEncTelegram arg s
  | .illegalOp7 arg => Sys2Proof.Machine.execIllegalOp7 arg s
  | .illegalOpD arg => Sys2Proof.Machine.execIllegalOpD arg s
  | .illegalOpE arg => Sys2Proof.Machine.execIllegalOpE arg s
  | .illegalOpF arg => Sys2Proof.Machine.execIllegalOpF arg s
  | .symNl => Sys2Proof.Machine.execSymNl s
  | .symZero => Sys2Proof.Machine.execSymZero s
  | .symOne => Sys2Proof.Machine.execSymOne s
  | .symNh => Sys2Proof.Machine.execSymNh s
  | .bit0 => Sys2Proof.Machine.execBit0 s
  | .bit1 => Sys2Proof.Machine.execBit1 s
  | .startMaster => Sys2Proof.Machine.execStartMaster s
  | .startSlave => Sys2Proof.Machine.execStartSlave s
  | .endDelim => Sys2Proof.Machine.execEndDelim s
  | .mwordFc0 addr => Sys2Proof.Machine.execMwordFc0 addr s
  | .mwordFc1 addr => Sys2Proof.Machine.execMwordFc1 addr s
  | .mwordFc2 addr => Sys2Proof.Machine.execMwordFc2 addr s
  | .mwordFc3 addr => Sys2Proof.Machine.execMwordFc3 addr s
  | .mwordFc4 addr => Sys2Proof.Machine.execMwordFc4 addr s
  | .mwordFc5 addr => Sys2Proof.Machine.execMwordFc5 addr s
  | .mwordFc6 addr => Sys2Proof.Machine.execMwordFc6 addr s
  | .mwordFc7 addr => Sys2Proof.Machine.execMwordFc7 addr s
  | .mwordFc8 addr => Sys2Proof.Machine.execMwordFc8 addr s
  | .mwordFc9 addr => Sys2Proof.Machine.execMwordFc9 addr s
  | .mwordFc10 addr => Sys2Proof.Machine.execMwordFc10 addr s
  | .mwordFc11 addr => Sys2Proof.Machine.execMwordFc11 addr s
  | .mwordFc12 addr => Sys2Proof.Machine.execMwordFc12 addr s
  | .mwordFc13 addr => Sys2Proof.Machine.execMwordFc13 addr s
  | .mwordFc14 addr => Sys2Proof.Machine.execMwordFc14 addr s
  | .mwordFc15 addr => Sys2Proof.Machine.execMwordFc15 addr s

end Sys2Proof.Machine
end

