-- ==== Sys2Proof/Machine/Port.lean ====
section
/-! DEFINITION. The register port: the map of R23, reads with their racing values (R85, R87, R297), writes (R29, R143, R48, R49),
byte lanes (R83), and the reset input (R290, R292). -/

namespace Sys2Proof.Machine

/-- SYNC_STATE.STATE codes (R30). -/
def syncNumber (x : SyncState) : BitVec 3 :=
  match x with
  | .idle => 0
  | .awaitHigh => 1
  | .awaitLow => 2
  | .atStartBit => 3
  | .inDelimiter => 4
  | .synced => 5
  | .error => 6

/-- ADDR_KIND codes (R118). -/
def addrKindNumber (k : AddrKind) : BitVec 3 :=
  match k with
  | .none => 0
  | .logical => 1
  | .device => 2
  | .allDevices => 3
  | .deviceGroup => 4

/-- REQ_KIND codes (R118). -/
def reqKindNumber (k : ReqKind) : BitVec 4 :=
  match k with
  | .processData => 0
  | .reserved => 1
  | .mastershipTransfer => 2
  | .generalEvent => 3
  | .messageData => 4
  | .groupEvent => 5
  | .singleEvent => 6
  | .deviceStatus => 7

/-- RESP_KIND codes (R118). -/
def respKindNumber (k : RespKind) : BitVec 4 :=
  match k with
  | .none => 0
  | .processData => 1
  | .mastershipTransfer => 2
  | .eventIdentifier => 3
  | .messageData => 4
  | .deviceStatus => 5

/-- SRC_KIND codes (R118). -/
def srcKindNumber (k : SrcKind) : BitVec 4 :=
  match k with
  | .none => 0
  | .oneDevice => 1
  | .oneOrMoreDevices => 2

/-- DEST_KIND codes (R118). -/
def destKindNumber (k : DestKind) : BitVec 4 :=
  match k with
  | .none => 0
  | .subscribedSinks => 1
  | .master => 2
  | .selectedDevices => 3
  | .masterOrMonitor => 4

/-- Register FCTf (R47). -/
def fctWord (e : FctEntry) : Word :=
  fieldAt 0 e.size ||| fieldAt 12 (addrKindNumber e.addrKind) ||| fieldAt 16 (reqKindNumber e.reqKind)
    ||| fieldAt 20 (respKindNumber e.respKind) ||| fieldAt 24 (srcKindNumber e.srcKind)
    ||| fieldAt 28 (destKindNumber e.destKind)

/-- CTRL as it reads (R25). -/
def ctrlWord (r : Regs) : Word := fieldAt 4 r.op ||| fieldAt 12 r.arg

/-- CFG as it reads (R26). -/
def cfgWord (c : Cfg) : Word :=
  fieldAt 0 c.qs ||| bitAt 8 c.rxInvert ||| bitAt 9 c.idleLevel ||| bitAt 10 c.slavePolicy ||| bitAt 11 c.ie

/-- CFG from a written value (R26). -/
def cfgOfWord (v : Word) : Cfg :=
  { qs := v.extractLsb' 0 8, rxInvert := v.getLsbD 8, idleLevel := v.getLsbD 9, slavePolicy := v.getLsbD 10,
    ie := v.getLsbD 11 }

/-- SYNC_STATE (R30). -/
def syncStateWord (r : Results) : Word := fieldAt 0 (syncNumber r.syncState) ||| bitAt 3 r.kind ||| fieldAt 4 r.elem

/-- RX_RESULT (R33). -/
def rxResultWord (r : Results) : Word := fieldAt 0 (symbolCode r.sym) ||| bitAt 4 r.bit

/-- RX_MWORD (R34). -/
def rxMwordWord (r : Results) : Word := fieldAt 0 r.mword ||| fieldAt 16 r.mchk

/-- RX_SCNT (R35). -/
def rxScntWord (r : Results) : Word := fieldAt 0 r.count ||| fieldAt 8 r.expected ||| fieldAt 16 r.chunks

/-- What the registers that a running command changes hold at one instant: the result registers and the two counters (R297). -/
structure View where
  res   : Results
  pos   : Nat
  count : Nat
deriving DecidableEq, Repr

/-- The values those registers hold now. -/
def State.viewNow (s : State) : View := { res := s.data.res, pos := s.data.rx.pos, count := s.data.tx.count }

/-- One of the members of a list, by a free choice; no choice where there is one member (log entry 12). -/
def choose (n : Nat) (xs : List Results) (now : Results) : Results :=
  match xs with
  | [] => now
  | [x] => x
  | x :: rest => (x :: rest)[Config.raceDraw n % (x :: rest).length]?.getD now

/-- A number from `lo` to `hi`, by a free choice; no choice where they agree. -/
def chooseBetween (n lo hi : Nat) : Nat := if hi ≤ lo then hi else lo + Config.raceDraw n % (hi - lo + 1)

/-- The values a read that races with the running command sees: each register holds a value it has held at some point between the
START and now (R297). Results are final while the core is idle (R88). -/
def State.viewSeen (s : State) : View :=
  match s.running with
  | none => s.viewNow
  | some r =>
    { res := choose s.raceDraws s.data.seen s.data.res
      pos := chooseBetween s.raceDraws r.start.rx.pos s.data.rx.pos
      count := chooseBetween s.raceDraws r.start.tx.count s.data.tx.count }

/-- The register at an aligned offset, the engine's registers as the view has them (R23); every other offset reads 0 (R48). -/
def State.register (s : State) (v : View) (off : Nat) : Word :=
  if off = 0x000 then ctrlWord s.regs
  else if off = 0x004 then cfgWord s.regs.cfg
  else if off = 0x008 then s.statusWith v.res
  else if off = 0x00C then syncStateWord v.res
  else if off = 0x010 then BitVec.ofNat 32 v.pos
  else if off = 0x014 then BitVec.ofNat 32 v.count
  else if off = 0x018 then rxResultWord v.res
  else if off = 0x01C then rxMwordWord v.res
  else if off = 0x020 then rxScntWord v.res
  else if 0x024 ≤ off ∧ off < 0x034 then fieldAt 0 (v.res.schk[(off - 0x024) / 4]?.getD 0)
  else if 0x040 ≤ off ∧ off < 0x080 then fieldAt 0 (v.res.sword[(off - 0x040) / 4]?.getD 0)
  else if off = 0x080 then fieldAt 0 s.regs.txMword
  else if off = 0x084 then fieldAt 0 s.regs.txNw
  else if off = 0x088 then fieldAt 0 s.regs.gapMin ||| fieldAt 16 s.regs.gapMax
  else if off = 0x08C then fieldAt 0 s.regs.txChk
  else if 0x0C0 ≤ off ∧ off < 0x100 then fieldAt 0 (s.regs.txSword[(off - 0x0C0) / 4]?.getD 0)
  else if 0x100 ≤ off ∧ off < 0x140 then fctWord (s.ctx.entry (BitVec.ofNat 4 ((off - 0x100) / 4)))
  else 0

/-- Offset bits 1:0 are ignored (R84). -/
def alignOffset (off : Nat) : Nat := off - off % 4

/-- The offset in the 4 KiB register port of an address of the platform, if it lies there (R23, R86; DEDUCED, log entry 15). -/
def State.portOffset (s : State) (addr : Word) : Option Nat :=
  if (addr - s.params.base).toNat < 0x1000 then some (addr - s.params.base).toNat else none

/-- A read of the register at an offset: its value, and the state with the free choice of a racing read drawn (R85, R297). -/
def State.readPort (off : Nat) (s : State) : Word × State :=
  (s.register s.viewSeen (alignOffset off), { s with raceDraws := s.raceDraws + s.busy.toNat })

/-- The byte a byte-addressed bus sees at an offset: lane j holds register bits 8j+7 down to 8j (R83). -/
def State.portByte (s : State) (off : Nat) : Byte :=
  (s.register s.viewNow (alignOffset off)).extractLsb' (8 * (off % 4)) 8

/-- The offsets of the registers that the host writes and that a running command protects (R143). -/
def writableOffset (off : Nat) : Bool :=
  off == 0x000 || off == 0x004 || off == 0x080 || off == 0x084 || off == 0x088 || off == 0x08C
    || (decide (0x0C0 ≤ off) && decide (off < 0x100))

/-- A write to a host-written register takes effect: every writable field at once, reserved bits ignored (R24, R26, R38 to R42,
R85). For CTRL this is a write with START = 0 (R140). -/
def Regs.write (off : Nat) (v : Word) (r : Regs) : Regs :=
  if off = 0x000 then { r with op := wordOp v, arg := wordArg v }
  else if off = 0x004 then { r with cfg := cfgOfWord v }
  else if off = 0x080 then { r with txMword := v.extractLsb' 0 16 }
  else if off = 0x084 then { r with txNw := v.extractLsb' 0 5 }
  else if off = 0x088 then { r with gapMin := v.extractLsb' 0 16, gapMax := v.extractLsb' 16 16 }
  else if off = 0x08C then { r with txChk := v.extractLsb' 0 8 }
  else if 0x0C0 ≤ off ∧ off < 0x100 then
    { r with txSword := r.txSword.setIfInBounds ((off - 0x0C0) / 4) (v.extractLsb' 0 16) }
  else r

/-- A write to the register at an offset that starts no command (R29, R48, R49, R140, R143). -/
def State.writePort (off : Nat) (v : Word) (s : State) : State :=
  if alignOffset off = 0x008 then s.writeStatus v
  else if writableOffset (alignOffset off) then
    if s.busy then { s with writeIgnored := true }
    else { s with regs := s.regs.write (alignOffset off) v }
  else s

/-- Whether a write is a START: to CTRL with bit 0 = 1 (R100, R140). -/
def isStart (off : Nat) (v : Word) : Bool := alignOffset off == 0x000 && wordStart v

/-- The reset input (R290, R292): every field takes its reset value, a running command is abandoned, a new input stream begins and
the output record starts empty. The table and the other parameters stay (R290(e)); what the host has read, what the outside world
does next, how many more samples the sink accepts and how many draws have been made are not the core's (DEDUCED, log entry 20). -/
def State.assertReset (s : State) : State :=
  { State.reset with
    data := { Data.reset.setLimit (s.data.tx.limit.map (· - s.data.tx.count)) with gapDraws := s.data.gapDraws }
    params := s.params, raceDraws := s.raceDraws, busReads := s.busReads, pending := s.pending }

/-- The sample a replay adapter makes of a capture byte: 0x02 is HIGH, any other value LOW (R78). -/
def captureLevel (b : Byte) : Level := b == 0x02

end Sys2Proof.Machine
end

