-- ==== Sys2Proof/Machine/Bus.lean ====
section
/-! DEFINITION. What one event of the outside world does: the host's accesses (R84 to R87), the two stream ports (R71, R79), reset. -/

namespace Sys2Proof.Machine

/-- The host's MemWrite(addr, 4, v). A write to CTRL with START = 1 is decoded and runs (R100, R140); any other write to the port
only changes registers; an address outside the port is not the core's (R86). -/
def hostWrite (addr v : Word) (s : State) : Host.Outcome State Fault Refusal :=
  match s.portOffset addr with
  | none => .next s
  | some off =>
    if isStart off v then
      match decode .command v with
      | .ok i => exec i s
      | .error _ => .next s
    else .next (s.writePort off v)

/-- The host's MemRead(addr, 4): the value goes to the host (R85); an address outside the port is not the core's (R86). -/
def hostRead (addr : Word) (s : State) : State :=
  match s.portOffset addr with
  | none => s
  | some off => { (s.readPort off).2 with busReads := (s.readPort off).1 :: s.busReads }

/-- One event of the outside world. -/
def handle (e : Event) (s : State) : Host.Outcome State Fault Refusal :=
  match e with
  | .write addr v => hostWrite addr v s
  | .read addr => .next (hostRead addr s)
  | .line f bits =>
    match f with
    | .command => .refused (.notALineElement f bits)
    | .lineSymbol | .lineBit | .lineDelimiter | .masterWord =>
      match decode f bits with
      | .ok i => exec i s
      | .error _ => .refused (.notALineElement f bits)
  | .sample v => .next (s.present [v])
  | .capture b => .next (s.present [captureLevel b])
  | .endOfInput => .next s.endInput
  | .sinkAccepts n => .next (s.setLimit (some (s.data.tx.count + n)))
  | .sinkAlways => .next (s.setLimit none)
  | .reset => .next s.assertReset

/-- The event that brings an instruction of the given layer to the core: a command comes by a write to CTRL, an element of the line
by the line. -/
def fetchEvent (base : Word) (f : Format) (bits : Word) : Event :=
  match f with
  | .command => .write base bits
  | .lineSymbol | .lineBit | .lineDelimiter | .masterWord => .line f bits

end Sys2Proof.Machine
end

