-- ==== Sys2Proof/Machine/Step.lean ====
section
/-! DEFINITION. One step: what the outside world does next happens, and the core does what that makes it do. -/

namespace Sys2Proof.Machine

/-- One step: the next event of the outside world, if there is one. An idle core, or a waiting one, that nothing reaches stays as
it is (R279, R301). -/
def step (s : State) : Host.Outcome State Fault Refusal :=
  match s.pending with
  | [] => .next s
  | e :: rest => handle e { s with pending := rest }

/-- `s` with a table row's instruction as the next thing the outside world does. -/
def State.withFetchWord (s : State) (nbits w : Nat) : State :=
  { s with pending := fetchEvent s.params.base (tableFormat nbits w) (BitVec.ofNat 32 w) :: s.pending }

end Sys2Proof.Machine
end

