-- ==== Sys2Proof/Safety.lean ====
section
/-! DEFINITION. The terms the claims use: waveforms of whole frames as spec/30_encoding.md lays them out, what a command's end or wait
leaves of the rest of the state, and the invariant of the machine. -/

namespace Sys2Proof.Machine

/-! ### Waveforms -/

/-- A list cut into pieces of the given lengths. -/
def splitBy {α : Type} : List Nat → List α → List (List α)
  | [], _ => []
  | m :: ms, xs => xs.take m :: splitBy ms (xs.drop m)

/-- The chunks of a frame part (R221). -/
def chunksOf (ws : List Half) : List (List Half) := splitBy (chunkSizes ws.length) ws

/-- The half-bit periods of a master frame (R112). -/
def halvesOfMasterFrame (w : Half) (chk : Byte) : List Level :=
  halvesOfStart true ++ halvesOfField w ++ halvesOfField chk ++ halvesOfSymbol .nl

/-- The half-bit periods of a chunk: its words, then its check byte (R114). -/
def halvesOfChunk (ch : List Half × Byte) : List Level := ch.1.flatMap halvesOfField ++ halvesOfField ch.2

/-- The half-bit periods of a slave frame of the given chunks (R114). -/
def halvesOfSlaveFrame (chs : List (List Half × Byte)) : List Level :=
  halvesOfStart false ++ chs.flatMap halvesOfChunk ++ halvesOfSymbol .nl

/-- The chunks of `ws`, each with the check byte the encoder sends for it (R224, R239). -/
def Ctx.checkedChunks (c : Ctx) (ws : List Half) : List (List Half × Byte) :=
  (chunksOf ws).map fun ch => (ch, c.checkGen ch)

/-- The levels the core will see: the presented samples, inverted if CFG.RX_INVERT is set (R72). -/
def State.levels (s : State) : List Level := s.data.rx.ahead.map s.ctx.levelOf

/-- The length in samples of `n` bit periods: 4·QS each (R14). -/
def State.bitPeriods (s : State) (n : Nat) : Nat := n * (4 * s.ctx.qs)

/-- The length in bit periods of a slave frame of `n` words (R114). -/
def slaveFrameLength (n : Nat) : Nat := 10 + 16 * n + 8 * chunkCount n

/-! ### What a command leaves alone -/

/-- From `s` to `t` a command with the given OP and ARG has ended with error `e`: STATUS says so, CTRL names the command, and every
register the host writes, every sticky flag, the parameters and the environment's own fields are as before (R140, R142). No datapath
state is left (R46; its idle value is a DESIGN CHOICE, log entry 4). -/
def EndedWith (s t : State) (op : BitVec 4) (arg : Nat) (e : ErrorCode) : Prop :=
  t.regs = { s.regs with op := op, arg := BitVec.ofNat 4 arg } ∧ t.busy = false ∧ t.done = true ∧ t.err = e
    ∧ t.cmdRejected = s.cmdRejected ∧ t.writeIgnored = s.writeIgnored ∧ t.params = s.params
    ∧ t.raceDraws = s.raceDraws ∧ t.busReads = s.busReads ∧ t.pending = s.pending
    ∧ t.data.dp = Datapath.idle ∧ t.data.seen = []

/-- From `s` to `t` a command with the given OP and ARG has started and waits (R140, R301). -/
def WaitsWith (s t : State) (op : BitVec 4) (arg : Nat) : Prop :=
  t.regs = { s.regs with op := op, arg := BitVec.ofNat 4 arg } ∧ t.busy = true ∧ t.done = false ∧ t.err = .none
    ∧ t.cmdRejected = s.cmdRejected ∧ t.writeIgnored = s.writeIgnored ∧ t.params = s.params
    ∧ t.raceDraws = s.raceDraws ∧ t.busReads = s.busReads ∧ t.pending = s.pending

/-- The result registers when START has cleared SKIPPED (R140). -/
def Results.started (r : Results) : Results := { r with skipped := false }

/-- The result registers after a Sync that reached Synced with the given role (R178, R179). -/
def Results.synced (kind : Bool) (r : Results) : Results :=
  { r with syncState := .synced, kind := kind, elem := 8, role := kind, roleValid := true }

/-- From `s` to `t` exactly `n` input samples are consumed, nothing is emitted and no gap is drawn (R70(a)). -/
def Consumed (n : Nat) (s t : State) : Prop :=
  t.data.rx = s.data.rx.consume n ∧ t.data.tx = s.data.tx ∧ t.data.gapDraws = s.data.gapDraws

/-- From `s` to `t` exactly the samples `xs` are emitted and nothing is consumed (R70(b), R79). -/
def Emitted (xs : List Level) (s t : State) : Prop :=
  t.data.rx = s.data.rx
    ∧ t.data.tx = { s.data.tx with count := s.data.tx.count + xs.length, out := s.data.tx.out ++ xs }

/-- `e` is where a bit read from here finds its edge: the least index from QS on whose level differs from the one at QS (R154). -/
def State.edgeAt (s : State) (e : Nat) : Prop :=
  s.ctx.qs ≤ e ∧ ∃ v, s.levels[s.ctx.qs]? = some v ∧ s.levels[e]? = some (!v)
    ∧ ∀ i, s.ctx.qs ≤ i → i < e → s.levels[i]? = some v

/-- An element that is read as the wanted one is, and does not match it (R106, R176). -/
def Element.misses (want got : Element) : Bool :=
  match want, got with
  | .sym x, .sym y => !(x == y)
  | .bit a, .bit b => !(a == b)
  | .sym _, .bit _ => false
  | .bit _, .sym _ => false

/-- The opcode and the ARG of a command row; a row of a line layer has none (R101, R103). -/
def commandParts (i : Instr) : Option (BitVec 4 × Nat) :=
  match i with
  | .nop a => some (0x0, a)
  | .decSymbol a => some (0x1, a)
  | .decBit a => some (0x2, a)
  | .sync a => some (0x3, a)
  | .rdMaster a => some (0x4, a)
  | .rdSlave a => some (0x5, a)
  | .rdTelegram a => some (0x6, a)
  | .illegalOp7 a => some (0x7, a)
  | .encSymbol a => some (0x8, a)
  | .encBit a => some (0x9, a)
  | .encMaster a => some (0xA, a)
  | .encSlave a => some (0xB, a)
  | .encTelegram a => some (0xC, a)
  | .illegalOpD a => some (0xD, a)
  | .illegalOpE a => some (0xE, a)
  | .illegalOpF a => some (0xF, a)
  | .symNl | .symZero | .symOne | .symNh | .bit0 | .bit1 | .startMaster | .startSlave | .endDelim
  | .mwordFc0 _ | .mwordFc1 _ | .mwordFc2 _ | .mwordFc3 _ | .mwordFc4 _ | .mwordFc5 _ | .mwordFc6 _ | .mwordFc7 _
  | .mwordFc8 _ | .mwordFc9 _ | .mwordFc10 _ | .mwordFc11 _ | .mwordFc12 _ | .mwordFc13 _ | .mwordFc14 _
  | .mwordFc15 _ => none

/-- Instructions one after the other, as long as each gives a next state. -/
def execAll : List Instr → State → Host.Outcome State Fault Refusal
  | [], s => .next s
  | i :: is, s =>
    match exec i s with
    | .next t => execAll is t
    | .fault f => .fault f
    | .refused r => .refused r

/-- The row of the table that carries a data bit (R105). -/
def bitRow (b : Bool) : Instr := if b then .bit1 else .bit0

/-! ### The register port -/

/-- The offsets that hold a register (R23). -/
def mappedOffsets : List Nat :=
  [0x000, 0x004, 0x008, 0x00C, 0x010, 0x014, 0x018, 0x01C, 0x020, 0x024, 0x028, 0x02C, 0x030]
    ++ (List.range 16).map (0x040 + 4 * ·) ++ [0x080, 0x084, 0x088, 0x08C]
    ++ (List.range 16).map (0x0C0 + 4 * ·) ++ (List.range 16).map (0x100 + 4 * ·)

/-- The bits of each RW register that a write sets and a read returns (R24, R26, R38 to R42); START is no such bit. -/
def writableMask (off : Nat) : Option Word :=
  if off = 0x000 then some 0x0000F0F0
  else if off = 0x004 then some 0x00000FFF
  else if off = 0x080 then some 0x0000FFFF
  else if off = 0x084 then some 0x0000001F
  else if off = 0x088 then some 0xFFFFFFFF
  else if off = 0x08C then some 0x000000FF
  else if 0x0C0 ≤ off ∧ off < 0x100 ∧ off % 4 = 0 then some 0x0000FFFF
  else none

/-- The registers, by aligned offset, that a command may change; the rows of the line layers change RX_POS and what a waiting
command writes, and are not listed here. -/
def writtenOffsets (i : Instr) : List Nat :=
  match i with
  | .nop _ | .illegalOp7 _ | .illegalOpD _ | .illegalOpE _ | .illegalOpF _ => [0x000, 0x008]
  | .decSymbol _ | .decBit _ => [0x000, 0x008, 0x010, 0x018]
  | .sync _ => [0x000, 0x008, 0x00C, 0x010]
  | .rdMaster _ => [0x000, 0x008, 0x00C, 0x010, 0x01C]
  | .rdSlave _ => [0x000, 0x008, 0x00C, 0x010, 0x020, 0x024, 0x028, 0x02C, 0x030] ++ (List.range 16).map (0x040 + 4 * ·)
  | .rdTelegram _ =>
    [0x000, 0x008, 0x00C, 0x010, 0x01C, 0x020, 0x024, 0x028, 0x02C, 0x030] ++ (List.range 16).map (0x040 + 4 * ·)
  | .encSymbol _ | .encBit _ | .encMaster _ | .encSlave _ | .encTelegram _ => [0x000, 0x008, 0x014]
  | .symNl | .symZero | .symOne | .symNh | .bit0 | .bit1 | .startMaster | .startSlave | .endDelim
  | .mwordFc0 _ | .mwordFc1 _ | .mwordFc2 _ | .mwordFc3 _ | .mwordFc4 _ | .mwordFc5 _ | .mwordFc6 _ | .mwordFc7 _
  | .mwordFc8 _ | .mwordFc9 _ | .mwordFc10 _ | .mwordFc11 _ | .mwordFc12 _ | .mwordFc13 _ | .mwordFc14 _
  | .mwordFc15 _ => []

/-! ### The invariant -/

/-- A function-code table entry satisfies R190. -/
def FctEntry.ok (e : FctEntry) : Bool :=
  (e.size == 0 || e.size == 16 || e.size == 32 || e.size == 64 || e.size == 128 || e.size == 256)
    && (!(e.reqKind == .reserved) || (e.size == 0 && e.respKind == .none))

/-- The function-code table satisfies R190. -/
def Params.fctOk (p : Params) : Bool := p.fct.toList.all FctEntry.ok

/-- The result registers hold values their fields can show (R16(e), R30, R35), and ROLE is valid exactly in Synced (R179). -/
def Results.ok (r : Results) : Prop :=
  r.elem.toNat ≤ 8 ∧ r.count.toNat ≤ r.expected.toNat ∧ r.expected.toNat ≤ 16 ∧ r.chunks.toNat ≤ 4
    ∧ (r.roleValid = true ↔ r.syncState = .synced) ∧ (r.roleValid = true → r.role = r.kind ∧ r.elem = 8)

/-- The output count counts the output record, and the sink has accepted no more than it accepts (R44, R79). -/
def TxPort.ok (t : TxPort) : Prop := t.count = t.out.length ∧ ∀ lim, t.limit = some lim → t.count ≤ lim

/-- A running command: STATUS is as START left it (R140), its start checks passed (R149), and the data is what its body has done
with the data it started from (R141). -/
def RunningOk (s : State) (r : Running) : Prop :=
  s.done = false ∧ s.err = .none ∧ startCheck s.regs = none
    ∧ r.start.res.ok ∧ r.start.tx.ok ∧ r.start.seen = [r.start.res] ∧ r.start.res.skipped = false
    ∧ commandBody s.regs.op s.ctx r.start = .waiting r.wait s.data

/-- The invariant of the machine. -/
def Inv (s : State) : Prop :=
  s.params.fctOk = true ∧ s.data.res.ok ∧ s.data.tx.ok
    ∧ (s.running = none → s.data.seen = [] ∧ s.data.dp = Datapath.idle)
    ∧ ∀ r, s.running = some r → RunningOk s r

end Sys2Proof.Machine
end

