-- ==== Sys2Proof/Certificates/Slice0/Obligations.lean ====
section
/-! DEFINITION. The statements for the provers. An idle core is one with `running = none` (R45). The levels of a state are the
presented samples as the core sees them, after CFG.RX_INVERT (R72). -/

section Statements

open Sys2Proof Sys2Proof.Machine

/-! ### Encodings -/

/-- Every well-formed instruction, encoded, decodes to itself, as a word and as the four bytes of that word. -/
def Obligations.EncodedInstructionsDecodeBack : Prop :=
  ∀ i : Instr, i.wf = true →
    decode i.format (encode i) = .ok i ∧ decodeBytes i.format (bytesOfWord 4 (encode i)) = .ok i

/-- In the layers of the line, a word is decoded to an instruction exactly when it is that instruction's encoding: no other bit
pattern is accepted and no two instructions of a layer share one (R104, R105, R108, R109, R111, R113). -/
def Obligations.LineDecodingIsExact : Prop :=
  ∀ (f : Format) (w : Word) (i : Instr), f ≠ .command →
    (decode f w = .ok i ↔ i.wf = true ∧ i.format = f ∧ encode i = w)

/-- R100: a write to CTRL with bit 0 = 1 runs the command whose opcode is bits 7:4 with operand bits 15:12, and bits 3:1, 11:8 and
31:16 of the written value change nothing. -/
def Obligations.CtrlWriteStartsTheNamedCommand : Prop :=
  ∀ (s : State) (addr w : Word) (off : Nat), s.portOffset addr = some off → alignOffset off = 0x000 →
    (w.getLsbD 0 = true →
      ∃ i, commandParts i = some (w.extractLsb' 4 4, (w.extractLsb' 12 4).toNat) ∧ hostWrite addr w s = exec i s)
    ∧ ∀ w' : Word, w' &&& 0x0000F0F1#32 = w &&& 0x0000F0F1#32 → hostWrite addr w' s = hostWrite addr w s

/-- Words written out from the tables of spec/30_encoding.md decode to the instruction they stand for. -/
def Obligations.SampleWordsDecode : Prop :=
  decode .command 0x00000001#32 = .ok (.nop 0) ∧ decode .command 0x00003051#32 = .ok (.rdSlave 3)
    ∧ decode .command 0x00003081#32 = .ok (.encSymbol 3) ∧ decode .command 0x000000D1#32 = .ok (.illegalOpD 0)
    ∧ decode .command 0x00000040#32 = .error .noStart
    ∧ decode .lineSymbol 0b10#32 = .ok .symOne ∧ decode .lineBit 0b10#32 = .ok .bit1
    ∧ decode .lineDelimiter 0b101100011100010101#32 = .ok .startMaster
    ∧ decode .lineDelimiter 0b101010100011100011#32 = .ok .startSlave
    ∧ decode .masterWord 0x0123#32 = .ok (.mwordFc0 0x123) ∧ decode .masterWord 0xF456#32 = .ok (.mwordFc15 0x456)

/-- R104: the four symbols, their half-period levels and their codes correspond one to one. -/
def Obligations.SymbolCodesAreABijection : Prop :=
  symbolHalves .nl = (LOW, LOW) ∧ symbolHalves .zero = (LOW, HIGH) ∧ symbolHalves .one = (HIGH, LOW)
    ∧ symbolHalves .nh = (HIGH, HIGH)
    ∧ (∀ x : Symbol, symbolCode x = BitVec.ofBool (symbolHalves x).1 ++ BitVec.ofBool (symbolHalves x).2
        ∧ symbolOfCode (symbolCode x) = x ∧ symbolOfHalves (symbolHalves x).1 (symbolHalves x).2 = x)
    ∧ (∀ v : BitVec 2, symbolCode (symbolOfCode v) = v) ∧ ∀ a b : Level, symbolHalves (symbolOfHalves a b) = (a, b)

/-- R113: the function code is the top 4 bits of a master word, the address its low 12 bits, and every 16-bit value is a valid
master word. -/
def Obligations.MasterWordFields : Prop :=
  ∀ w : Half, (wordFcode w).toNat = w.toNat / 4096 ∧ (wordAddr w).toNat = w.toNat % 4096
    ∧ masterWord (wordFcode w) (wordAddr w) = w
    ∧ ∃ i, decode .masterWord (w.setWidth 32) = .ok i ∧ i.wf = true ∧ encode i = w.setWidth 32

/-! ### The life of a command -/

/-- R146: NOP completes in every configuration, QS = 0 included; it moves neither stream, clears SKIPPED and changes no other result
register. From reset it leaves STATUS = 2. -/
def Obligations.NopCompletes : Prop :=
  (∀ (s : State) (arg : Nat), s.running = none →
    ∃ t, exec (.nop arg) s = .next t ∧ EndedWith s t 0x0 arg .none ∧ Consumed 0 s t ∧ t.data.res = s.data.res.started)
    ∧ ∃ t, exec (.nop 0) State.reset = .next t ∧ t.status = 0x00000002

/-- R144: a command with an illegal opcode (0x7, 0xD, 0xE, 0xF) ends at once with ILLEGAL_COMMAND, whatever the configuration; it
moves neither stream and writes nothing but what START and the end write. -/
def Obligations.IllegalOpcodesEndTheCommand : Prop :=
  ∀ (s : State) (arg : Nat), s.running = none →
    ∀ p ∈ [(Instr.illegalOp7 arg, 0x7#4), (.illegalOpD arg, 0xD#4), (.illegalOpE arg, 0xE#4), (.illegalOpF arg, 0xF#4)],
      ∃ t, exec p.1 s = .next t ∧ EndedWith s t p.2 arg .illegalCommand ∧ Consumed 0 s t
        ∧ t.data.res = s.data.res.started

/-- R145: a command that is not NOP and whose opcode is legal ends at once with ILLEGAL_CONFIG when QS = 0, ENC_SLAVE also when
TX_NW.COUNT > 16, and ENC_TELEGRAM also when MIN > MAX; it moves neither stream and writes nothing but what START and the end
write. -/
def Obligations.IllegalConfigurationEndsTheCommand : Prop :=
  ∀ (i : Instr) (op : BitVec 4) (arg : Nat) (s : State), commandParts i = some (op, arg) → s.running = none →
    op ∉ [0x0#4, 0x7#4, 0xD#4, 0xE#4, 0xF#4] →
    s.regs.cfg.qs = 0 ∨ (op = 0xB ∧ 16 < s.regs.txNw.toNat) ∨ (op = 0xC ∧ s.regs.gapMax.toNat < s.regs.gapMin.toNat) →
    ∃ t, exec i s = .next t ∧ EndedWith s t op arg .illegalConfig ∧ Consumed 0 s t ∧ t.data.res = s.data.res.started

/-- A START that finds a command running is refused: each of the sixteen opcodes then sets CMD_REJECTED and WRITE_IGNORED and
changes nothing else (R143, R268). -/
def Obligations.BusyCommandsAreRejected : Prop :=
  ∀ (i : Instr) (op : BitVec 4) (arg : Nat) (s : State), commandParts i = some (op, arg) → s.busy = true →
    exec i s = .next { s with cmdRejected := true, writeIgnored := true }

/-- R143: while a command runs, a write to a writable register changes nothing but WRITE_IGNORED, a START also sets CMD_REJECTED, and
STATUS is written as always. -/
def Obligations.BusyWritesAreIgnored : Prop :=
  ∀ (s : State) (addr v : Word) (off : Nat), s.busy = true → s.portOffset addr = some off →
    ((writableMask (alignOffset off)).isSome = true →
      hostWrite addr v s = .next { s with
        writeIgnored := true
        cmdRejected := s.cmdRejected || (alignOffset off == 0x000 && v.getLsbD 0) })
    ∧ (alignOffset off = 0x008 →
      hostWrite addr v s = .next { s with
        done := s.done && !v.getLsbD 1
        cmdRejected := s.cmdRejected && !v.getLsbD 16
        writeIgnored := s.writeIgnored && !v.getLsbD 17 })

/-- Every accepted START ends or waits, and either way STATUS, CTRL and everything the command does not write are as R140 and R142
say: CTRL names the command, ERR, DONE and BUSY tell its state, and the host-written registers, the sticky flags, the parameters and
the environment's own fields are as before. -/
def Obligations.EveryAcceptedCommandEndsOrWaits : Prop :=
  ∀ (i : Instr) (op : BitVec 4) (arg : Nat) (s : State), commandParts i = some (op, arg) → s.running = none →
    ∃ t, exec i s = .next t ∧ ((∃ e, EndedWith s t op arg e) ∨ WaitsWith s t op arg)

/-- Every instruction, every register write and every register read answers a next state (R84, R269). A step answers a next state too,
but for one event: a line event whose bits no row of its layer has, which is the model's own refusal and no instruction (log entry
16). -/
def Obligations.NothingStopsTheCore : Prop :=
  (∀ (i : Instr) (s : State), ∃ t, exec i s = .next t)
    ∧ (∀ (addr v : Word) (s : State), ∃ t, handle (.write addr v) s = .next t)
    ∧ (∀ (addr : Word) (s : State), ∃ t, handle (.read addr) s = .next t)
    ∧ ∀ s : State, (∃ t, step s = .next t)
      ∨ ∃ (f : Format) (w : Word) (rest : List Event), s.pending = .line f w :: rest
          ∧ (f = .command ∨ ∀ i, decode f w ≠ .ok i) ∧ step s = .refused (.notALineElement f w)

/-! ### The register port -/

/-- A write to an RW register of an idle core sets every writable field at once and ignores the reserved bits, the register then reads
back what was written, and no other register changes (R24 to R26, R38 to R42, R85). For CTRL this is a write with START = 0 (R140). -/
def Obligations.WritableRegistersReadBack : Prop :=
  ∀ (s : State) (addr v m : Word) (off : Nat), s.portOffset addr = some off → s.running = none →
    writableMask (alignOffset off) = some m → (alignOffset off = 0x000 → v.getLsbD 0 = false) →
    ∃ t, hostWrite addr v s = .next t ∧ t = { s with regs := t.regs }
      ∧ t.register t.viewNow (alignOffset off) = v &&& m
      ∧ ∀ off' : Nat, off' < 0x1000 → off' % 4 = 0 → off' ≠ alignOffset off →
          t.register t.viewNow off' = s.register s.viewNow off'

/-- R29: a write to STATUS clears DONE, CMD_REJECTED and WRITE_IGNORED where the written bit is 1, and changes nothing else,
whether or not a command runs. -/
def Obligations.StatusWriteClearsOnlyItsBits : Prop :=
  ∀ (s : State) (addr v : Word) (off : Nat), s.portOffset addr = some off → alignOffset off = 0x008 →
    ∃ t, hostWrite addr v s = .next t ∧ t.status = s.status &&& ~~~(v &&& 0x00030002#32)
      ∧ t = { s with done := t.done, cmdRejected := t.cmdRejected, writeIgnored := t.writeIgnored }

/-- R48: an offset that holds no register reads 0 and ignores writes, without a flag or an error, whether or not a command runs; and
a write to a read-only register changes nothing either (R49). -/
def Obligations.ReservedAndReadOnlyOffsetsIgnoreWrites : Prop :=
  ∀ (s : State) (addr v : Word) (off : Nat), s.portOffset addr = some off →
    (alignOffset off ∉ mappedOffsets → ∀ w : View, s.register w (alignOffset off) = 0)
    ∧ (alignOffset off ≠ 0x008 → writableMask (alignOffset off) = none → hostWrite addr v s = .next s)

/-- A read of an idle core's port gives the host the register as it stands, whatever the address bits 1:0 are, and changes nothing
(R84, R85, R88). An address outside the 4 KiB port is not the core's, so that a read or a write there has no effect: the model's
reading, DEDUCED (log entry 15). -/
def Obligations.IdleReadsHaveNoEffect : Prop :=
  ∀ (s : State) (addr : Word), s.running = none →
    (∀ off, s.portOffset addr = some off →
      hostRead addr s = { s with busReads := s.register s.viewNow (off - off % 4) :: s.busReads })
    ∧ (s.portOffset addr = none → hostRead addr s = s ∧ ∀ v, hostWrite addr v s = .next s)

/-- R297: a read of the port while a command runs returns a value the register has held at some point between the START and the
read: the result registers as one of the write points left them, RX_POS and TX_POS between their values at the START and now. Which
one is free: the statement holds for every draw. It changes nothing but the count of those draws. -/
def Obligations.BusyReadsReturnAHeldValue : Prop :=
  ∀ (s : State) (r : Running) (addr : Word) (off : Nat), Inv s → s.running = some r → s.portOffset addr = some off →
    ∃ v : View, v.res ∈ s.data.seen ∧ r.start.rx.pos ≤ v.pos ∧ v.pos ≤ s.data.rx.pos
      ∧ r.start.tx.count ≤ v.count ∧ v.count ≤ s.data.tx.count
      ∧ hostRead addr s
          = { s with busReads := s.register v (alignOffset off) :: s.busReads, raceDraws := s.raceDraws + 1 }

/-- The interrupt output is DONE and IE as the host reads them; it is high after a command has ended exactly when IE is set and low
while one waits; and the two writes that clear it do (R270). -/
def Obligations.InterruptFollowsDone : Prop :=
  (∀ s : State, s.irq = ((s.register s.viewNow 0x008).getLsbD 1 && (s.register s.viewNow 0x004).getLsbD 11))
    ∧ (∀ (i : Instr) (op : BitVec 4) (arg : Nat) (s t : State), commandParts i = some (op, arg) → s.running = none →
        exec i s = .next t → t.irq = (t.running.isNone && s.regs.cfg.ie))
    ∧ (∀ (s : State) (addr v : Word) (off : Nat), s.portOffset addr = some off → alignOffset off = 0x008 →
        v.getLsbD 1 = true → ∃ t, hostWrite addr v s = .next t ∧ t.irq = false)
    ∧ ∀ (s : State) (addr v : Word) (off : Nat), s.portOffset addr = some off → alignOffset off = 0x004 → s.running = none →
        v.getLsbD 11 = false → ∃ t, hostWrite addr v s = .next t ∧ t.irq = false

/-! ### Symbols and bits read -/

/-- R151: DEC_SYMBOL reads the levels at QS and 3·QS from the position, and no others, and consumes exactly 4·QS samples; where fewer
than 4·QS samples follow it consumes them all and ends with EndOfSignal if the stream has ended. If the stream has not ended it waits
(R73), every presented sample consumed: DEDUCED from R71 (log entry 14). -/
def Obligations.DecSymbolRuns : Prop :=
  ∀ (s : State) (arg : Nat), s.running = none → 0 < s.ctx.qs →
    (4 * s.ctx.qs ≤ s.data.rx.ahead.length →
      ∃ t a b, exec (.decSymbol arg) s = .next t ∧ s.levels[s.ctx.qs]? = some a ∧ s.levels[3 * s.ctx.qs]? = some b
        ∧ EndedWith s t 0x1 arg .none ∧ Consumed (4 * s.ctx.qs) s t
        ∧ t.data.res = { s.data.res.started with sym := symbolOfHalves a b })
    ∧ (s.data.rx.ahead.length < 4 * s.ctx.qs → s.data.rx.ended = true →
      ∃ t, exec (.decSymbol arg) s = .next t ∧ EndedWith s t 0x1 arg .endOfSignal
        ∧ Consumed s.data.rx.ahead.length s t ∧ t.data.res = s.data.res.started)
    ∧ (s.data.rx.ahead.length < 4 * s.ctx.qs → s.data.rx.ended = false →
      ∃ t, exec (.decSymbol arg) s = .next t ∧ WaitsWith s t 0x1 arg
        ∧ Consumed s.data.rx.ahead.length s t ∧ t.data.res = s.data.res.started)

/-- R154: DEC_BIT returns the level at QS from the position and ends two quarter-periods after the edge it finds, wherever that edge
lies; where there is no such edge, or fewer than 2·QS samples from it on, it consumes every sample and ends with EndOfSignal if the
stream has ended. If the stream has not ended it waits (R73), every presented sample consumed: DEDUCED from R71 (log entry 14). -/
def Obligations.DecBitRuns : Prop :=
  ∀ (s : State) (arg : Nat), s.running = none → 0 < s.ctx.qs →
    (∀ e, s.edgeAt e → e + 2 * s.ctx.qs ≤ s.data.rx.ahead.length →
      ∃ t v, exec (.decBit arg) s = .next t ∧ s.levels[s.ctx.qs]? = some v ∧ EndedWith s t 0x2 arg .none
        ∧ Consumed (e + 2 * s.ctx.qs) s t ∧ t.data.res = { s.data.res.started with bit := v })
    ∧ ((∀ e, s.edgeAt e → s.data.rx.ahead.length < e + 2 * s.ctx.qs) → s.data.rx.ended = true →
      ∃ t, exec (.decBit arg) s = .next t ∧ EndedWith s t 0x2 arg .endOfSignal
        ∧ Consumed s.data.rx.ahead.length s t ∧ t.data.res = s.data.res.started)
    ∧ ((∀ e, s.edgeAt e → s.data.rx.ahead.length < e + 2 * s.ctx.qs) → s.data.rx.ended = false →
      ∃ t, exec (.decBit arg) s = .next t ∧ WaitsWith s t 0x2 arg
        ∧ Consumed s.data.rx.ahead.length s t ∧ t.data.res = s.data.res.started)

/-- R161: decoding the samples the encoder emits for a symbol or a bit gives back the symbol or the bit and consumes exactly those
samples, for every QS ≥ 1 and whatever follows. -/
def Obligations.DecodingInvertsEncoding : Prop :=
  ∀ (c : Ctx) (d : Data), 0 < c.qs → d.tx.limit = none →
    (∀ x : Symbol, ∃ xs d', encodeSymbol c x d = .ok () d' ∧ d'.tx.out = d.tx.out ++ xs ∧ xs.length = 4 * c.qs
      ∧ ∀ (e : Data) (rest : List Level), e.rx.ahead.map c.levelOf = xs ++ rest →
          decodeSymbol c e = .ok x (e.consume (4 * c.qs)))
    ∧ ∀ b : Bool, ∃ xs d', encodeBit c b d = .ok () d' ∧ d'.tx.out = d.tx.out ++ xs ∧ xs.length = 4 * c.qs
      ∧ ∀ (e : Data) (rest : List Level), e.rx.ahead.map c.levelOf = xs ++ rest →
          decodeBit c e = .ok b (e.consume (4 * c.qs))

/-! ### Synchronization -/

/-- R180, R181: after any number of samples at one level, SYNC reads a correctly timed start bit and start delimiter of either role,
selects that role, and consumes the samples before the start bit and exactly 36·QS samples from it on. -/
def Obligations.SyncReadsATimedStart : Prop :=
  ∀ (s : State) (arg k : Nat) (v : Level) (kind : Bool) (rest : List Level), s.running = none → 0 < s.ctx.qs →
    s.levels = List.replicate k v ++ samplesOfHalves s.ctx.qs (halvesOfStart kind) ++ rest →
    ∃ t, exec (.sync arg) s = .next t ∧ EndedWith s t 0x3 arg .none ∧ Consumed (k + 36 * s.ctx.qs) s t
      ∧ t.data.res = s.data.res.started.synced kind

/-- The first delimiter element that does not match ends SYNC, RD_MASTER, RD_SLAVE or RD_TELEGRAM with InvalidStartDelimiter at once,
whichever role the elements before it began (R174, R176, R178, R194, R199, R266(c)): no later element is read, the position is just
after that element, SYNC_STATE keeps how many elements matched, and nothing else is written but the RX_SCNT that RD_SLAVE begins
with (R201). -/
def Obligations.SyncStopsAtTheFirstMismatch : Prop :=
  ∀ (s : State) (arg k j : Nat) (v : Level) (kind : Bool) (want got : Element) (rest : List Level),
    s.running = none → 0 < s.ctx.qs → (delimiterOf kind)[j]? = some want → Element.misses want got = true →
    (j = 0 → got = .sym .zero ∨ got = .sym .nl) →
    s.levels = List.replicate k v ++ samplesOfHalves s.ctx.qs
      (halvesOfBit true ++ ((delimiterOf kind).take j).flatMap halvesOfElement ++ halvesOfElement got) ++ rest →
    ∀ p ∈ [(Instr.sync arg, 0x3#4, s.data.res.started), (.rdMaster arg, 0x4#4, s.data.res.started),
        (.rdSlave arg, 0x5#4, { s.data.res.started with
          count := 0, expected := BitVec.ofNat 5 (s.ctx.words (BitVec.ofNat 4 arg)), chunks := 0 }),
        (.rdTelegram arg, 0x6#4, s.data.res.started)],
      ∃ t, exec p.1 s = .next t ∧ EndedWith s t p.2.1 arg .invalidStartDelimiter
        ∧ Consumed (k + (j + 2) * (4 * s.ctx.qs)) s t
        ∧ t.data.res = { p.2.2 with
            syncState := .error, kind := decide (0 < j) && kind, elem := BitVec.ofNat 4 j, roleValid := false }

/-- A SYNC that has ended with an error leaves SYNC_STATE in Error, ROLE_VALID 0 and ROLE as it was; one that waits has ROLE_VALID 0
too; and one that has ended without error is in Synced with ROLE the role it found (R170, R178, R179). -/
def Obligations.SyncOutcomeIsRecorded : Prop :=
  ∀ (s t : State) (arg : Nat), s.running = none → 0 < s.ctx.qs → exec (.sync arg) s = .next t →
    (t.running = none → t.err ≠ .none →
      t.data.res.syncState = .error ∧ t.data.res.roleValid = false ∧ t.data.res.role = s.data.res.role)
    ∧ (t.running = none → t.err = .none →
      t.data.res.syncState = .synced ∧ t.data.res.roleValid = true ∧ t.data.res.role = t.data.res.kind ∧ t.data.res.elem = 8)
    ∧ (t.running.isSome = true →
      t.data.res.roleValid = false ∧ t.data.res.role = s.data.res.role ∧ t.data.res.syncState ≠ .synced
        ∧ t.data.res.syncState ≠ .error)

/-- R262: a decode command that ends with EndOfSignal has consumed every sample of a stream that has ended; and run at the end of
the stream every decode command ends so, having consumed nothing and written only what its pseudocode writes before its first stream
step. -/
def Obligations.EndOfSignalMeansExhausted : Prop :=
  ∀ (s : State) (arg : Nat), s.running = none →
    (∀ i ∈ [Instr.decSymbol arg, .decBit arg, .sync arg, .rdMaster arg, .rdSlave arg, .rdTelegram arg],
      ∀ t, exec i s = .next t → t.running = none → t.err = .endOfSignal →
        s.data.rx.ended = true ∧ Consumed s.data.rx.ahead.length s t)
    ∧ (0 < s.ctx.qs → s.data.rx.ended = true → s.data.rx.ahead = [] →
      ∀ p ∈ [(Instr.decSymbol arg, 0x1#4, s.data.res.started), (.decBit arg, 0x2#4, s.data.res.started),
          (.sync arg, 0x3#4, { s.data.res.started with syncState := .error, kind := false, elem := 0, roleValid := false }),
          (.rdMaster arg, 0x4#4, { s.data.res.started with syncState := .error, kind := false, elem := 0, roleValid := false }),
          (.rdSlave arg, 0x5#4, { s.data.res.started with
            syncState := .error, kind := false, elem := 0, roleValid := false
            count := 0, expected := BitVec.ofNat 5 (s.ctx.words (BitVec.ofNat 4 arg)), chunks := 0 }),
          (.rdTelegram arg, 0x6#4,
            { s.data.res.started with syncState := .error, kind := false, elem := 0, roleValid := false })],
        ∃ t, exec p.1 s = .next t ∧ EndedWith s t p.2.1 arg .endOfSignal ∧ Consumed 0 s t ∧ t.data.res = p.2.2)

/-! ### Frames read -/

/-- R195: RD_MASTER reads a correctly timed master frame whose check byte CheckValid accepts: it ends without error, RX_MWORD holds
the word and the check byte, and it has consumed the samples before the frame and exactly the frame's 136·QS samples. -/
def Obligations.RdMasterReadsAMasterFrame : Prop :=
  ∀ (s : State) (arg k : Nat) (v : Level) (w : Half) (chk : Byte) (rest : List Level), s.running = none → 0 < s.ctx.qs →
    s.levels = List.replicate k v ++ samplesOfHalves s.ctx.qs (halvesOfMasterFrame w chk) ++ rest →
    s.ctx.checkValid [w] chk = true →
    ∃ t, exec (.rdMaster arg) s = .next t ∧ EndedWith s t 0x4 arg .none ∧ Consumed (k + 136 * s.ctx.qs) s t
      ∧ t.data.res = { s.data.res.started.synced true with mword := w, mchk := chk }

/-- RD_MASTER ends with UnexpectedRole after a slave start delimiter; with CheckSequenceMismatch right after a check byte that
CheckValid rejects, keeping the word and the byte; and with InvalidEndDelimiter after an end symbol that is not NL, keeping them too
(R193, R194, R222, R227). -/
def Obligations.RdMasterErrors : Prop :=
  ∀ (s : State) (arg k : Nat) (v : Level) (w : Half) (chk : Byte) (rest : List Level), s.running = none → 0 < s.ctx.qs →
    (s.levels = List.replicate k v ++ samplesOfHalves s.ctx.qs (halvesOfStart false) ++ rest →
      ∃ t, exec (.rdMaster arg) s = .next t ∧ EndedWith s t 0x4 arg .unexpectedRole ∧ Consumed (k + 36 * s.ctx.qs) s t
        ∧ t.data.res = s.data.res.started.synced false)
    ∧ (s.levels = List.replicate k v
          ++ samplesOfHalves s.ctx.qs (halvesOfStart true ++ halvesOfField w ++ halvesOfField chk) ++ rest →
      s.ctx.checkValid [w] chk = false →
      ∃ t, exec (.rdMaster arg) s = .next t ∧ EndedWith s t 0x4 arg .checkSequenceMismatch
        ∧ Consumed (k + 132 * s.ctx.qs) s t
        ∧ t.data.res = { s.data.res.started.synced true with mword := w, mchk := chk })
    ∧ (∀ x : Symbol, x ≠ .nl →
      s.levels = List.replicate k v ++ samplesOfHalves s.ctx.qs
          (halvesOfStart true ++ halvesOfField w ++ halvesOfField chk ++ halvesOfSymbol x) ++ rest →
      s.ctx.checkValid [w] chk = true →
      ∃ t, exec (.rdMaster arg) s = .next t ∧ EndedWith s t 0x4 arg .invalidEndDelimiter
        ∧ Consumed (k + 136 * s.ctx.qs) s t
        ∧ t.data.res = { s.data.res.started.synced true with mword := w, mchk := chk })

/-- R203: RD_SLAVE reads a correctly timed slave frame of the n words its function code calls for, in chunks whose check bytes
CheckValid accepts: it ends without error, the words are in RX_SWORD and the check bytes in RX_SCHK in the order received, the words
and check bytes beyond them keep their values, RX_SCNT counts them, and it has consumed the samples before the frame and exactly the
frame's (10 + 16·n + 8·⌈n/4⌉)·4·QS samples. CFG.SLAVE_POLICY does not matter. -/
def Obligations.RdSlaveReadsASlaveFrame : Prop :=
  ∀ (s : State) (arg k n : Nat) (v : Level) (chs : List (List Half × Byte)) (rest : List Level),
    s.running = none → 0 < s.ctx.qs → n = s.ctx.words (BitVec.ofNat 4 arg) → n ≤ 16 →
    (chs.map fun ch => ch.1.length) = chunkSizes n → (∀ ch ∈ chs, s.ctx.checkValid ch.1 ch.2 = true) →
    s.levels = List.replicate k v ++ samplesOfHalves s.ctx.qs (halvesOfSlaveFrame chs) ++ rest →
    ∃ t, exec (.rdSlave arg) s = .next t ∧ EndedWith s t 0x5 arg .none
      ∧ Consumed (k + (10 + 16 * n + 8 * ((n + 3) / 4)) * (4 * s.ctx.qs)) s t
      ∧ t.data.res = { s.data.res.started.synced false with
          count := BitVec.ofNat 5 n, expected := BitVec.ofNat 5 n, chunks := BitVec.ofNat 3 ((n + 3) / 4)
          sword := t.data.res.sword, schk := t.data.res.schk }
      ∧ (∀ j < 16, t.data.res.sword[j]? = if j < n then (chs.flatMap (·.1))[j]? else s.data.res.sword[j]?)
      ∧ ∀ j < 4, t.data.res.schk[j]? = if j < chs.length then (chs.map (·.2))[j]? else s.data.res.schk[j]?

/-- RD_SLAVE ends with UnexpectedRole after a master start delimiter, RX_SCNT already set; with CheckSequenceMismatch right after the
first check byte CheckValid rejects, keeping the words and check bytes up to it and reading nothing more; and with InvalidEndDelimiter
after an end symbol that is not NL, everything stored (R198, R199, R201, R222, R227). -/
def Obligations.RdSlaveErrors : Prop :=
  ∀ (s : State) (arg k n : Nat) (v : Level) (good : List (List Half × Byte)) (rest : List Level),
    s.running = none → 0 < s.ctx.qs → n = s.ctx.words (BitVec.ofNat 4 arg) → n ≤ 16 →
    (∀ ch ∈ good, s.ctx.checkValid ch.1 ch.2 = true) →
    (s.levels = List.replicate k v ++ samplesOfHalves s.ctx.qs (halvesOfStart true) ++ rest →
      ∃ t, exec (.rdSlave arg) s = .next t ∧ EndedWith s t 0x5 arg .unexpectedRole ∧ Consumed (k + 36 * s.ctx.qs) s t
        ∧ t.data.res = { s.data.res.started.synced true with
            count := 0, expected := BitVec.ofNat 5 n, chunks := 0 })
    ∧ (∀ bad : List Half × Byte,
      ((good ++ [bad]).map fun ch => ch.1.length) = (chunkSizes n).take (good.length + 1) →
      s.ctx.checkValid bad.1 bad.2 = false →
      s.levels = List.replicate k v ++ samplesOfHalves s.ctx.qs
        (halvesOfStart false ++ (good ++ [bad]).flatMap halvesOfChunk) ++ rest →
      ∃ t, exec (.rdSlave arg) s = .next t ∧ EndedWith s t 0x5 arg .checkSequenceMismatch
        ∧ Consumed (k + (halvesOfStart false ++ (good ++ [bad]).flatMap halvesOfChunk).length * (2 * s.ctx.qs)) s t
        ∧ t.data.res = { s.data.res.started.synced false with
            count := BitVec.ofNat 5 ((good ++ [bad]).flatMap (·.1)).length
            expected := BitVec.ofNat 5 n, chunks := BitVec.ofNat 3 (good.length + 1)
            sword := t.data.res.sword, schk := t.data.res.schk }
        ∧ (∀ j < 16, t.data.res.sword[j]? = if j < ((good ++ [bad]).flatMap (·.1)).length
            then ((good ++ [bad]).flatMap (·.1))[j]? else s.data.res.sword[j]?)
        ∧ ∀ j < 4, t.data.res.schk[j]? = if j < good.length + 1
            then ((good ++ [bad]).map (·.2))[j]? else s.data.res.schk[j]?)
    ∧ (∀ x : Symbol, x ≠ .nl → (good.map fun ch => ch.1.length) = chunkSizes n →
      s.levels = List.replicate k v ++ samplesOfHalves s.ctx.qs
        (halvesOfStart false ++ good.flatMap halvesOfChunk ++ halvesOfSymbol x) ++ rest →
      ∃ t, exec (.rdSlave arg) s = .next t ∧ EndedWith s t 0x5 arg .invalidEndDelimiter
        ∧ Consumed (k + (10 + 16 * n + 8 * ((n + 3) / 4)) * (4 * s.ctx.qs)) s t
        ∧ t.data.res = { s.data.res.started.synced false with
            count := BitVec.ofNat 5 n, expected := BitVec.ofNat 5 n, chunks := BitVec.ofNat 3 ((n + 3) / 4)
            sword := t.data.res.sword, schk := t.data.res.schk }
        ∧ (∀ j < 16, t.data.res.sword[j]? = if j < n then (good.flatMap (·.1))[j]? else s.data.res.sword[j]?)
        ∧ ∀ j < 4, t.data.res.schk[j]? = if j < good.length then (good.map (·.2))[j]? else s.data.res.schk[j]?)

/-- RD_TELEGRAM reads a correctly timed telegram: a master frame, a gap of any length at one level, and the slave frame of the master
word's function code, unless SLAVE_POLICY leaves it out; then it ends after the master frame with SKIPPED set (R204, R205, R207). -/
def Obligations.RdTelegramReadsATelegram : Prop :=
  ∀ (s : State) (arg k g n : Nat) (v u : Level) (w : Half) (chk : Byte) (chs : List (List Half × Byte)) (rest : List Level),
    s.running = none → 0 < s.ctx.qs → n = s.ctx.words (wordFcode w) → n ≤ 16 → s.ctx.checkValid [w] chk = true →
    (s.regs.cfg.slavePolicy = true ∧ (s.ctx.entry (wordFcode w)).size = 0 →
      s.levels = List.replicate k v ++ samplesOfHalves s.ctx.qs (halvesOfMasterFrame w chk) ++ rest →
      ∃ t, exec (.rdTelegram arg) s = .next t ∧ EndedWith s t 0x6 arg .none ∧ Consumed (k + 136 * s.ctx.qs) s t
        ∧ t.data.res = { s.data.res.started.synced true with mword := w, mchk := chk, skipped := true })
    ∧ (¬(s.regs.cfg.slavePolicy = true ∧ (s.ctx.entry (wordFcode w)).size = 0) →
      (chs.map fun ch => ch.1.length) = chunkSizes n → (∀ ch ∈ chs, s.ctx.checkValid ch.1 ch.2 = true) →
      s.levels = List.replicate k v ++ samplesOfHalves s.ctx.qs (halvesOfMasterFrame w chk) ++ List.replicate g u
        ++ samplesOfHalves s.ctx.qs (halvesOfSlaveFrame chs) ++ rest →
      ∃ t, exec (.rdTelegram arg) s = .next t ∧ EndedWith s t 0x6 arg .none
        ∧ Consumed (k + 136 * s.ctx.qs + g + (10 + 16 * n + 8 * ((n + 3) / 4)) * (4 * s.ctx.qs)) s t
        ∧ t.data.res = { s.data.res.started.synced false with
            mword := w, mchk := chk
            count := BitVec.ofNat 5 n, expected := BitVec.ofNat 5 n, chunks := BitVec.ofNat 3 ((n + 3) / 4)
            sword := t.data.res.sword, schk := t.data.res.schk }
        ∧ (∀ j < 16, t.data.res.sword[j]? = if j < n then (chs.flatMap (·.1))[j]? else s.data.res.sword[j]?)
        ∧ ∀ j < 4, t.data.res.schk[j]? = if j < chs.length then (chs.map (·.2))[j]? else s.data.res.schk[j]?)

/-- An error of the master frame ends RD_TELEGRAM before any slave read: it ends with the same error, leaving the same streams and
result registers, as RD_MASTER would; while the master frame is still being read it waits as RD_MASTER would (R204, R266(e)). -/
def Obligations.RdTelegramStopsOnAMasterError : Prop :=
  ∀ (s m : State) (a b : Nat), s.running = none → exec (.rdMaster a) s = .next m →
    (m.running = none → m.err ≠ .none →
      ∃ t, exec (.rdTelegram b) s = .next t ∧ EndedWith s t 0x6 b m.err ∧ t.data = m.data)
    ∧ (m.running.isSome = true →
      ∃ t, exec (.rdTelegram b) s = .next t ∧ WaitsWith s t 0x6 b ∧ t.data = m.data)

/-- R208, the round trip: RD_TELEGRAM, run on the samples ENC_TELEGRAM has emitted, preceded by any number of LOW samples, with the
same CFG and parameters, ends without error with the master word and the slave words that were sent, provided CheckValid accepts what
CheckGen produced. The samples reach the decoder as levels, that is, after RX_INVERT (R72). -/
def Obligations.TelegramRoundTrip : Prop :=
  ∀ (s t r : State) (a b k : Nat) (xs : List Level), s.running = none → r.running = none → 0 < s.ctx.qs →
    s.regs.gapMin.toNat ≤ s.regs.gapMax.toNat → s.data.tx.limit = none → s.params.fctOk = true →
    r.regs.cfg = s.regs.cfg → r.params = s.params → (∀ ws, r.ctx.checkValid ws (s.ctx.checkGen ws) = true) →
    exec (.encTelegram a) s = .next t → t.data.tx.out = s.data.tx.out ++ xs →
    r.levels = List.replicate k LOW ++ xs →
    ∃ u, exec (.rdTelegram b) r = .next u ∧ EndedWith r u 0x6 b .none ∧ u.data.res.mword = s.regs.txMword
      ∧ u.data.res.skipped = t.data.res.skipped
      ∧ (t.data.res.skipped = false → u.data.rx.ahead = []
          ∧ u.data.res.count.toNat = s.ctx.words (wordFcode s.regs.txMword)
          ∧ ∀ j < s.ctx.words (wordFcode s.regs.txMword), u.data.res.sword[j]? = s.regs.txSword[j]?)

/-- R209, truncation safety: a correctly timed frame, after any samples at one level, cut anywhere up to the first sample of its end
delimiter makes the frame read end with EndOfSignal, having consumed every sample; CheckValid accepts the frame's check bytes. -/
def Obligations.TruncatedFramesEndWithEndOfSignal : Prop :=
  ∀ (s : State) (arg k m : Nat) (v : Level), s.running = none → 0 < s.ctx.qs → s.data.rx.ended = true →
    (∀ (w : Half) (chk : Byte), s.ctx.checkValid [w] chk = true → m ≤ k + 132 * s.ctx.qs →
      s.levels = (List.replicate k v ++ samplesOfHalves s.ctx.qs (halvesOfMasterFrame w chk)).take m →
      ∃ t, exec (.rdMaster arg) s = .next t ∧ EndedWith s t 0x4 arg .endOfSignal
        ∧ Consumed s.data.rx.ahead.length s t)
    ∧ ∀ (n : Nat) (chs : List (List Half × Byte)), n = s.ctx.words (BitVec.ofNat 4 arg) → n ≤ 16 →
      (chs.map fun ch => ch.1.length) = chunkSizes n → (∀ ch ∈ chs, s.ctx.checkValid ch.1 ch.2 = true) →
      m ≤ k + (9 + 16 * n + 8 * ((n + 3) / 4)) * (4 * s.ctx.qs) →
      s.levels = (List.replicate k v ++ samplesOfHalves s.ctx.qs (halvesOfSlaveFrame chs)).take m →
      ∃ t, exec (.rdSlave arg) s = .next t ∧ EndedWith s t 0x5 arg .endOfSignal
        ∧ Consumed s.data.rx.ahead.length s t

/-! ### Frames sent -/

/-- ENC_SYMBOL emits 2·QS samples at the first-half level of the symbol whose code is ARG[1:0], then 2·QS at its second-half level,
and nothing else happens (R231, R234). -/
def Obligations.EncSymbolEmitsTwoHalves : Prop :=
  ∀ (s : State) (arg : Nat), s.running = none → 0 < s.ctx.qs → s.data.tx.limit = none →
    ∃ t, exec (.encSymbol arg) s = .next t ∧ EndedWith s t 0x8 arg .none
      ∧ Emitted (List.replicate (2 * s.ctx.qs) (arg.testBit 1) ++ List.replicate (2 * s.ctx.qs) (arg.testBit 0)) s t
      ∧ t.data.gapDraws = s.data.gapDraws ∧ t.data.res = s.data.res.started

/-- ENC_BIT emits 2·QS samples at the level ARG[0], then 2·QS at the other level, and nothing else happens (R232, R235). -/
def Obligations.EncBitEmitsTwoHalves : Prop :=
  ∀ (s : State) (arg : Nat), s.running = none → 0 < s.ctx.qs → s.data.tx.limit = none →
    ∃ t, exec (.encBit arg) s = .next t ∧ EndedWith s t 0x9 arg .none
      ∧ Emitted (List.replicate (2 * s.ctx.qs) (arg.testBit 0) ++ List.replicate (2 * s.ctx.qs) (!arg.testBit 0)) s t
      ∧ t.data.gapDraws = s.data.gapDraws ∧ t.data.res = s.data.res.started

/-- ENC_MASTER emits the 136·QS samples of the master frame of TX_MWORD with the check byte CheckGen gives it, and nothing else
happens (R112, R237, R238). -/
def Obligations.EncMasterEmitsAMasterFrame : Prop :=
  ∀ (s : State) (arg : Nat), s.running = none → 0 < s.ctx.qs → s.data.tx.limit = none →
    ∃ t xs, exec (.encMaster arg) s = .next t ∧ EndedWith s t 0xA arg .none ∧ Emitted xs s t
      ∧ xs = samplesOfHalves s.ctx.qs (halvesOfMasterFrame s.regs.txMword (s.ctx.checkGen [s.regs.txMword]))
      ∧ xs.length = 136 * s.ctx.qs ∧ t.data.gapDraws = s.data.gapDraws ∧ t.data.res = s.data.res.started

/-- ENC_SLAVE emits the (10 + 16·n + 8·⌈n/4⌉)·4·QS samples of the slave frame of TX_SWORD0 to TX_SWORD(n − 1), n = TX_NW.COUNT ≤ 16,
each chunk with the check byte CheckGen gives it, and nothing else happens (R114, R239, R240). -/
def Obligations.EncSlaveEmitsASlaveFrame : Prop :=
  ∀ (s : State) (arg n : Nat), s.running = none → 0 < s.ctx.qs → s.data.tx.limit = none → n = s.regs.txNw.toNat → n ≤ 16 →
    ∃ t xs, exec (.encSlave arg) s = .next t ∧ EndedWith s t 0xB arg .none ∧ Emitted xs s t
      ∧ xs = samplesOfHalves s.ctx.qs (halvesOfSlaveFrame (s.ctx.checkedChunks (s.regs.txSword.toList.take n)))
      ∧ xs.length = (10 + 16 * n + 8 * ((n + 3) / 4)) * (4 * s.ctx.qs)
      ∧ t.data.gapDraws = s.data.gapDraws ∧ t.data.res = s.data.res.started

/-- ENC_TELEGRAM emits the master frame of TX_MWORD, a gap of g samples at CFG.IDLE_LEVEL for some g from MIN to MAX, and the slave
frame of the words its function code calls for, unless SLAVE_POLICY leaves it out; then SKIPPED is set, the gap having been emitted
(R243, R244, R245). The gap drawn is free: the statement holds for every draw. -/
def Obligations.EncTelegramEmitsATelegram : Prop :=
  ∀ (s : State) (arg n : Nat), s.running = none → 0 < s.ctx.qs → s.data.tx.limit = none →
    s.regs.gapMin.toNat ≤ s.regs.gapMax.toNat → n = s.ctx.words (wordFcode s.regs.txMword) →
    ∃ t g, exec (.encTelegram arg) s = .next t ∧ EndedWith s t 0xC arg .none
      ∧ s.regs.gapMin.toNat ≤ g ∧ g ≤ s.regs.gapMax.toNat
      ∧ Emitted (samplesOfHalves s.ctx.qs (halvesOfMasterFrame s.regs.txMword (s.ctx.checkGen [s.regs.txMword]))
          ++ List.replicate g s.regs.cfg.idleLevel
          ++ (if s.regs.cfg.slavePolicy = true ∧ n = 0 then []
              else samplesOfHalves s.ctx.qs
                (halvesOfSlaveFrame (s.ctx.checkedChunks (s.regs.txSword.toList.take n))))) s t
      ∧ t.data.res = { s.data.res.started with skipped := decide (s.regs.cfg.slavePolicy = true ∧ n = 0) }

/-- An encode command or a NOP never ends with a stream error: its ERR is 0 or ILLEGAL_CONFIG, and NOP's is 0 (R246, R260). -/
def Obligations.EncodersRaiseNoStreamError : Prop :=
  ∀ (s t : State) (arg : Nat), s.running = none →
    (exec (.nop arg) s = .next t → t.err = .none)
    ∧ ∀ i ∈ [Instr.encSymbol arg, .encBit arg, .encMaster arg, .encSlave arg, .encTelegram arg],
        exec i s = .next t → t.err = .none ∨ t.err = .illegalConfig

/-- The sink sets the pace and nothing else: a command run against a sink that stops accepting, and let go on when the sink accepts
everything, comes to exactly the state it comes to against a sink that always accepts; and until then it has emitted a first part of
the same samples and no more than the sink accepts (R79, R301(c), R311). -/
def Obligations.SinkPaceDoesNotMatter : Prop :=
  ∀ (i : Instr) (op : BitVec 4) (arg : Nat) (s t u : State), commandParts i = some (op, arg) → s.running = none →
    exec i s = .next t → exec i (s.setLimit none) = .next u →
    t.setLimit none = u ∧ t.data.tx.out <+: u.data.tx.out
      ∧ ∀ lim, s.data.tx.limit = some lim → t.data.tx.count ≤ max lim s.data.tx.count

/-! ### The line as a sequence of elements -/

/-- Each symbol, bit and delimiter row presents its half-bit periods, 2·QS samples each, to an idle core, which leaves them to be
consumed later and changes nothing else; after the end of the stream nothing is presented (R71, R104, R105, R107 to R111, R122). -/
def Obligations.LineElementsArePresented : Prop :=
  ∀ s : State,
    ∀ p ∈ [(Instr.symNl, [LOW, LOW]), (.symZero, [LOW, HIGH]), (.symOne, [HIGH, LOW]), (.symNh, [HIGH, HIGH]),
        (.bit0, [LOW, HIGH]), (.bit1, [HIGH, LOW]), (.endDelim, [LOW, LOW]),
        (.startMaster, [HIGH, LOW, HIGH, HIGH, LOW, LOW, LOW, HIGH, HIGH, HIGH, LOW, LOW, LOW, HIGH, LOW, HIGH, LOW, HIGH]),
        (.startSlave, [HIGH, LOW, HIGH, LOW, HIGH, LOW, HIGH, LOW, LOW, LOW, HIGH, HIGH, HIGH, LOW, LOW, LOW, HIGH, HIGH])],
      (s.running = none → s.data.rx.ended = false →
        exec p.1 s = .next { s with data := { s.data with rx := { s.data.rx with
          ahead := s.data.rx.ahead ++ p.2.flatMap fun v => List.replicate (2 * s.ctx.qs) v } } })
      ∧ (s.data.rx.ended = true → exec p.1 s = .next s)

/-- Each master-word row presents its 16 bits, function code first, most significant bit first, each as two half-bit periods, to an
idle core, which leaves them to be consumed later and changes nothing else; after the end of the stream nothing is presented (R71,
R82, R105, R113). -/
def Obligations.MasterWordsArePresented : Prop :=
  ∀ (s : State) (addr : Nat), addr < 4096 →
    ∀ p ∈ [(0, Instr.mwordFc0 addr), (1, .mwordFc1 addr), (2, .mwordFc2 addr), (3, .mwordFc3 addr), (4, .mwordFc4 addr),
        (5, .mwordFc5 addr), (6, .mwordFc6 addr), (7, .mwordFc7 addr), (8, .mwordFc8 addr), (9, .mwordFc9 addr),
        (10, .mwordFc10 addr), (11, .mwordFc11 addr), (12, .mwordFc12 addr), (13, .mwordFc13 addr),
        (14, .mwordFc14 addr), (15, .mwordFc15 addr)],
      (s.running = none → s.data.rx.ended = false →
        exec p.2 s = .next { s with data := { s.data with rx := { s.data.rx with
          ahead := s.data.rx.ahead ++ (List.range 16).flatMap fun j =>
            List.replicate (2 * s.ctx.qs) ((4096 * p.1 + addr).testBit (15 - j))
              ++ List.replicate (2 * s.ctx.qs) (!(4096 * p.1 + addr).testBit (15 - j)) } } })
      ∧ (s.data.rx.ended = true → exec p.2 s = .next s)

/-- R180: a SYNC that waits with nothing on the line and is then fed the start bit and a start delimiter of either role ends without
error with that role, having consumed exactly the element's 36·QS samples. -/
def Obligations.SyncFedAStartSelectsItsRole : Prop :=
  ∀ (s : State) (arg : Nat), s.running = none → 0 < s.ctx.qs → s.regs.cfg.rxInvert = false →
    s.data.rx.ahead = [] → s.data.rx.ended = false →
    ∀ p ∈ [(Instr.startMaster, true), (.startSlave, false)],
      ∃ t u, exec (.sync arg) s = .next t ∧ WaitsWith s t 0x3 arg ∧ exec p.1 t = .next u ∧ EndedWith s u 0x3 arg .none
        ∧ u.data.rx = { pos := s.data.rx.pos + 36 * s.ctx.qs, ahead := [], ended := false }
        ∧ u.data.tx = s.data.tx ∧ u.data.res = s.data.res.started.synced p.2

/-- A RD_MASTER that waits and is then fed, element by element, the start, the word of any function code and address, the eight bits
of a check byte that CheckValid accepts, and the end delimiter, ends without error with that word and check byte, every sample
consumed: the rows of the table put together make the master frame of R112, and the pieces in which it arrives do not matter. -/
def Obligations.MasterFrameArrivesElementByElement : Prop :=
  ∀ (s : State) (arg : Nat) (fcode : BitVec 4) (addr : BitVec 12) (chk : Byte), s.running = none → 0 < s.ctx.qs →
    s.regs.cfg.rxInvert = false → s.data.rx.ahead = [] → s.data.rx.ended = false →
    s.ctx.checkValid [fcode ++ addr] chk = true →
    ∃ u, execAll ([.rdMaster arg, .startMaster, masterWordOf fcode addr.toNat]
          ++ (List.range 8).map (fun j => bitRow (chk.getLsbD (7 - j))) ++ [.endDelim]) s = .next u
      ∧ EndedWith s u 0x4 arg .none
      ∧ u.data.rx = { pos := s.data.rx.pos + 136 * s.ctx.qs, ahead := [], ended := false }
      ∧ u.data.tx = s.data.tx ∧ u.data.res = { s.data.res.started.synced true with mword := fcode ++ addr, mchk := chk }

/-- It does not matter whether samples, or the end of the stream, reach the core before a command starts or while it waits: no sample
is lost while the core is idle, and waiting has no effect (R71, R73, R141). -/
def Obligations.ArrivalTimeDoesNotMatter : Prop :=
  ∀ (i : Instr) (op : BitVec 4) (arg : Nat) (s t : State), commandParts i = some (op, arg) → s.running = none →
    s.data.rx.ended = false → exec i s = .next t →
    (∀ xs : List Level, exec i (s.present xs) = .next (t.present xs)) ∧ exec i s.endInput = .next t.endInput

/-! ### What commands leave alone -/

/-- Each command changes only the result registers its rule names, whichever way it ends or waits (R33, R35 to R37, R152, R155, R179,
R197, R201, R234, R243). -/
def Obligations.CommandsWriteOnlyTheirResults : Prop :=
  ∀ (s t : State) (arg : Nat), s.running = none →
    (∀ i ∈ [Instr.nop arg, .illegalOp7 arg, .illegalOpD arg, .illegalOpE arg, .illegalOpF arg, .encSymbol arg, .encBit arg,
        .encMaster arg, .encSlave arg], exec i s = .next t → t.data.res = s.data.res.started)
    ∧ (exec (.encTelegram arg) s = .next t → t.data.res = { s.data.res.started with skipped := t.data.res.skipped })
    ∧ (exec (.decSymbol arg) s = .next t → t.data.res = { s.data.res.started with sym := t.data.res.sym })
    ∧ (exec (.decBit arg) s = .next t → t.data.res = { s.data.res.started with bit := t.data.res.bit })
    ∧ (exec (.sync arg) s = .next t → t.data.res = { s.data.res.started with
        syncState := t.data.res.syncState, kind := t.data.res.kind, elem := t.data.res.elem
        role := t.data.res.role, roleValid := t.data.res.roleValid })
    ∧ (exec (.rdMaster arg) s = .next t → t.data.res = { s.data.res.started with
        syncState := t.data.res.syncState, kind := t.data.res.kind, elem := t.data.res.elem
        role := t.data.res.role, roleValid := t.data.res.roleValid
        mword := t.data.res.mword, mchk := t.data.res.mchk })
    ∧ (exec (.rdSlave arg) s = .next t → t.data.res = { s.data.res.started with
        syncState := t.data.res.syncState, kind := t.data.res.kind, elem := t.data.res.elem
        role := t.data.res.role, roleValid := t.data.res.roleValid
        count := t.data.res.count, expected := t.data.res.expected, chunks := t.data.res.chunks
        schk := t.data.res.schk, sword := t.data.res.sword })
    ∧ (exec (.rdTelegram arg) s = .next t → t.data.res = { s.data.res.started with
        syncState := t.data.res.syncState, kind := t.data.res.kind, elem := t.data.res.elem
        role := t.data.res.role, roleValid := t.data.res.roleValid
        mword := t.data.res.mword, mchk := t.data.res.mchk
        count := t.data.res.count, expected := t.data.res.expected, chunks := t.data.res.chunks
        schk := t.data.res.schk, sword := t.data.res.sword, skipped := t.data.res.skipped })

/-- Each decode command consumes samples in order and emits none; each encode command emits samples and consumes none; NOP and the
illegal opcodes do neither (R70, R93, R144, R146). -/
def Obligations.CommandsReachOnlyTheirStream : Prop :=
  ∀ (s t : State) (arg : Nat), s.running = none →
    (∀ i ∈ [Instr.decSymbol arg, .decBit arg, .sync arg, .rdMaster arg, .rdSlave arg, .rdTelegram arg],
      exec i s = .next t → ∃ n ≤ s.data.rx.ahead.length, Consumed n s t)
    ∧ (∀ i ∈ [Instr.encSymbol arg, .encBit arg, .encMaster arg, .encSlave arg, .encTelegram arg],
      exec i s = .next t → ∃ xs, Emitted xs s t)
    ∧ ∀ i ∈ [Instr.nop arg, .illegalOp7 arg, .illegalOpD arg, .illegalOpE arg, .illegalOpF arg],
      exec i s = .next t → Consumed 0 s t

/-- Every byte of the register port outside the registers a command may change reads after it as before it; `writtenOffsets` names
those registers for each command (R23, R83, R141). -/
def Obligations.CommandsKeepEveryOtherPortByte : Prop :=
  ∀ (i : Instr) (op : BitVec 4) (arg : Nat) (s t : State), commandParts i = some (op, arg) → s.running = none →
    exec i s = .next t → ∀ off < 0x1000, alignOffset off ∉ writtenOffsets i → t.portByte off = s.portByte off

/-! ### Reset, invariants and the step -/

/-- Every register and every reserved offset as the host reads it right after reset, whatever the offset bits 1:0 are (R84, R291), the
four outputs and both stream counters (R290(b) to (d)). The sixteen function-code entries are the default table of R191, which but
for part of entry 0 is general knowledge, PRESUMED (log entry 9). -/
def Obligations.ResetRegisterValues : Prop :=
  (∀ off < 0x1000, alignOffset off ≠ 0x004 → ¬(0x100 ≤ off ∧ off < 0x140) →
      State.reset.register State.reset.viewNow (alignOffset off) = 0x00000000)
    ∧ State.reset.register State.reset.viewNow 0x004 = 0x00000002
    ∧ (List.range 16).map (fun f => State.reset.register State.reset.viewNow (0x100 + 4 * f))
      = [0x11101010, 0x11101020, 0x11101040, 0x11101080, 0x11101100, 0x00010000, 0x00010000, 0x00010000,
         0x21222010, 0x22333010, 0x00010000, 0x00010000, 0x31442100, 0x22354010, 0x21362010, 0x41572010]
    ∧ State.reset.irq = false ∧ State.reset.rxReady = false ∧ State.reset.txValid = false ∧ State.reset.txLevel = LOW
    ∧ State.reset.data.rx.pos = 0 ∧ State.reset.data.tx.count = 0 ∧ State.reset.data.tx.out = []

/-- The reset input brings the core, whatever it was doing, to its reset values: a running command is abandoned without DONE or ERR,
the position and the counts restart at 0 on a new input stream and an empty output record, and the parameters, the function-code
table among them, stay (R290, R292). -/
def Obligations.ResetAbandonsEverything : Prop :=
  ∀ (s : State) (rest : List Event), s.pending = .reset :: rest →
    ∃ t, step s = .next t ∧ t.running = none ∧ t.done = false ∧ t.err = .none ∧ t.cmdRejected = false
      ∧ t.writeIgnored = false ∧ t.regs = Regs.reset ∧ t.data.res = Results.reset
      ∧ t.data.rx = { pos := 0, ahead := [], ended := false } ∧ t.data.tx.count = 0 ∧ t.data.tx.out = []
      ∧ t.irq = false ∧ t.rxReady = false ∧ t.txValid = false ∧ t.txLevel = LOW
      ∧ t.params = s.params ∧ t.pending = rest ∧ t.busReads = s.busReads
      ∧ ∀ off ∈ mappedOffsets, off < 0x100 → off ≠ 0x004 → t.register t.viewNow off = 0x00000000

/-- The reset state satisfies the invariant. Two of its clauses rest on the model's choices: that no datapath state is left says 0 where
R290(f) leaves the datapath undefined (DESIGN CHOICE, log entry 4), and the table is the default one (PRESUMED, log entry 9). -/
def Obligations.ResetSatisfiesTheInvariant : Prop := Inv State.reset

/-- Every step keeps the invariant: the table satisfies R190, the result registers hold values their fields can show and ROLE is
valid exactly in Synced (R16(e), R30, R35, R179), the output count counts the output record (R44), no datapath state outlives a
command (R46; its idle value is a DESIGN CHOICE, log entry 4), and a running command is where its body has come to with BUSY = 1,
DONE = 0 and ERR = 0 (R140, R141). -/
def Obligations.EveryStepKeepsTheInvariant : Prop := ∀ s t : State, Inv s → step s = .next t → Inv t

/-- When the host writes CTRL with a value that decodes to a command, a step is that command; when the line carries bits that decode
to an element, a step is that element; either way only the event is gone from what the outside world does next. And
`withFetchWord` makes the next step the instruction the decoder reads from a table row's bits. -/
def Obligations.StepRunsTheDecodedInstruction : Prop :=
  ∀ (s : State) (i : Instr) (rest : List Event),
    (∀ (addr w : Word) (off : Nat), s.pending = .write addr w :: rest → s.portOffset addr = some off →
      alignOffset off = 0x000 → decode .command w = .ok i → step s = exec i { s with pending := rest })
    ∧ (∀ (f : Format) (w : Word), s.pending = .line f w :: rest → f ≠ .command → decode f w = .ok i →
      step s = exec i { s with pending := rest })
    ∧ (∀ nbits w : Nat, decodeTableWord nbits w = some i → step (s.withFetchWord nbits w) = exec i s)
    ∧ (s.pending = [] → step s = .next s)

/-- Only reset moves a stream back: every other step leaves the input position where it was or further on in the same stream, with
samples added only at its end, and the output record only grows (R43, R44, R71, R93). -/
def Obligations.OnlyResetMovesTheStreamsBack : Prop :=
  ∀ s t : State, Inv s → step s = .next t → s.pending.head? ≠ some .reset →
    s.data.rx.pos ≤ t.data.rx.pos ∧ s.data.tx.out <+: t.data.tx.out
      ∧ (s.data.rx.ended = true → t.data.rx.ended = true)
      ∧ ∃ new : List Level,
          t.data.rx.ahead = (s.data.rx.ahead ++ new).drop (t.data.rx.pos - s.data.rx.pos)
            ∧ (s.data.rx.ended = true → new = [])

/-- R223: with the reference CheckValid no command ever ends with CheckSequenceMismatch, in one step or after any wait; and no step
changes the parameters. -/
def Obligations.ReferenceCheckNeverMismatches : Prop :=
  ∀ s t : State, step s = .next t →
    t.params = s.params
      ∧ (s.params.validator = .reference → s.err ≠ .checkSequenceMismatch → t.err ≠ .checkSequenceMismatch)

/-! ### The tables -/

/-- R190: the default function-code table satisfies the table invariants, and under any table that does, every function code has 0,
1, 2, 4, 8 or 16 words, exactly SIZE / 16, and a reserved entry has size 0 and no response. -/
def Obligations.FunctionCodeTableInvariants : Prop :=
  Params.default.fctOk = true
    ∧ ∀ (c : Ctx) (fc : BitVec 4), c.params.fctOk = true →
      16 * c.words fc = (c.entry fc).size.toNat ∧ c.words fc ∈ [0, 1, 2, 4, 8, 16]
        ∧ ((c.entry fc).reqKind = .reserved → (c.entry fc).size = 0 ∧ (c.entry fc).respKind = .none)

/-- R221: n words are cut into ⌈n/4⌉ chunks, chunk k holds words 4k to min(4k + 4, n) − 1, and the chunks in order are the words. -/
def Obligations.ChunksPartitionTheWords : Prop :=
  ∀ ws : List Half, (chunksOf ws).flatten = ws ∧ (chunksOf ws).length = (ws.length + 3) / 4
    ∧ (chunksOf ws).map List.length = chunkSizes ws.length
    ∧ ∀ k < (chunksOf ws).length, (chunksOf ws)[k]? = some ((ws.drop (4 * k)).take 4)
        ∧ (chunkSizes ws.length)[k]? = some (min 4 (ws.length - 4 * k))

/-! ### The slave frame of a telegram -/

/-- After a master frame without error, and unless SLAVE_POLICY leaves the slave frame out, RD_TELEGRAM reads on as RD_SLAVE with the
function code just read would: it ends with the same error or none, or waits, with the same streams and result registers (R204). So
a second master start delimiter ends it with UnexpectedRole (R206), a rejected chunk with CheckSequenceMismatch, a wrong end delimiter
with InvalidEndDelimiter, a delimiter of neither role with InvalidStartDelimiter and a cut slave frame with EndOfSignal, the master
word and check byte staying in RX_MWORD. -/
def Obligations.RdTelegramReadsTheSlaveFrameAsRdSlave : Prop :=
  ∀ (s m u : State) (a b : Nat), s.running = none → exec (.rdMaster a) s = .next m → m.running = none → m.err = .none →
    ¬(s.regs.cfg.slavePolicy = true ∧ (s.ctx.entry (wordFcode m.data.res.mword)).size = 0) →
    exec (.rdSlave (wordFcode m.data.res.mword).toNat) m = .next u →
    ∃ t, exec (.rdTelegram b) s = .next t ∧ (u.running = none → EndedWith s t 0x6 b u.err)
      ∧ (u.running.isSome = true → WaitsWith s t 0x6 b)
      ∧ t.data.rx = u.data.rx ∧ t.data.tx = u.data.tx ∧ t.data.res = u.data.res ∧ t.data.gapDraws = u.data.gapDraws
      ∧ t.data.res.mword = m.data.res.mword ∧ t.data.res.mchk = m.data.res.mchk

end Statements
end

