-- ==== Sys2Proof/Laws/State.lean ====
section
/-! SUPPORT. One lemma per field per update, each true by unfolding, so that no later proof unfolds a record update. -/

namespace Sys2Proof.Machine

@[simp] theorem RxPort.consume_pos (n : Nat) (r : RxPort) : (r.consume n).pos = r.pos + n := rfl
@[simp] theorem RxPort.consume_ahead (n : Nat) (r : RxPort) : (r.consume n).ahead = r.ahead.drop n := rfl
@[simp] theorem RxPort.consume_ended (n : Nat) (r : RxPort) : (r.consume n).ended = r.ended := rfl

@[simp] theorem TxPort.accept_count (n : Nat) (v : Level) (t : TxPort) : (t.accept n v).count = t.count + n := rfl
@[simp] theorem TxPort.accept_out (n : Nat) (v : Level) (t : TxPort) : (t.accept n v).out = t.out ++ List.replicate n v := rfl
@[simp] theorem TxPort.accept_limit (n : Nat) (v : Level) (t : TxPort) : (t.accept n v).limit = t.limit := rfl

@[simp] theorem Data.setRes_rx (f : Results → Results) (d : Data) : (d.setRes f).rx = d.rx := rfl
@[simp] theorem Data.setRes_tx (f : Results → Results) (d : Data) : (d.setRes f).tx = d.tx := rfl
@[simp] theorem Data.setRes_res (f : Results → Results) (d : Data) : (d.setRes f).res = f d.res := rfl
@[simp] theorem Data.setRes_dp (f : Results → Results) (d : Data) : (d.setRes f).dp = d.dp := rfl
@[simp] theorem Data.setRes_seen (f : Results → Results) (d : Data) : (d.setRes f).seen = f d.res :: d.seen := rfl
@[simp] theorem Data.setRes_gapDraws (f : Results → Results) (d : Data) : (d.setRes f).gapDraws = d.gapDraws := rfl

@[simp] theorem Data.setDp_rx (f : Datapath → Datapath) (d : Data) : (d.setDp f).rx = d.rx := rfl
@[simp] theorem Data.setDp_tx (f : Datapath → Datapath) (d : Data) : (d.setDp f).tx = d.tx := rfl
@[simp] theorem Data.setDp_res (f : Datapath → Datapath) (d : Data) : (d.setDp f).res = d.res := rfl
@[simp] theorem Data.setDp_dp (f : Datapath → Datapath) (d : Data) : (d.setDp f).dp = f d.dp := rfl
@[simp] theorem Data.setDp_seen (f : Datapath → Datapath) (d : Data) : (d.setDp f).seen = d.seen := rfl
@[simp] theorem Data.setDp_gapDraws (f : Datapath → Datapath) (d : Data) : (d.setDp f).gapDraws = d.gapDraws := rfl

@[simp] theorem Data.setSync_rx (x : SyncState) (d : Data) : (d.setSync x).rx = d.rx := rfl
@[simp] theorem Data.setSync_tx (x : SyncState) (d : Data) : (d.setSync x).tx = d.tx := rfl
@[simp] theorem Data.setSync_res (x : SyncState) (d : Data) : (d.setSync x).res = { d.res with syncState := x } := rfl
@[simp] theorem Data.setSync_dp (x : SyncState) (d : Data) : (d.setSync x).dp = d.dp := rfl
@[simp] theorem Data.setSync_seen (x : SyncState) (d : Data) : (d.setSync x).seen = { d.res with syncState := x } :: d.seen := rfl
@[simp] theorem Data.setSync_gapDraws (x : SyncState) (d : Data) : (d.setSync x).gapDraws = d.gapDraws := rfl

@[simp] theorem Data.consume_rx (n : Nat) (d : Data) : (d.consume n).rx = d.rx.consume n := rfl
@[simp] theorem Data.consume_tx (n : Nat) (d : Data) : (d.consume n).tx = d.tx := rfl
@[simp] theorem Data.consume_res (n : Nat) (d : Data) : (d.consume n).res = d.res := rfl
@[simp] theorem Data.consume_dp (n : Nat) (d : Data) : (d.consume n).dp = d.dp := rfl
@[simp] theorem Data.consume_seen (n : Nat) (d : Data) : (d.consume n).seen = d.seen := rfl
@[simp] theorem Data.consume_gapDraws (n : Nat) (d : Data) : (d.consume n).gapDraws = d.gapDraws := rfl

@[simp] theorem Data.accept_rx (n : Nat) (v : Level) (d : Data) : (d.accept n v).rx = d.rx := rfl
@[simp] theorem Data.accept_tx (n : Nat) (v : Level) (d : Data) : (d.accept n v).tx = d.tx.accept n v := rfl
@[simp] theorem Data.accept_res (n : Nat) (v : Level) (d : Data) : (d.accept n v).res = d.res := rfl
@[simp] theorem Data.accept_dp (n : Nat) (v : Level) (d : Data) : (d.accept n v).dp = d.dp := rfl
@[simp] theorem Data.accept_seen (n : Nat) (v : Level) (d : Data) : (d.accept n v).seen = d.seen := rfl
@[simp] theorem Data.accept_gapDraws (n : Nat) (v : Level) (d : Data) : (d.accept n v).gapDraws = d.gapDraws := rfl

@[simp] theorem Data.present_rx (xs : List Level) (d : Data) : (d.present xs).rx = { d.rx with ahead := d.rx.ahead ++ xs } := rfl
@[simp] theorem Data.present_tx (xs : List Level) (d : Data) : (d.present xs).tx = d.tx := rfl
@[simp] theorem Data.present_res (xs : List Level) (d : Data) : (d.present xs).res = d.res := rfl
@[simp] theorem Data.present_dp (xs : List Level) (d : Data) : (d.present xs).dp = d.dp := rfl
@[simp] theorem Data.present_seen (xs : List Level) (d : Data) : (d.present xs).seen = d.seen := rfl
@[simp] theorem Data.present_gapDraws (xs : List Level) (d : Data) : (d.present xs).gapDraws = d.gapDraws := rfl

@[simp] theorem Data.endInput_rx (d : Data) : (d.endInput).rx = { d.rx with ended := true } := rfl
@[simp] theorem Data.endInput_tx (d : Data) : (d.endInput).tx = d.tx := rfl
@[simp] theorem Data.endInput_res (d : Data) : (d.endInput).res = d.res := rfl
@[simp] theorem Data.endInput_dp (d : Data) : (d.endInput).dp = d.dp := rfl
@[simp] theorem Data.endInput_seen (d : Data) : (d.endInput).seen = d.seen := rfl
@[simp] theorem Data.endInput_gapDraws (d : Data) : (d.endInput).gapDraws = d.gapDraws := rfl

@[simp] theorem Data.setLimit_rx (lim : Option Nat) (d : Data) : (d.setLimit lim).rx = d.rx := rfl
@[simp] theorem Data.setLimit_tx (lim : Option Nat) (d : Data) : (d.setLimit lim).tx = { d.tx with limit := lim } := rfl
@[simp] theorem Data.setLimit_res (lim : Option Nat) (d : Data) : (d.setLimit lim).res = d.res := rfl
@[simp] theorem Data.setLimit_dp (lim : Option Nat) (d : Data) : (d.setLimit lim).dp = d.dp := rfl
@[simp] theorem Data.setLimit_seen (lim : Option Nat) (d : Data) : (d.setLimit lim).seen = d.seen := rfl
@[simp] theorem Data.setLimit_gapDraws (lim : Option Nat) (d : Data) : (d.setLimit lim).gapDraws = d.gapDraws := rfl

@[simp] theorem Data.syncBegin_rx (d : Data) : (d.syncBegin).rx = d.rx := rfl
@[simp] theorem Data.syncBegin_tx (d : Data) : (d.syncBegin).tx = d.tx := rfl
@[simp] theorem Data.syncBegin_res (d : Data) : (d.syncBegin).res = { d.res with roleValid := false, syncState := .awaitHigh, kind := false, elem := 0 } := rfl
@[simp] theorem Data.syncBegin_dp (d : Data) : (d.syncBegin).dp = d.dp := rfl
@[simp] theorem Data.syncBegin_seen (d : Data) : (d.syncBegin).seen = { d.res with roleValid := false, syncState := .awaitHigh, kind := false, elem := 0 } :: d.seen := rfl
@[simp] theorem Data.syncBegin_gapDraws (d : Data) : (d.syncBegin).gapDraws = d.gapDraws := rfl

@[simp] theorem Data.slaveBegin_rx (n : Nat) (d : Data) : (d.slaveBegin n).rx = d.rx := rfl
@[simp] theorem Data.slaveBegin_tx (n : Nat) (d : Data) : (d.slaveBegin n).tx = d.tx := rfl
@[simp] theorem Data.slaveBegin_res (n : Nat) (d : Data) : (d.slaveBegin n).res = { d.res with count := 0, expected := BitVec.ofNat 5 n, chunks := 0 } := rfl
@[simp] theorem Data.slaveBegin_dp (n : Nat) (d : Data) : (d.slaveBegin n).dp = d.dp := rfl
@[simp] theorem Data.slaveBegin_seen (n : Nat) (d : Data) : (d.slaveBegin n).seen = { d.res with count := 0, expected := BitVec.ofNat 5 n, chunks := 0 } :: d.seen := rfl
@[simp] theorem Data.slaveBegin_gapDraws (n : Nat) (d : Data) : (d.slaveBegin n).gapDraws = d.gapDraws := rfl

@[simp] theorem Results.setSword_syncState (i : Nat) (v : Half) (r : Results) : (r.setSword i v).syncState = r.syncState := rfl
@[simp] theorem Results.setSword_kind (i : Nat) (v : Half) (r : Results) : (r.setSword i v).kind = r.kind := rfl
@[simp] theorem Results.setSword_elem (i : Nat) (v : Half) (r : Results) : (r.setSword i v).elem = r.elem := rfl
@[simp] theorem Results.setSword_sym (i : Nat) (v : Half) (r : Results) : (r.setSword i v).sym = r.sym := rfl
@[simp] theorem Results.setSword_bit (i : Nat) (v : Half) (r : Results) : (r.setSword i v).bit = r.bit := rfl
@[simp] theorem Results.setSword_mword (i : Nat) (v : Half) (r : Results) : (r.setSword i v).mword = r.mword := rfl
@[simp] theorem Results.setSword_mchk (i : Nat) (v : Half) (r : Results) : (r.setSword i v).mchk = r.mchk := rfl
@[simp] theorem Results.setSword_count (i : Nat) (v : Half) (r : Results) : (r.setSword i v).count = r.count := rfl
@[simp] theorem Results.setSword_expected (i : Nat) (v : Half) (r : Results) : (r.setSword i v).expected = r.expected := rfl
@[simp] theorem Results.setSword_chunks (i : Nat) (v : Half) (r : Results) : (r.setSword i v).chunks = r.chunks := rfl
@[simp] theorem Results.setSword_schk (i : Nat) (v : Half) (r : Results) : (r.setSword i v).schk = r.schk := rfl
@[simp] theorem Results.setSword_sword (i : Nat) (v : Half) (r : Results) : (r.setSword i v).sword = r.sword.setIfInBounds i v := rfl
@[simp] theorem Results.setSword_role (i : Nat) (v : Half) (r : Results) : (r.setSword i v).role = r.role := rfl
@[simp] theorem Results.setSword_roleValid (i : Nat) (v : Half) (r : Results) : (r.setSword i v).roleValid = r.roleValid := rfl
@[simp] theorem Results.setSword_skipped (i : Nat) (v : Half) (r : Results) : (r.setSword i v).skipped = r.skipped := rfl

@[simp] theorem Results.setSchk_syncState (k : Nat) (v : Byte) (r : Results) : (r.setSchk k v).syncState = r.syncState := rfl
@[simp] theorem Results.setSchk_kind (k : Nat) (v : Byte) (r : Results) : (r.setSchk k v).kind = r.kind := rfl
@[simp] theorem Results.setSchk_elem (k : Nat) (v : Byte) (r : Results) : (r.setSchk k v).elem = r.elem := rfl
@[simp] theorem Results.setSchk_sym (k : Nat) (v : Byte) (r : Results) : (r.setSchk k v).sym = r.sym := rfl
@[simp] theorem Results.setSchk_bit (k : Nat) (v : Byte) (r : Results) : (r.setSchk k v).bit = r.bit := rfl
@[simp] theorem Results.setSchk_mword (k : Nat) (v : Byte) (r : Results) : (r.setSchk k v).mword = r.mword := rfl
@[simp] theorem Results.setSchk_mchk (k : Nat) (v : Byte) (r : Results) : (r.setSchk k v).mchk = r.mchk := rfl
@[simp] theorem Results.setSchk_count (k : Nat) (v : Byte) (r : Results) : (r.setSchk k v).count = r.count := rfl
@[simp] theorem Results.setSchk_expected (k : Nat) (v : Byte) (r : Results) : (r.setSchk k v).expected = r.expected := rfl
@[simp] theorem Results.setSchk_chunks (k : Nat) (v : Byte) (r : Results) : (r.setSchk k v).chunks = r.chunks := rfl
@[simp] theorem Results.setSchk_schk (k : Nat) (v : Byte) (r : Results) : (r.setSchk k v).schk = r.schk.setIfInBounds k v := rfl
@[simp] theorem Results.setSchk_sword (k : Nat) (v : Byte) (r : Results) : (r.setSchk k v).sword = r.sword := rfl
@[simp] theorem Results.setSchk_role (k : Nat) (v : Byte) (r : Results) : (r.setSchk k v).role = r.role := rfl
@[simp] theorem Results.setSchk_roleValid (k : Nat) (v : Byte) (r : Results) : (r.setSchk k v).roleValid = r.roleValid := rfl
@[simp] theorem Results.setSchk_skipped (k : Nat) (v : Byte) (r : Results) : (r.setSchk k v).skipped = r.skipped := rfl

@[simp] theorem State.endCommand_regs (e : ErrorCode) (d : Data) (s : State) : (s.endCommand e d).regs = s.regs := rfl
@[simp] theorem State.endCommand_data (e : ErrorCode) (d : Data) (s : State) : (s.endCommand e d).data = { d with dp := Datapath.idle, seen := [] } := rfl
@[simp] theorem State.endCommand_done (e : ErrorCode) (d : Data) (s : State) : (s.endCommand e d).done = true := rfl
@[simp] theorem State.endCommand_err (e : ErrorCode) (d : Data) (s : State) : (s.endCommand e d).err = e := rfl
@[simp] theorem State.endCommand_cmdRejected (e : ErrorCode) (d : Data) (s : State) : (s.endCommand e d).cmdRejected = s.cmdRejected := rfl
@[simp] theorem State.endCommand_writeIgnored (e : ErrorCode) (d : Data) (s : State) : (s.endCommand e d).writeIgnored = s.writeIgnored := rfl
@[simp] theorem State.endCommand_running (e : ErrorCode) (d : Data) (s : State) : (s.endCommand e d).running = none := rfl
@[simp] theorem State.endCommand_params (e : ErrorCode) (d : Data) (s : State) : (s.endCommand e d).params = s.params := rfl
@[simp] theorem State.endCommand_raceDraws (e : ErrorCode) (d : Data) (s : State) : (s.endCommand e d).raceDraws = s.raceDraws := rfl
@[simp] theorem State.endCommand_busReads (e : ErrorCode) (d : Data) (s : State) : (s.endCommand e d).busReads = s.busReads := rfl
@[simp] theorem State.endCommand_pending (e : ErrorCode) (d : Data) (s : State) : (s.endCommand e d).pending = s.pending := rfl

@[simp] theorem State.begin_regs (op arg : BitVec 4) (s : State) : (s.begin op arg).regs = { s.regs with op := op, arg := arg } := rfl
@[simp] theorem State.begin_data (op arg : BitVec 4) (s : State) : (s.begin op arg).data = { s.data with res := { s.data.res with skipped := false }, seen := [{ s.data.res with skipped := false }] } := rfl
@[simp] theorem State.begin_done (op arg : BitVec 4) (s : State) : (s.begin op arg).done = false := rfl
@[simp] theorem State.begin_err (op arg : BitVec 4) (s : State) : (s.begin op arg).err = .none := rfl
@[simp] theorem State.begin_cmdRejected (op arg : BitVec 4) (s : State) : (s.begin op arg).cmdRejected = s.cmdRejected := rfl
@[simp] theorem State.begin_writeIgnored (op arg : BitVec 4) (s : State) : (s.begin op arg).writeIgnored = s.writeIgnored := rfl
@[simp] theorem State.begin_running (op arg : BitVec 4) (s : State) : (s.begin op arg).running = s.running := rfl
@[simp] theorem State.begin_params (op arg : BitVec 4) (s : State) : (s.begin op arg).params = s.params := rfl
@[simp] theorem State.begin_raceDraws (op arg : BitVec 4) (s : State) : (s.begin op arg).raceDraws = s.raceDraws := rfl
@[simp] theorem State.begin_busReads (op arg : BitVec 4) (s : State) : (s.begin op arg).busReads = s.busReads := rfl
@[simp] theorem State.begin_pending (op arg : BitVec 4) (s : State) : (s.begin op arg).pending = s.pending := rfl

@[simp] theorem State.rejectStart_regs (s : State) : (s.rejectStart).regs = s.regs := rfl
@[simp] theorem State.rejectStart_data (s : State) : (s.rejectStart).data = s.data := rfl
@[simp] theorem State.rejectStart_done (s : State) : (s.rejectStart).done = s.done := rfl
@[simp] theorem State.rejectStart_err (s : State) : (s.rejectStart).err = s.err := rfl
@[simp] theorem State.rejectStart_cmdRejected (s : State) : (s.rejectStart).cmdRejected = true := rfl
@[simp] theorem State.rejectStart_writeIgnored (s : State) : (s.rejectStart).writeIgnored = true := rfl
@[simp] theorem State.rejectStart_running (s : State) : (s.rejectStart).running = s.running := rfl
@[simp] theorem State.rejectStart_params (s : State) : (s.rejectStart).params = s.params := rfl
@[simp] theorem State.rejectStart_raceDraws (s : State) : (s.rejectStart).raceDraws = s.raceDraws := rfl
@[simp] theorem State.rejectStart_busReads (s : State) : (s.rejectStart).busReads = s.busReads := rfl
@[simp] theorem State.rejectStart_pending (s : State) : (s.rejectStart).pending = s.pending := rfl

@[simp] theorem State.changeData_regs (f : Data → Data) (s : State) : (s.changeData f).regs = s.regs := rfl
@[simp] theorem State.changeData_data (f : Data → Data) (s : State) : (s.changeData f).data = f s.data := rfl
@[simp] theorem State.changeData_done (f : Data → Data) (s : State) : (s.changeData f).done = s.done := rfl
@[simp] theorem State.changeData_err (f : Data → Data) (s : State) : (s.changeData f).err = s.err := rfl
@[simp] theorem State.changeData_cmdRejected (f : Data → Data) (s : State) : (s.changeData f).cmdRejected = s.cmdRejected := rfl
@[simp] theorem State.changeData_writeIgnored (f : Data → Data) (s : State) : (s.changeData f).writeIgnored = s.writeIgnored := rfl
@[simp] theorem State.changeData_running (f : Data → Data) (s : State) : (s.changeData f).running = s.running.map fun r => { r with start := f r.start } := rfl
@[simp] theorem State.changeData_params (f : Data → Data) (s : State) : (s.changeData f).params = s.params := rfl
@[simp] theorem State.changeData_raceDraws (f : Data → Data) (s : State) : (s.changeData f).raceDraws = s.raceDraws := rfl
@[simp] theorem State.changeData_busReads (f : Data → Data) (s : State) : (s.changeData f).busReads = s.busReads := rfl
@[simp] theorem State.changeData_pending (f : Data → Data) (s : State) : (s.changeData f).pending = s.pending := rfl

@[simp] theorem State.writeStatus_regs (v : Word) (s : State) : (s.writeStatus v).regs = s.regs := rfl
@[simp] theorem State.writeStatus_data (v : Word) (s : State) : (s.writeStatus v).data = s.data := rfl
@[simp] theorem State.writeStatus_done (v : Word) (s : State) : (s.writeStatus v).done = (s.done && !v.getLsbD 1) := rfl
@[simp] theorem State.writeStatus_err (v : Word) (s : State) : (s.writeStatus v).err = s.err := rfl
@[simp] theorem State.writeStatus_cmdRejected (v : Word) (s : State) : (s.writeStatus v).cmdRejected = (s.cmdRejected && !v.getLsbD 16) := rfl
@[simp] theorem State.writeStatus_writeIgnored (v : Word) (s : State) : (s.writeStatus v).writeIgnored = (s.writeIgnored && !v.getLsbD 17) := rfl
@[simp] theorem State.writeStatus_running (v : Word) (s : State) : (s.writeStatus v).running = s.running := rfl
@[simp] theorem State.writeStatus_params (v : Word) (s : State) : (s.writeStatus v).params = s.params := rfl
@[simp] theorem State.writeStatus_raceDraws (v : Word) (s : State) : (s.writeStatus v).raceDraws = s.raceDraws := rfl
@[simp] theorem State.writeStatus_busReads (v : Word) (s : State) : (s.writeStatus v).busReads = s.busReads := rfl
@[simp] theorem State.writeStatus_pending (v : Word) (s : State) : (s.writeStatus v).pending = s.pending := rfl

@[simp] theorem State.begin_ctx (op arg : BitVec 4) (s : State) :
    (s.begin op arg).ctx = { regs := { s.regs with op := op, arg := arg }, params := s.params } := rfl
@[simp] theorem State.endCommand_ctx (e : ErrorCode) (d : Data) (s : State) : (s.endCommand e d).ctx = s.ctx := rfl
@[simp] theorem State.changeData_ctx (f : Data → Data) (s : State) : (s.changeData f).ctx = s.ctx := rfl
@[simp] theorem State.begin_busy (op arg : BitVec 4) (s : State) : (s.begin op arg).busy = s.busy := rfl
@[simp] theorem State.endCommand_busy (e : ErrorCode) (d : Data) (s : State) : (s.endCommand e d).busy = false := rfl
@[simp] theorem State.rejectStart_busy (s : State) : s.rejectStart.busy = s.busy := rfl
@[simp] theorem State.changeData_busy (f : Data → Data) (s : State) : (s.changeData f).busy = s.busy := by
  simp [State.busy]

/-- An idle core holds no running command (R45). -/
theorem State.running_none_of_idle {s : State} (h : s.busy = false) : s.running = none := by
  simpa [State.busy] using h

end Sys2Proof.Machine
end

