-- ==== Sys2Proof/Laws/Streams.lean ====
section
/-! SUPPORT. What the stream primitives can do, once each (R73 to R80), and the sequencing laws of `Res.bind`. -/

namespace Sys2Proof.Machine

/-! ### Sequencing -/

@[simp] theorem Res.bind_ok {α β : Type} (a : α) (d : Data) (f : α → Data → Res β) : (Res.ok a d).bind f = f a d := rfl
@[simp] theorem Res.bind_raised {α β : Type} (e : ErrorCode) (d : Data) (f : α → Data → Res β) :
    (Res.raised e d : Res α).bind f = .raised e d := rfl
@[simp] theorem Res.bind_waiting {α β : Type} (w : Wait) (d : Data) (f : α → Data → Res β) :
    (Res.waiting w d : Res α).bind f = .waiting w d := rfl
@[simp] theorem Res.onRaise_ok {α : Type} (a : α) (d : Data) (f : Data → Data) : (Res.ok a d).onRaise f = .ok a d := rfl
@[simp] theorem Res.onRaise_raised {α : Type} (e : ErrorCode) (d : Data) (f : Data → Data) :
    (Res.raised e d : Res α).onRaise f = .raised e (f d) := rfl
@[simp] theorem Res.onRaise_waiting {α : Type} (w : Wait) (d : Data) (f : Data → Data) :
    (Res.waiting w d : Res α).onRaise f = .waiting w d := rfl

/-- The data a result leaves, whichever way it ends. -/
def Res.left {α : Type} : Res α → Data
  | .ok _ d => d
  | .raised _ d => d
  | .waiting _ d => d

@[simp] theorem Res.left_ok {α : Type} (a : α) (d : Data) : (Res.ok a d).left = d := rfl
@[simp] theorem Res.left_raised {α : Type} (e : ErrorCode) (d : Data) : (Res.raised e d : Res α).left = d := rfl
@[simp] theorem Res.left_waiting {α : Type} (w : Wait) (d : Data) : (Res.waiting w d : Res α).left = d := rfl

/-- A reflexive and transitive relation that both parts of a sequence keep is kept by the sequence. -/
theorem Res.left_bind {α β : Type} (R : Data → Data → Prop) (trans : ∀ {a b c}, R a b → R b c → R a c)
    {d : Data} {r : Res α} {f : α → Data → Res β} (hr : R d r.left) (hf : ∀ a d', R d' (f a d').left) :
    R d (r.bind f).left := by
  cases r with
  | ok a d' => exact trans hr (hf a d')
  | raised e d' => exact hr
  | waiting w d' => exact hr

/-- What holds of a sequence that returns holds of a part that returned. -/
theorem Res.bind_eq_ok {α β : Type} {r : Res α} {f : α → Data → Res β} {b : β} {d : Data} :
    r.bind f = .ok b d ↔ ∃ a d', r = .ok a d' ∧ f a d' = .ok b d := by
  cases r <;> simp

/-! ### Consumption -/

@[simp] theorem RxPort.consume_consume (m n : Nat) (r : RxPort) : (r.consume m).consume n = r.consume (m + n) := by
  simp [RxPort.consume, Nat.add_assoc]

@[simp] theorem RxPort.consume_zero (r : RxPort) : r.consume 0 = r := by simp [RxPort.consume]

@[simp] theorem Data.consume_zero (d : Data) : d.consume 0 = d := by simp [Data.consume]

@[simp] theorem Data.consume_consume (m n : Nat) (d : Data) : (d.consume m).consume n = d.consume (m + n) := by
  simp [Data.consume]

theorem Data.consume_setRes (n : Nat) (f : Results → Results) (d : Data) :
    (d.setRes f).consume n = (d.consume n).setRes f := rfl

theorem Data.consume_setDp (n : Nat) (f : Datapath → Datapath) (d : Data) :
    (d.setDp f).consume n = (d.consume n).setDp f := rfl

theorem Data.consume_present {n : Nat} {d : Data} (h : n ≤ d.rx.ahead.length) (xs : List Level) :
    (d.present xs).consume n = (d.consume n).present xs := by
  simp [Data.consume, Data.present, RxPort.consume, List.drop_append_of_le_length h]

/-! ### Running out of samples (R73 to R76) -/

/-- `r` is what running out of samples from `d` comes to: every presented sample is consumed, and EndOfSignal is raised if the
stream has ended, or the core waits if it has not (R71, R76). -/
def RunsOut {α : Type} (d : Data) (r : Res α) : Prop :=
  (d.rx.ended = true ∧ r = .raised .endOfSignal (d.consume d.rx.ahead.length))
    ∨ (d.rx.ended = false ∧ ∃ w, r = .waiting w (d.consume d.rx.ahead.length))

theorem RunsOut.bind {α β : Type} {d : Data} {r : Res α} (h : RunsOut d r) (f : α → Data → Res β) :
    RunsOut d (r.bind f) := by
  rcases h with ⟨he, rfl⟩ | ⟨he, w, rfl⟩
  · exact .inl ⟨he, rfl⟩
  · exact .inr ⟨he, w, rfl⟩

theorem RunsOut.of_consume {α : Type} {d : Data} {n : Nat} {r : Res α} (hn : n ≤ d.rx.ahead.length)
    (h : RunsOut (d.consume n) r) : RunsOut d r := by
  have hlen : n + (d.consume n).rx.ahead.length = d.rx.ahead.length := by simp; omega
  rcases h with ⟨he, rfl⟩ | ⟨he, w, rfl⟩
  · exact .inl ⟨he, by rw [Data.consume_consume, hlen]⟩
  · exact .inr ⟨he, w, by rw [Data.consume_consume, hlen]⟩

/-! ### Level and Advance (R73, R74) -/

theorem level_present (c : Ctx) {d : Data} {raw : Level} (h : d.rx.ahead[0]? = some raw) :
    level c d = .ok (c.levelOf raw) d := by
  unfold level
  cases hd : d.rx.ahead with
  | nil => simp [hd] at h
  | cons x xs => simp [hd] at h; simp [h]

theorem level_spec (c : Ctx) (d : Data) :
    (∃ raw, d.rx.ahead[0]? = some raw ∧ level c d = .ok (c.levelOf raw) d)
      ∨ (d.rx.ahead.length = 0 ∧ RunsOut d (level c d)) := by
  unfold level
  cases ha : d.rx.ahead with
  | nil =>
    have hd : d.consume d.rx.ahead.length = d := by simp [ha]
    cases he : d.rx.ended
    · exact .inr ⟨by simp, .inr ⟨he, .look, by rw [hd]; simp⟩⟩
    · exact .inr ⟨by simp, .inl ⟨he, by rw [hd]; simp⟩⟩
  | cons x xs => simp

theorem advance_enough {n : Nat} {d : Data} (h : n ≤ d.rx.ahead.length) : advance n d = .ok () (d.consume n) := by
  simp [advance, h]

theorem advance_spec (n : Nat) (d : Data) :
    (n ≤ d.rx.ahead.length ∧ advance n d = .ok () (d.consume n))
      ∨ (d.rx.ahead.length < n ∧ RunsOut d (advance n d)) := by
  unfold advance RunsOut
  by_cases h : n ≤ d.rx.ahead.length
  · simp [h]
  · cases he : d.rx.ended <;> simp [h] <;> omega

/-! ### AdvanceUntil (R75) -/

theorem samplesBefore_le (c : Ctx) (v : Level) (xs : List Level) : samplesBefore c v xs ≤ xs.length := by
  induction xs with
  | nil => simp [samplesBefore]
  | cons x xs ih => simp only [samplesBefore, List.length_cons]; split <;> omega

/-- No sample before the one AdvanceUntil stops at has the level it looks for. -/
theorem samplesBefore_min (c : Ctx) (v : Level) (xs : List Level) {i : Nat} (h : i < samplesBefore c v xs) :
    ∃ raw, xs[i]? = some raw ∧ c.levelOf raw ≠ v := by
  induction xs generalizing i with
  | nil => simp [samplesBefore] at h
  | cons x xs ih =>
    simp only [samplesBefore] at h
    split at h
    · omega
    · rename_i hx
      cases i with
      | zero => exact ⟨x, by simp, hx⟩
      | succ j => simpa using ih (by omega)

/-- The sample AdvanceUntil stops at has the level it looks for. -/
theorem samplesBefore_hit (c : Ctx) (v : Level) (xs : List Level) (h : samplesBefore c v xs < xs.length) :
    ∃ raw, xs[samplesBefore c v xs]? = some raw ∧ c.levelOf raw = v := by
  induction xs with
  | nil => simp at h
  | cons x xs ih =>
    simp only [samplesBefore] at h ⊢
    split
    · rename_i hx; exact ⟨x, by simp, hx⟩
    · rename_i hx; rw [if_neg hx] at h
      simpa using ih (by simpa using h)

/-- `samplesBefore` is the least index with the level looked for. -/
theorem samplesBefore_eq (c : Ctx) (v : Level) {xs : List Level} {n : Nat} {raw : Level} (hn : xs[n]? = some raw)
    (hv : c.levelOf raw = v) (hmin : ∀ i < n, ∀ r, xs[i]? = some r → c.levelOf r ≠ v) : samplesBefore c v xs = n := by
  have hlt : n < xs.length := (List.getElem?_eq_some_iff.1 hn).1
  rcases Nat.lt_trichotomy (samplesBefore c v xs) n with h | h | h
  · obtain ⟨r, hr, hrv⟩ := samplesBefore_hit c v xs (by omega)
    exact absurd hrv (hmin _ h r hr)
  · exact h
  · obtain ⟨r, hr, hrv⟩ := samplesBefore_min c v xs h
    rw [hn] at hr; cases hr; exact absurd hv hrv

theorem samplesBefore_append_left (c : Ctx) (v : Level) {xs : List Level} (ys : List Level)
    (h : samplesBefore c v xs < xs.length) : samplesBefore c v (xs ++ ys) = samplesBefore c v xs := by
  induction xs with
  | nil => simp at h
  | cons x xs ih =>
    simp only [samplesBefore, List.cons_append] at h ⊢
    split
    · rfl
    · rename_i hx; rw [if_neg hx] at h; rw [ih (by simpa using h)]

theorem samplesBefore_append_right (c : Ctx) (v : Level) {xs : List Level} (ys : List Level)
    (h : samplesBefore c v xs = xs.length) :
    samplesBefore c v (xs ++ ys) = xs.length + samplesBefore c v ys := by
  induction xs with
  | nil => simp
  | cons x xs ih =>
    simp only [samplesBefore, List.cons_append, List.length_cons] at h ⊢
    split
    · rename_i hx; rw [if_pos hx] at h; omega
    · rename_i hx; rw [if_neg hx] at h; rw [ih (by omega)]; omega

theorem advanceUntil_hit {c : Ctx} {v : Level} {d : Data} {n : Nat} {raw : Level} (hn : d.rx.ahead[n]? = some raw)
    (hv : c.levelOf raw = v) (hmin : ∀ i < n, ∀ r, d.rx.ahead[i]? = some r → c.levelOf r ≠ v) :
    advanceUntil c v d = .ok () (d.consume n) := by
  have hlt : n < d.rx.ahead.length := (List.getElem?_eq_some_iff.1 hn).1
  simp [advanceUntil, samplesBefore_eq c v hn hv hmin, hlt]

theorem advanceUntil_spec (c : Ctx) (v : Level) (d : Data) :
    (samplesBefore c v d.rx.ahead < d.rx.ahead.length
        ∧ advanceUntil c v d = .ok () (d.consume (samplesBefore c v d.rx.ahead)))
      ∨ (samplesBefore c v d.rx.ahead = d.rx.ahead.length ∧ RunsOut d (advanceUntil c v d)) := by
  have hle := samplesBefore_le c v d.rx.ahead
  by_cases h : samplesBefore c v d.rx.ahead < d.rx.ahead.length
  · simp [advanceUntil, h]
  · have heq : samplesBefore c v d.rx.ahead = d.rx.ahead.length := by omega
    cases he : d.rx.ended <;> simp [advanceUntil, heq, he, RunsOut]

/-! ### Emit (R79, R80) -/

@[simp] theorem Data.accept_zero (v : Level) (d : Data) : d.accept 0 v = d := by simp [Data.accept, TxPort.accept]

theorem emit_always {n : Nat} {v : Level} {d : Data} (h : d.tx.limit = none) : emit n v d = .ok () (d.accept n v) := by
  simp [emit, h]

theorem emit_spec (n : Nat) (v : Level) (d : Data) :
    emit n v d = .ok () (d.accept n v)
      ∨ ∃ lim, d.tx.limit = some lim ∧ lim < d.tx.count + n
        ∧ emit n v d = .waiting (.sink v) (d.accept (lim - d.tx.count) v) := by
  unfold emit
  cases hl : d.tx.limit with
  | none => simp
  | some lim =>
    by_cases h : d.tx.count + n ≤ lim ∨ n = 0
    · exact .inl (by simp [h])
    · refine .inr ⟨lim, rfl, by omega, ?_⟩
      simp only [h, if_false]

/-- Emitting is emitting one sample after the other (R79, R80). -/
theorem emit_succ {n : Nat} {v : Level} {d : Data} (h : d.tx.limit = none) :
    emit (n + 1) v d = (emit 1 v d).bind fun _ d => emit n v d := by
  simp only [emit_always h, Res.bind_ok]
  rw [emit_always (by simpa using h)]
  simp [Data.accept, TxPort.accept, Nat.add_comm, Nat.add_left_comm, List.replicate_succ]

end Sys2Proof.Machine
end

