-- ==== Sys2Proof/Laws/LineCode.lean ====
section
/-! SUPPORT. What the symbol and bit decoder and encoder can do, once each (R150 to R162, R231 to R233), and that decoding a
waveform the encoder sends gives back what was sent (R161). -/

namespace Sys2Proof.Machine

/-! ### What the core sees -/

/-- The levels of the presented samples as the core uses them (R72). -/
def Data.sees (c : Ctx) (d : Data) : List Level := d.rx.ahead.map c.levelOf

@[simp] theorem Data.sees_length (c : Ctx) (d : Data) : (d.sees c).length = d.rx.ahead.length := by simp [Data.sees]

@[simp] theorem Data.sees_consume (c : Ctx) (n : Nat) (d : Data) : (d.consume n).sees c = (d.sees c).drop n := by
  simp [Data.sees, List.map_drop]

@[simp] theorem Data.sees_setRes (c : Ctx) (f : Results → Results) (d : Data) : (d.setRes f).sees c = d.sees c := rfl
@[simp] theorem Data.sees_setDp (c : Ctx) (f : Datapath → Datapath) (d : Data) : (d.setDp f).sees c = d.sees c := rfl
@[simp] theorem Data.sees_setSync (c : Ctx) (x : SyncState) (d : Data) : (d.setSync x).sees c = d.sees c := rfl
@[simp] theorem Data.sees_syncBegin (c : Ctx) (d : Data) : d.syncBegin.sees c = d.sees c := rfl
@[simp] theorem Data.sees_slaveBegin (c : Ctx) (n : Nat) (d : Data) : (d.slaveBegin n).sees c = d.sees c := rfl

theorem Data.sees_getElem? {c : Ctx} {d : Data} {i : Nat} {v : Level} (h : (d.sees c)[i]? = some v) :
    ∃ raw, d.rx.ahead[i]? = some raw ∧ c.levelOf raw = v := by
  simpa [Data.sees] using h

theorem level_sees {c : Ctx} {d : Data} {v : Level} (h : (d.sees c)[0]? = some v) : level c d = .ok v d := by
  obtain ⟨raw, hr, rfl⟩ := Data.sees_getElem? h
  exact level_present c hr

theorem advanceUntil_sees {c : Ctx} {v : Level} {d : Data} {n : Nat} (hn : (d.sees c)[n]? = some v)
    (hmin : ∀ i < n, (d.sees c)[i]? = some (!v)) : advanceUntil c v d = .ok () (d.consume n) := by
  obtain ⟨raw, hr, hv⟩ := Data.sees_getElem? hn
  refine advanceUntil_hit hr hv fun i hi r hir => ?_
  obtain ⟨raw', hr', hv'⟩ := Data.sees_getElem? (hmin i hi)
  rw [hir] at hr'; cases hr'; rw [hv']; cases v <;> simp

theorem level_sees_spec (c : Ctx) (d : Data) :
    (∃ v, (d.sees c)[0]? = some v ∧ level c d = .ok v d) ∨ (d.rx.ahead.length = 0 ∧ RunsOut d (level c d)) := by
  rcases level_spec c d with ⟨raw, hr, e⟩ | h
  · exact .inl ⟨_, by simp [Data.sees, hr], e⟩
  · exact .inr h

/-! ### DecodeSymbol (R150, R151) -/

/-- DecodeSymbol returns exactly when 4·QS samples are there, and the two levels at its quarter-points decide the symbol. -/
theorem decodeSymbol_spec (c : Ctx) (d : Data) (hq : 0 < c.qs) :
    (4 * c.qs ≤ d.rx.ahead.length ∧ ∃ a b, (d.sees c)[c.qs]? = some a ∧ (d.sees c)[3 * c.qs]? = some b
        ∧ decodeSymbol c d = .ok (symbolOfHalves a b) (d.consume (4 * c.qs)))
      ∨ (d.rx.ahead.length < 4 * c.qs ∧ RunsOut d (decodeSymbol c d)) := by
  unfold decodeSymbol
  rcases advance_spec c.qs d with ⟨h1, e1⟩ | ⟨h1, r1⟩
  swap
  · exact .inr ⟨by omega, r1.bind _⟩
  rw [e1, Res.bind_ok]
  rcases level_sees_spec c (d.consume c.qs) with ⟨a, ha, e2⟩ | ⟨h2, r2⟩
  swap
  · exact .inr ⟨by simp at h2; omega, (r2.bind _).of_consume h1⟩
  rw [e2, Res.bind_ok]
  rcases advance_spec (2 * c.qs) (d.consume c.qs) with ⟨h3, e3⟩ | ⟨h3, r3⟩
  swap
  · exact .inr ⟨by simp at h3; omega, (r3.bind _).of_consume h1⟩
  have h3' : c.qs + 2 * c.qs ≤ d.rx.ahead.length := by simp at h3; omega
  rw [e3, Res.bind_ok, Data.consume_consume]
  rcases level_sees_spec c (d.consume (c.qs + 2 * c.qs)) with ⟨b, hb, e4⟩ | ⟨h4, r4⟩
  swap
  · exact .inr ⟨by simp at h4; omega, (r4.bind _).of_consume h3'⟩
  rw [e4, Res.bind_ok]
  rcases advance_spec c.qs (d.consume (c.qs + 2 * c.qs)) with ⟨h5, e5⟩ | ⟨h5, r5⟩
  swap
  · exact .inr ⟨by simp at h5; omega, (r5.bind _).of_consume h3'⟩
  rw [e5, Res.bind_ok, Data.consume_consume]
  simp at ha hb h5
  refine .inl ⟨by omega, a, b, ha, ?_, ?_⟩
  · rw [show 3 * c.qs = c.qs + 2 * c.qs by omega]; exact hb
  · rw [show c.qs + 2 * c.qs + c.qs = 4 * c.qs by omega]

/-! ### DecodeBit (R153, R154) -/

/-- Where DecodeBit finds its edge when the level `v` is read: the least index ≥ QS with the other level (R154). -/
def Data.edge (c : Ctx) (v : Level) (d : Data) : Nat := c.qs + samplesBefore c (!v) (d.rx.ahead.drop c.qs)

/-- DecodeBit returns the level at the first quarter-point exactly when an edge follows it with 2·QS samples from it on. -/
theorem decodeBit_spec (c : Ctx) (d : Data) (hq : 0 < c.qs) :
    (∃ v, (d.sees c)[c.qs]? = some v ∧ d.edge c v + 2 * c.qs ≤ d.rx.ahead.length
        ∧ decodeBit c d = .ok v (d.consume (d.edge c v + 2 * c.qs)))
      ∨ ((∀ v, (d.sees c)[c.qs]? = some v → d.rx.ahead.length < d.edge c v + 2 * c.qs) ∧ RunsOut d (decodeBit c d)) := by
  unfold decodeBit
  rcases advance_spec c.qs d with ⟨h1, e1⟩ | ⟨h1, r1⟩
  swap
  · refine .inr ⟨fun v hv => ?_, r1.bind _⟩
    have := (List.getElem?_eq_some_iff.1 hv).1
    simp at this; omega
  rw [e1, Res.bind_ok]
  rcases level_sees_spec c (d.consume c.qs) with ⟨a, ha, e2⟩ | ⟨h2, r2⟩
  swap
  · refine .inr ⟨fun v hv => ?_, (r2.bind _).of_consume h1⟩
    have := (List.getElem?_eq_some_iff.1 hv).1
    simp at this h2; omega
  rw [e2, Res.bind_ok]
  have ha' : (d.sees c)[c.qs]? = some a := by simpa using ha
  have hedge : samplesBefore c (!a) (d.consume c.qs).rx.ahead = d.edge c a - c.qs := by simp [Data.edge]
  have hge : c.qs ≤ d.edge c a := by simp [Data.edge]
  rcases advanceUntil_spec c (!a) (d.consume c.qs) with ⟨h3, e3⟩ | ⟨h3, r3⟩
  swap
  · refine .inr ⟨fun v hv => ?_, (r3.bind _).of_consume h1⟩
    rw [ha'] at hv; cases hv
    rw [hedge] at h3; simp at h3; omega
  rw [e3, Res.bind_ok, hedge, Data.consume_consume, show c.qs + (d.edge c a - c.qs) = d.edge c a by omega]
  have h3' : d.edge c a ≤ d.rx.ahead.length := by rw [hedge] at h3; simp at h3; omega
  rcases advance_spec (2 * c.qs) (d.consume (d.edge c a)) with ⟨h4, e4⟩ | ⟨h4, r4⟩
  swap
  · refine .inr ⟨fun v hv => ?_, (r4.bind _).of_consume h3'⟩
    rw [ha'] at hv; cases hv
    simp at h4; omega
  rw [e4, Res.bind_ok, Data.consume_consume]
  exact .inl ⟨a, ha', by simp at h4; omega, rfl⟩

/-! ### Decoding what the encoder sends (R161) -/

@[simp] theorem samplesOfHalves_nil (q : Nat) : samplesOfHalves q [] = [] := rfl

@[simp] theorem samplesOfHalves_append (q : Nat) (as bs : List Level) :
    samplesOfHalves q (as ++ bs) = samplesOfHalves q as ++ samplesOfHalves q bs := by simp [samplesOfHalves]

@[simp] theorem samplesOfHalves_length (q : Nat) (hs : List Level) : (samplesOfHalves q hs).length = hs.length * (2 * q) := by
  induction hs with
  | nil => simp
  | cons h hs ih =>
    have : samplesOfHalves q (h :: hs) = List.replicate (2 * q) h ++ samplesOfHalves q hs := rfl
    rw [this, List.length_append, ih, List.length_replicate, List.length_cons]; ring

theorem samplesOfHalves_pair (q : Nat) (a b : Level) :
    samplesOfHalves q [a, b] = List.replicate (2 * q) a ++ List.replicate (2 * q) b := by simp [samplesOfHalves]

@[simp] theorem symbolOfHalves_halves (x : Symbol) : symbolOfHalves (symbolHalves x).1 (symbolHalves x).2 = x := by
  cases x <;> rfl

theorem decodeSymbol_halves {c : Ctx} {d : Data} (hq : 0 < c.qs) {a b : Level} {rest : List Level}
    (h : d.sees c = samplesOfHalves c.qs [a, b] ++ rest) :
    decodeSymbol c d = .ok (symbolOfHalves a b) (d.consume (4 * c.qs)) := by
  rw [samplesOfHalves_pair] at h
  have hlen : d.rx.ahead.length = 4 * c.qs + rest.length := by
    rw [← Data.sees_length c, h]; simp; omega
  rcases decodeSymbol_spec c d hq with ⟨_, a', b', ha, hb, e⟩ | ⟨hl, _⟩
  · rw [h] at ha hb
    rw [List.append_assoc, List.getElem?_append_left (by simp; omega), List.getElem?_replicate, if_pos (by omega)] at ha
    rw [List.append_assoc, List.getElem?_append_right (by simp; omega), List.getElem?_append_left (by simp; omega),
      List.getElem?_replicate, if_pos (by simp; omega)] at hb
    cases ha; cases hb; exact e
  · omega

theorem decodeSymbol_wave {c : Ctx} {d : Data} (hq : 0 < c.qs) {x : Symbol} {rest : List Level}
    (h : d.sees c = samplesOfHalves c.qs (halvesOfSymbol x) ++ rest) :
    decodeSymbol c d = .ok x (d.consume (4 * c.qs)) := by
  simpa using decodeSymbol_halves hq (a := (symbolHalves x).1) (b := (symbolHalves x).2) h

theorem samplesBefore_sees (c : Ctx) (v : Level) (xs : List Level) {n : Nat} (hn : (xs.map c.levelOf)[n]? = some v)
    (hmin : ∀ i < n, (xs.map c.levelOf)[i]? = some (!v)) : samplesBefore c v xs = n := by
  have hn' : ∃ raw, xs[n]? = some raw ∧ c.levelOf raw = v := by simpa using hn
  obtain ⟨raw, hr, hv⟩ := hn'
  refine samplesBefore_eq c v hr hv fun i hi r hir hrv => ?_
  have := hmin i hi
  rw [List.getElem?_map, hir] at this
  simp [hrv] at this

theorem decodeBit_wave {c : Ctx} {d : Data} (hq : 0 < c.qs) {b : Bool} {rest : List Level}
    (h : d.sees c = samplesOfHalves c.qs (halvesOfBit b) ++ rest) :
    decodeBit c d = .ok b (d.consume (4 * c.qs)) := by
  rw [halvesOfBit, samplesOfHalves_pair, List.append_assoc] at h
  have hlen : d.rx.ahead.length = 4 * c.qs + rest.length := by
    rw [← Data.sees_length c, h]; simp; omega
  have h1 : (d.sees c)[c.qs]? = some b := by
    rw [h, List.getElem?_append_left (by simp; omega), List.getElem?_replicate, if_pos (by omega)]
  have he : d.edge c b = 2 * c.qs := by
    have : samplesBefore c (!b) (d.rx.ahead.drop c.qs) = c.qs := by
      refine samplesBefore_sees c (!b) _ ?_ fun i hi => ?_
      · rw [List.map_drop, List.getElem?_drop]
        show (d.sees c)[c.qs + c.qs]? = _
        rw [h, List.getElem?_append_right (by simp; omega), List.getElem?_append_left (by simp; omega),
          List.getElem?_replicate, if_pos (by simp; omega)]
      · rw [List.map_drop, List.getElem?_drop]
        show (d.sees c)[c.qs + i]? = _
        rw [h, List.getElem?_append_left (by simp; omega), List.getElem?_replicate, if_pos (by omega)]
        simp
    rw [Data.edge, this]; omega
  rcases decodeBit_spec c d hq with ⟨v, hv, hle, e⟩ | ⟨hn, _⟩
  · rw [h1] at hv; cases hv
    rw [e, he]; congr 2; omega
  · have := hn b h1; omega

/-! ### Fields (R82, R158, R160) -/

@[simp] theorem bitsMsbFirst_length {n : Nat} (v : BitVec n) : (bitsMsbFirst v).length = n := by simp [bitsMsbFirst]

/-- The accumulator holds the bits taken so far, the first one highest (R16(a)). -/
theorem foldl_accBit_take {n : Nat} (v : BitVec n) (k : Nat) (hk : k ≤ n) :
    ((List.range k).map fun j => v.getLsbD (n - 1 - j)).foldl (accBit n) 0 = v.toNat / 2 ^ (n - k) := by
  induction k with
  | zero => simp; exact (Nat.div_eq_of_lt v.isLt).symm
  | succ k ih =>
    rw [List.range_succ, List.map_append, List.foldl_append, ih (by omega)]
    simp only [List.map_cons, List.map_nil, List.foldl_cons, List.foldl_nil, accBit]
    have hs : n - k = (n - (k + 1)) + 1 := by omega
    have hb : (v.getLsbD (n - 1 - k)).toNat = v.toNat / 2 ^ (n - (k + 1)) % 2 := by
      rw [show n - 1 - k = n - (k + 1) by omega, BitVec.getLsbD, Nat.testBit_eq_decide_div_mod_eq]
      rcases Nat.mod_two_eq_zero_or_one (v.toNat / 2 ^ (n - (k + 1))) with h | h <;> simp [h]
    rw [hb, hs, Nat.pow_succ, ← Nat.div_div_eq_div_mul]
    have h1 : 2 * (v.toNat / 2 ^ (n - (k + 1)) / 2) + v.toNat / 2 ^ (n - (k + 1)) % 2 = v.toNat / 2 ^ (n - (k + 1)) := by omega
    rw [h1]
    exact Nat.mod_eq_of_lt (Nat.lt_of_le_of_lt (Nat.div_le_self _ _) v.isLt)

theorem foldl_accBit {n : Nat} (v : BitVec n) : (bitsMsbFirst v).foldl (accBit n) 0 = v.toNat := by
  simpa [bitsMsbFirst] using foldl_accBit_take v n (Nat.le_refl n)

theorem readBitsLoop_wave {c : Ctx} (hq : 0 < c.qs) (n : Nat) (bs : List Bool) {d : Data} {rest : List Level}
    (h : d.sees c = samplesOfHalves c.qs (bs.flatMap halvesOfBit) ++ rest) :
    readBitsLoop c n bs.length d = .ok () ((d.consume (bs.length * (4 * c.qs))).setDp fun p =>
      { p with acc := bs.foldl (accBit n) p.acc, nbits := p.nbits + bs.length }) := by
  induction bs generalizing d with
  | nil => simp [readBitsLoop, Data.setDp]
  | cons b bs ih =>
    rw [List.flatMap_cons, samplesOfHalves_append, List.append_assoc] at h
    have hd : (d.consume (4 * c.qs)).sees c = samplesOfHalves c.qs (bs.flatMap halvesOfBit) ++ rest := by
      rw [Data.sees_consume, h]
      exact List.drop_left' (by simp [halvesOfBit]; omega)
    simp only [List.length_cons, readBitsLoop]
    rw [decodeBit_wave hq h, Res.bind_ok, ih (by simpa using hd)]
    congr 1
    simp only [Data.consume_setDp, Data.consume_consume]
    rw [show 4 * c.qs + bs.length * (4 * c.qs) = (bs.length + 1) * (4 * c.qs) by ring]
    simp [Data.setDp, Nat.add_comm, Nat.add_left_comm]

/-- ReadBits reads back the value whose bits are on the line most significant first, and consumes n bit periods (R158, R160). -/
theorem readBits_wave {c : Ctx} (hq : 0 < c.qs) {n : Nat} (v : BitVec n) {d : Data} {rest : List Level}
    (h : d.sees c = samplesOfHalves c.qs (halvesOfField v) ++ rest) :
    readBits c n d = .ok v ((d.consume (n * (4 * c.qs))).setDp fun p => { p with acc := v.toNat, nbits := n }) := by
  unfold readBits
  have := readBitsLoop_wave hq n (bitsMsbFirst v) (d := d.setDp fun p => { p with acc := 0, nbits := 0 }) h
  rw [bitsMsbFirst_length] at this
  rw [this, Res.bind_ok]
  simp [Data.setDp, foldl_accBit, Data.consume]

/-! ### Encoding (R231 to R233) -/

theorem emitHalf_always {c : Ctx} {v : Level} {d : Data} (h : d.tx.limit = none) :
    emitHalf c v d = .ok () (d.accept (2 * c.qs) v) := emit_always h

/-- The data after the sink has accepted a list of samples. -/
def Data.sent (xs : List Level) (d : Data) : Data :=
  { d with tx := { d.tx with count := d.tx.count + xs.length, out := d.tx.out ++ xs } }

@[simp] theorem Data.sent_rx (xs : List Level) (d : Data) : (d.sent xs).rx = d.rx := rfl
@[simp] theorem Data.sent_res (xs : List Level) (d : Data) : (d.sent xs).res = d.res := rfl
@[simp] theorem Data.sent_dp (xs : List Level) (d : Data) : (d.sent xs).dp = d.dp := rfl
@[simp] theorem Data.sent_seen (xs : List Level) (d : Data) : (d.sent xs).seen = d.seen := rfl
@[simp] theorem Data.sent_gapDraws (xs : List Level) (d : Data) : (d.sent xs).gapDraws = d.gapDraws := rfl
@[simp] theorem Data.sent_limit (xs : List Level) (d : Data) : (d.sent xs).tx.limit = d.tx.limit := rfl
@[simp] theorem Data.sent_out (xs : List Level) (d : Data) : (d.sent xs).tx.out = d.tx.out ++ xs := rfl
@[simp] theorem Data.sent_count (xs : List Level) (d : Data) : (d.sent xs).tx.count = d.tx.count + xs.length := rfl
@[simp] theorem Data.sent_nil (d : Data) : d.sent [] = d := by simp [Data.sent]
@[simp] theorem Data.sent_sent (xs ys : List Level) (d : Data) : (d.sent xs).sent ys = d.sent (xs ++ ys) := by
  simp [Data.sent, Nat.add_assoc]

theorem Data.accept_eq_sent (n : Nat) (v : Level) (d : Data) : d.accept n v = d.sent (List.replicate n v) := by
  simp [Data.accept, TxPort.accept, Data.sent]

/-- `f` sends the given samples whenever the sink always accepts. -/
def Sends (f : Data → Res Unit) (xs : List Level) : Prop := ∀ d : Data, d.tx.limit = none → f d = .ok () (d.sent xs)

theorem Sends.bind {f g : Data → Res Unit} {xs ys : List Level} (hf : Sends f xs) (hg : Sends g ys) :
    Sends (fun d => (f d).bind fun _ d => g d) (xs ++ ys) := by
  intro d h
  simp only [hf d h, Res.bind_ok]
  rw [hg _ (by simpa using h), Data.sent_sent]

theorem Sends.nil : Sends (fun d => .ok () d) [] := fun d _ => by simp

theorem emit_sends (n : Nat) (v : Level) : Sends (emit n v) (List.replicate n v) := fun d h => by
  rw [emit_always h, Data.accept_eq_sent]

theorem encodeSymbol_sends (c : Ctx) (x : Symbol) : Sends (encodeSymbol c x) (samplesOfHalves c.qs (halvesOfSymbol x)) := by
  rw [halvesOfSymbol, samplesOfHalves_pair]
  exact (emit_sends _ _).bind (emit_sends _ _)

theorem encodeBit_sends (c : Ctx) (b : Bool) : Sends (encodeBit c b) (samplesOfHalves c.qs (halvesOfBit b)) := by
  rw [halvesOfBit, samplesOfHalves_pair]
  exact (emit_sends _ _).bind (emit_sends _ _)

theorem encodeBits_sends (c : Ctx) (bs : List Bool) :
    Sends (encodeBits c bs) (samplesOfHalves c.qs (bs.flatMap halvesOfBit)) := by
  induction bs with
  | nil => exact Sends.nil
  | cons b bs ih =>
    rw [List.flatMap_cons, samplesOfHalves_append]
    exact (encodeBit_sends c b).bind ih

theorem encodeField_sends (c : Ctx) {n : Nat} (v : BitVec n) :
    Sends (encodeField c v) (samplesOfHalves c.qs (halvesOfField v)) := encodeBits_sends c _

end Sys2Proof.Machine
end

