-- ==== Sys2Proof/Laws/Frames.lean ====
section
/-! SUPPORT. The synchronizer, the frame parser and the frame encoder on correctly timed lines (R172, R181, R195, R203, R236 to
R239). -/

namespace Sys2Proof.Machine

/-- The reference CheckValid accepts every check byte, whichever CheckGen stands beside it (R223). -/
theorem Ctx.checkValid_reference {c : Ctx} (h : c.params.validator = .reference) (ws : List Half) (chk : Byte) :
    c.checkValid ws chk = true := by simp [Ctx.checkValid, h]

/-- The reference CheckGen sends TX_CHK, whichever CheckValid stands beside it (R224). -/
theorem Ctx.checkGen_reference {c : Ctx} (h : c.params.generator = .reference) (ws : List Half) :
    c.checkGen ws = c.regs.txChk := by simp [Ctx.checkGen, h]

/-- From `d` to `d'` exactly `n` samples are consumed, nothing is emitted and nothing is drawn. -/
def Moved (n : Nat) (d d' : Data) : Prop := d'.rx = d.rx.consume n ∧ d'.tx = d.tx ∧ d'.gapDraws = d.gapDraws

theorem Moved.zero (d : Data) : Moved 0 d d := ⟨by simp, rfl, rfl⟩

theorem Moved.trans {m n : Nat} {a b d : Data} (h1 : Moved m a b) (h2 : Moved n b d) : Moved (m + n) a d :=
  ⟨by rw [h2.1, h1.1, RxPort.consume_consume], h2.2.1.trans h1.2.1, h2.2.2.trans h1.2.2⟩

theorem Moved.consume (n : Nat) (d : Data) : Moved n d (d.consume n) := ⟨rfl, rfl, rfl⟩

theorem Moved.sees {n : Nat} {d d' : Data} (h : Moved n d d') (c : Ctx) : d'.sees c = (d.sees c).drop n := by
  simp [Data.sees, h.1, List.map_drop]

theorem Moved.sees_append {n : Nat} {d d' : Data} (h : Moved n d d') {c : Ctx} {xs ys : List Level}
    (hd : d.sees c = xs ++ ys) (hn : xs.length = n) : d'.sees c = ys := by
  rw [h.sees, hd, List.drop_left' hn]

theorem Moved.length_le {n : Nat} {d : Data} {c : Ctx} {xs ys : List Level} (hd : d.sees c = xs ++ ys) (hn : xs.length = n) :
    n ≤ d.rx.ahead.length := by
  rw [← Data.sees_length c, hd, List.length_append]; omega

theorem halvesOfElement_length (e : Element) : (halvesOfElement e).length = 2 := by cases e <;> rfl

theorem samplesOfElement_length (q : Nat) (e : Element) : (samplesOfHalves q (halvesOfElement e)).length = 4 * q := by
  rw [samplesOfHalves_length, halvesOfElement_length]; omega

theorem delimiterOf_length (kind : Bool) : (delimiterOf kind).length = 8 := by cases kind <;> rfl

theorem halvesOfStart_length (kind : Bool) : (halvesOfStart kind).length = 18 := by cases kind <;> rfl

/-! ### The synchronizer (R171 to R181) -/

theorem readElement_wave {c : Ctx} (hq : 0 < c.qs) (e : Element) {d : Data} {rest : List Level}
    (h : d.sees c = samplesOfHalves c.qs (halvesOfElement e) ++ rest) :
    readElement c e d = .ok true (d.consume (4 * c.qs)) := by
  cases e with
  | sym x => rw [readElement, decodeSymbol_wave hq h]; simp
  | bit b => rw [readElement, decodeBit_wave hq h]; simp

theorem matchElements_wave {c : Ctx} (hq : 0 < c.qs) (es : List Element) (j : Nat) {d : Data} {rest : List Level}
    (h : d.sees c = samplesOfHalves c.qs (es.flatMap halvesOfElement) ++ rest) :
    ∃ d', matchElements c es j d = .ok () d' ∧ Moved (es.length * (4 * c.qs)) d d' ∧ d'.dp = d.dp
      ∧ d'.res = { d.res with elem := if es = [] then d.res.elem else BitVec.ofNat 4 (j + es.length - 1) } := by
  induction es generalizing d j with
  | nil => exact ⟨d, rfl, by simpa using Moved.zero d, rfl, by simp⟩
  | cons e es ih =>
    rw [List.flatMap_cons, samplesOfHalves_append, List.append_assoc] at h
    have hm : Moved (4 * c.qs) d ((d.consume (4 * c.qs)).setRes fun r => { r with elem := BitVec.ofNat 4 j }) :=
      ⟨rfl, rfl, rfl⟩
    obtain ⟨d', e1, m1, hdp, hres⟩ := ih (j + 1) (hm.sees_append h (samplesOfElement_length _ e))
    refine ⟨d', ?_, ?_, by simpa using hdp, ?_⟩
    · simp only [matchElements, readElement_wave hq e h, Res.bind_ok, if_true]; exact e1
    · rw [List.length_cons, Nat.succ_mul, Nat.add_comm]; exact hm.trans m1
    · rw [hres]
      cases es with
      | nil => simp
      | cons e' es => simp; congr 1; omega

theorem lead_length (q k : Nat) (v : Level) (kind : Bool) :
    (List.replicate k v ++ samplesOfHalves q (halvesOfStart kind)).length = k + 9 * (4 * q) := by
  rw [List.length_append, List.length_replicate, samplesOfHalves_length, halvesOfStart_length]; omega

/-- From the first delimiter element on, Sync reads the delimiter of either role (R174 to R177). -/
theorem syncDelimiter_wave {c : Ctx} (hq : 0 < c.qs) (kind : Bool) {d : Data} {rest : List Level}
    (h : d.sees c = samplesOfHalves c.qs ((delimiterOf kind).flatMap halvesOfElement) ++ rest) :
    ∃ d', syncDelimiter c d = .ok kind d' ∧ Moved (8 * (4 * c.qs)) d d' ∧ d'.dp = d.dp
      ∧ d'.res = { d.res with syncState := .synced, kind := kind, elem := 8, role := kind, roleValid := true } := by
  have hfirst : ∃ x, halvesOfElement ((delimiterOf kind).head (by cases kind <;> simp [delimiterOf, masterDelimiter, slaveDelimiter]))
      = halvesOfSymbol x ∧ kindOfFirst x = some kind := by
    cases kind
    · exact ⟨.one, rfl, rfl⟩
    · exact ⟨.nh, rfl, rfl⟩
  obtain ⟨x, hx, hk⟩ := hfirst
  have hsplit : (delimiterOf kind).flatMap halvesOfElement
      = halvesOfSymbol x ++ (delimiterOf kind).tail.flatMap halvesOfElement := by
    rw [← hx]; cases kind <;> rfl
  rw [hsplit, samplesOfHalves_append, List.append_assoc] at h
  have hm : Moved (4 * c.qs) d (((d.consume (4 * c.qs)).setRes fun r => { r with kind := kind }).setRes
      fun r => { r with elem := 1 }) := ⟨rfl, rfl, rfl⟩
  obtain ⟨d', e1, m1, hdp, hres⟩ := matchElements_wave hq (delimiterOf kind).tail 2
    (hm.sees_append h (by rw [samplesOfHalves_length]; simp [halvesOfSymbol]; omega))
  have hlen : (delimiterOf kind).tail.length = 7 := by cases kind <;> rfl
  have hne : (delimiterOf kind).tail ≠ [] := by intro h0; simp [h0] at hlen
  rw [hlen] at m1 hres
  rw [if_neg hne] at hres
  refine ⟨((d'.setSync .synced).setRes fun r => { r with role := kind }).setRes fun r => { r with roleValid := true },
    ?_, ?_, by simpa using hdp, ?_⟩
  · simp only [syncDelimiter, decodeSymbol_wave hq h, Res.bind_ok, hk, e1]
  · have := hm.trans m1
    rw [show 4 * c.qs + 7 * (4 * c.qs) = 8 * (4 * c.qs) by omega] at this
    exact this
  · simp [hres]

/-- The two waits of Sync find the middle of a start bit after samples at one level, and AtStartBit ends it (R172). -/
theorem sync_wave {c : Ctx} (hq : 0 < c.qs) (kind : Bool) (k : Nat) (v : Level) {d : Data} {rest : List Level}
    (h : d.sees c = List.replicate k v ++ samplesOfHalves c.qs (halvesOfStart kind) ++ rest) :
    ∃ d', sync c d = .ok kind d' ∧ Moved (k + 9 * (4 * c.qs)) d d' ∧ d'.dp = d.dp
      ∧ d'.res = d.res.synced kind := by
  rw [halvesOfStart, samplesOfHalves_append, halvesOfBit, samplesOfHalves_pair] at h
  simp only [List.append_assoc, Bool.not_true] at h
  have hlen : k + 4 * c.qs ≤ d.rx.ahead.length := by
    rw [← Data.sees_length c, h]; simp; omega
  -- the level at every index of the start bit and of the samples before it
  have hidle : ∀ i < k, (d.sees c)[i]? = some v := fun i hi => by
    rw [h, List.getElem?_append_left (by simpa using hi), List.getElem?_replicate, if_pos hi]
  have hhigh : ∀ i < 2 * c.qs, (d.sees c)[k + i]? = some true := fun i hi => by
    rw [h, List.getElem?_append_right (by simp), List.getElem?_append_left (by simpa using hi), List.getElem?_replicate,
      if_pos (by simpa using hi)]
  have hlow : (d.sees c)[k + 2 * c.qs]? = some false := by
    rw [h, List.getElem?_append_right (by simp), List.getElem?_append_right (by simp), List.getElem?_append_left (by simp; omega),
      List.getElem?_replicate, if_pos (by simp; omega)]
  -- AwaitHigh ends at n
  obtain ⟨n, hn, e1, hup⟩ : ∃ n ≤ k, advanceUntil c HIGH d.syncBegin = .ok () (d.syncBegin.consume n)
      ∧ ∀ i < k + 2 * c.qs - n, (d.sees c)[n + i]? = some true := by
    cases v with
    | false =>
      refine ⟨k, Nat.le_refl k, advanceUntil_sees (by simpa using hhigh 0 (by omega)) fun i hi => by simpa using hidle i hi, ?_⟩
      intro i hi; exact hhigh i (by omega)
    | true =>
      refine ⟨0, Nat.zero_le k, advanceUntil_sees ?_ fun i hi => by omega, fun i hi => ?_⟩
      · rcases Nat.eq_zero_or_pos k with rfl | hk
        · simpa using hhigh 0 (by omega)
        · simpa using hidle 0 hk
      · rw [Nat.zero_add]
        rcases Nat.lt_or_ge i k with hik | hik
        · exact hidle i hik
        · have := hhigh (i - k) (by omega)
          rwa [show k + (i - k) = i by omega] at this
  let d1 := (d.syncBegin.consume n).setSync .awaitLow
  have e2 : advanceUntil c LOW d1 = .ok () (d1.consume (k + 2 * c.qs - n)) := by
    refine advanceUntil_sees ?_ fun i hi => ?_
    · simp only [d1, Data.sees_setSync, Data.sees_consume, Data.sees_syncBegin, List.getElem?_drop]
      rw [show n + (k + 2 * c.qs - n) = k + 2 * c.qs by omega]; exact hlow
    · simp only [d1, Data.sees_setSync, Data.sees_consume, Data.sees_syncBegin, List.getElem?_drop]
      exact hup i hi
  let d2 := (d1.consume (k + 2 * c.qs - n)).setSync .atStartBit
  have e3 : advance (2 * c.qs) d2 = .ok () (d2.consume (2 * c.qs)) := by
    refine advance_enough ?_
    simp [d2, d1]; omega
  let d3 := (d2.consume (2 * c.qs)).setSync .inDelimiter
  have m3 : Moved (k + 4 * c.qs) d d3 := by
    refine ⟨?_, rfl, rfl⟩
    have : d3.rx = ((d.rx.consume n).consume (k + 2 * c.qs - n)).consume (2 * c.qs) := rfl
    rw [this]; simp only [RxPort.consume_consume]; congr 1; omega
  obtain ⟨d', e4, m4, hdp, hres⟩ := syncDelimiter_wave hq kind (d := d3) (rest := rest)
    (m3.sees_append (xs := List.replicate k v ++ (List.replicate (2 * c.qs) true ++ List.replicate (2 * c.qs) false))
      (by rw [h]; simp) (by simp; omega))
  refine ⟨d', ?_, ?_, hdp, ?_⟩
  · unfold sync
    rw [e1, Res.bind_ok, show (d.syncBegin.consume n).setSync .awaitLow = d1 from rfl, e2, Res.bind_ok,
      show (d1.consume (k + 2 * c.qs - n)).setSync .atStartBit = d2 from rfl, e3, Res.bind_ok,
      show (d2.consume (2 * c.qs)).setSync .inDelimiter = d3 from rfl, e4, Res.onRaise_ok]
  · have := m3.trans m4
    rwa [show k + 4 * c.qs + 8 * (4 * c.qs) = k + 9 * (4 * c.qs) by omega] at this
  · rw [hres]; rfl

/-! ### Frames read (R193 to R203) -/

theorem readEnd_wave {c : Ctx} (hq : 0 < c.qs) {d : Data} {rest : List Level}
    (h : d.sees c = samplesOfHalves c.qs (halvesOfSymbol .nl) ++ rest) :
    readEnd c d = .ok () (d.consume (4 * c.qs)) := by
  rw [readEnd, decodeSymbol_wave hq h]; simp

theorem halvesOfField_length {n : Nat} (v : BitVec n) : (halvesOfField v).length = n * 2 := by
  simp only [halvesOfField, List.length_flatMap, halvesOfBit]
  simp

theorem samplesOfField_length (q : Nat) {n : Nat} (v : BitVec n) :
    (samplesOfHalves q (halvesOfField v)).length = n * (4 * q) := by
  rw [samplesOfHalves_length, halvesOfField_length]; ring

/-- ReadMaster reads a correctly timed master frame that CheckValid accepts (R193, R195). -/
theorem readMaster_wave {c : Ctx} (hq : 0 < c.qs) (k : Nat) (v : Level) (w : Half) (chk : Byte) {d : Data} {rest : List Level}
    (h : d.sees c = List.replicate k v ++ samplesOfHalves c.qs (halvesOfMasterFrame w chk) ++ rest)
    (hc : c.checkValid [w] chk = true) :
    ∃ d', readMaster c d = .ok w d' ∧ Moved (k + 34 * (4 * c.qs)) d d'
      ∧ d'.res = { d.res.synced true with mword := w, mchk := chk } := by
  simp only [halvesOfMasterFrame, samplesOfHalves_append, List.append_assoc] at h
  rw [← List.append_assoc] at h
  obtain ⟨d1, e1, m1, _, r1⟩ := sync_wave hq true k v h
  have s1 := m1.sees_append h (lead_length _ _ _ _)
  let d2 := ((d1.consume (16 * (4 * c.qs))).setDp fun p => { p with acc := w.toNat, nbits := 16 }).setRes
    fun r => { r with mword := w }
  have m2 : Moved (16 * (4 * c.qs)) d1 d2 := ⟨rfl, rfl, rfl⟩
  have s2 := m2.sees_append s1 (samplesOfField_length _ w)
  let d3 := ((d2.consume (8 * (4 * c.qs))).setDp fun p => { p with acc := chk.toNat, nbits := 8 }).setRes
    fun r => { r with mchk := chk }
  have m3 : Moved (8 * (4 * c.qs)) d2 d3 := ⟨rfl, rfl, rfl⟩
  have s3 := m3.sees_append s2 (samplesOfField_length _ chk)
  refine ⟨d3.consume (4 * c.qs), ?_, ?_, ?_⟩
  · unfold readMaster
    rw [e1, Res.bind_ok, if_neg (by simp), readBits_wave hq w s1, Res.bind_ok]
    rw [show ((d1.consume (16 * (4 * c.qs))).setDp fun p => { p with acc := w.toNat, nbits := 16 }).setRes
      (fun r => { r with mword := w }) = d2 from rfl, readBits_wave hq chk s2, Res.bind_ok]
    simp only [hc]
    rw [show ((d2.consume (8 * (4 * c.qs))).setDp fun p => { p with acc := chk.toNat, nbits := 8 }).setRes
      (fun r => { r with mchk := chk }) = d3 from rfl, readEnd_wave hq s3]
    simp
  · have := ((m1.trans m2).trans m3).trans (Moved.consume (4 * c.qs) d3)
    rwa [show k + 9 * (4 * c.qs) + 16 * (4 * c.qs) + 8 * (4 * c.qs) + 4 * c.qs = k + 34 * (4 * c.qs) by omega] at this
  · simp [d3, d2, r1]

/-! ### Frames sent (R236 to R239) -/

theorem sendElement_sends (c : Ctx) (e : Element) : Sends (sendElement c e) (samplesOfHalves c.qs (halvesOfElement e)) := by
  cases e with
  | sym x => exact encodeSymbol_sends c x
  | bit b => exact encodeBit_sends c b

theorem sendElements_sends (c : Ctx) (es : List Element) :
    Sends (sendElements c es) (samplesOfHalves c.qs (es.flatMap halvesOfElement)) := by
  induction es with
  | nil => exact Sends.nil
  | cons e es ih =>
    rw [List.flatMap_cons, samplesOfHalves_append]
    exact (sendElement_sends c e).bind ih

theorem encodeStart_sends (c : Ctx) (kind : Bool) : Sends (encodeStart c kind) (samplesOfHalves c.qs (halvesOfStart kind)) := by
  rw [halvesOfStart, samplesOfHalves_append]
  exact (encodeBit_sends c true).bind (sendElements_sends c _)

/-- EncodeMaster sends the master frame of the word and of the check byte CheckGen gives it (R112, R237). -/
theorem encodeMaster_sends (c : Ctx) (w : Half) :
    Sends (encodeMaster c w) (samplesOfHalves c.qs (halvesOfMasterFrame w (c.checkGen [w]))) := by
  simp only [halvesOfMasterFrame, samplesOfHalves_append, List.append_assoc]
  exact (encodeStart_sends c true).bind ((encodeField_sends c w).bind
    ((encodeField_sends c (c.checkGen [w])).bind (encodeSymbol_sends c .nl)))

theorem encodeWords_sends (c : Ctx) (ws : List Half) :
    Sends (encodeWords c ws) (samplesOfHalves c.qs (ws.flatMap halvesOfField)) := by
  induction ws with
  | nil => exact Sends.nil
  | cons w ws ih =>
    rw [List.flatMap_cons, samplesOfHalves_append]
    exact (encodeField_sends c w).bind ih

theorem encodeChunks_sends (c : Ctx) (ms : List Nat) (ws : List Half) :
    Sends (encodeChunks c ms ws)
      (samplesOfHalves c.qs (((splitBy ms ws).map fun ch => (ch, c.checkGen ch)).flatMap halvesOfChunk)) := by
  induction ms generalizing ws with
  | nil => exact Sends.nil
  | cons m ms ih =>
    simp only [splitBy, List.map_cons, List.flatMap_cons, halvesOfChunk, samplesOfHalves_append, List.append_assoc]
    exact (encodeWords_sends c _).bind ((encodeField_sends c _).bind (ih _))

/-- EncodeSlave sends the slave frame of the words in chunks, each with the check byte CheckGen gives it (R114, R239). -/
theorem encodeSlave_sends (c : Ctx) (ws : List Half) :
    Sends (encodeSlave c ws) (samplesOfHalves c.qs (halvesOfSlaveFrame (c.checkedChunks ws))) := by
  simp only [halvesOfSlaveFrame, Ctx.checkedChunks, chunksOf, samplesOfHalves_append, List.append_assoc]
  exact (encodeStart_sends c false).bind ((encodeChunks_sends c _ ws).bind (encodeSymbol_sends c .nl))

end Sys2Proof.Machine
end

