-- ==== Sys2Proof/Laws/Slave.lean ====
section
/-! SUPPORT. Chunks (R221) and the slave frame on a correctly timed line (R198 to R203). -/

namespace Sys2Proof.Machine

/-! ### Chunks (R221) -/

theorem chunkSizes_length (n : Nat) : (chunkSizes n).length = chunkCount n := by simp [chunkSizes]

theorem chunkSizes_small {n m : Nat} (h : m ∈ chunkSizes n) : 0 < m ∧ m ≤ 4 := by
  simp only [chunkSizes, chunkCount, List.mem_map, List.mem_range] at h
  obtain ⟨k, hk, rfl⟩ := h
  omega

/-- The chunk lengths of n words, one chunk at a time. -/
theorem chunkSizes_step (n : Nat) (h : 0 < n) : chunkSizes n = min 4 n :: chunkSizes (n - 4) := by
  have h1 : chunkCount n = chunkCount (n - 4) + 1 := by simp [chunkCount]; omega
  simp only [chunkSizes, h1, List.range_succ_eq_map, List.map_cons, List.map_map]
  congr 1
  refine List.map_congr_left fun k _ => ?_
  simp only [Function.comp_apply]; omega

theorem chunkSizes_sum (n : Nat) : (chunkSizes n).sum = n := by
  induction n using Nat.strongRecOn with
  | _ n ih =>
    rcases Nat.eq_zero_or_pos n with rfl | h
    · rfl
    · rw [chunkSizes_step n h, List.sum_cons, ih (n - 4) (by omega)]; omega

theorem splitBy_flatten {α : Type} (ms : List Nat) (xs : List α) (h : ms.sum = xs.length) : (splitBy ms xs).flatten = xs := by
  induction ms generalizing xs with
  | nil => simp at h; simp [splitBy, List.eq_nil_of_length_eq_zero h.symm]
  | cons m ms ih =>
    simp only [List.sum_cons] at h
    simp [splitBy, ih (xs.drop m) (by simp; omega)]

theorem splitBy_lengths {α : Type} (ms : List Nat) (xs : List α) (h : ms.sum = xs.length) :
    (splitBy ms xs).map List.length = ms := by
  induction ms generalizing xs with
  | nil => rfl
  | cons m ms ih =>
    simp only [List.sum_cons] at h
    simp [splitBy, ih (xs.drop m) (by simp; omega)]; omega

/-- Chunking loses no word and repeats none. -/
theorem chunksOf_flatten (ws : List Half) : (chunksOf ws).flatten = ws := splitBy_flatten _ _ (chunkSizes_sum _)

theorem chunksOf_lengths (ws : List Half) : (chunksOf ws).map List.length = chunkSizes ws.length :=
  splitBy_lengths _ _ (chunkSizes_sum _)

/-! ### Storing a list into a register array -/

/-- The array with a list stored from index `i` on. -/
def storeAll {α : Type} {n : Nat} : Nat → List α → Vector α n → Vector α n
  | _, [], v => v
  | i, x :: xs, v => storeAll (i + 1) xs (v.setIfInBounds i x)

theorem storeAll_getElem? {α : Type} {n : Nat} (i : Nat) (xs : List α) (v : Vector α n) (j : Nat) :
    (storeAll i xs v)[j]? = if j < n ∧ i ≤ j ∧ j < i + xs.length then xs[j - i]? else v[j]? := by
  induction xs generalizing i v with
  | nil => simp [storeAll]
  | cons x xs ih =>
    simp only [storeAll, ih, List.length_cons, Vector.getElem?_setIfInBounds]
    by_cases hj : j < n
    · by_cases h1 : i = j
      · subst h1
        simp [hj]
      · by_cases h2 : i + 1 ≤ j ∧ j < i + 1 + xs.length
        · rw [if_pos ⟨hj, h2⟩, if_pos ⟨hj, by omega, by omega⟩, show j - i = (j - (i + 1)) + 1 by omega]
          simp
        · rw [if_neg (by omega), if_neg h1, if_neg (by omega)]
    · have : v[j]? = none := by simp; omega
      by_cases h1 : i = j
      · subst h1; simp [hj]
      · simp [hj, h1]

theorem storeAll_append {α : Type} {n : Nat} (i : Nat) (xs ys : List α) (v : Vector α n) :
    storeAll i (xs ++ ys) v = storeAll (i + xs.length) ys (storeAll i xs v) := by
  induction xs generalizing i v with
  | nil => rfl
  | cons x xs ih =>
    simp only [List.cons_append, storeAll, ih, List.length_cons]
    rw [show i + 1 + xs.length = i + (xs.length + 1) by omega]

theorem chunkWords_store (r : Results) (i : Nat) (ws : List Half) (h : i + ws.length ≤ 16) (hr : r.sword = storeAll i ws v) :
    r.chunkWords i ws.length = ws := by
  apply List.ext_getElem?
  intro j
  simp only [Results.chunkWords, List.getElem?_map]
  by_cases hj : j < ws.length
  · have h1 : i ≤ i + j ∧ i + j < i + ws.length ∧ i + j < 16 := ⟨by omega, by omega, by omega⟩
    rw [List.getElem?_range hj]
    simp only [Option.map_some, hr, storeAll_getElem?]
    rw [if_pos ⟨h1.2.2, h1.1, h1.2.1⟩, show i + j - i = j by omega, List.getElem?_eq_getElem hj]
    simp
  · have : ws[j]? = none := List.getElem?_eq_none_iff.2 (by omega)
    rw [this]; simp; omega

/-! ### The slave frame (R198 to R203) -/

theorem samplesOfWords_length (q : Nat) (ws : List Half) :
    (samplesOfHalves q (ws.flatMap halvesOfField)).length = ws.length * (16 * (4 * q)) := by
  rw [samplesOfHalves_length, List.length_flatMap]
  simp only [halvesOfField_length, List.map_const', List.sum_replicate, smul_eq_mul]; ring

theorem readWords_wave {c : Ctx} (hq : 0 < c.qs) (ws : List Half) (i : Nat) {d : Data} {rest : List Level}
    (h : d.sees c = samplesOfHalves c.qs (ws.flatMap halvesOfField) ++ rest) :
    ∃ d', readWords c ws.length i d = .ok () d' ∧ Moved (ws.length * (16 * (4 * c.qs))) d d'
      ∧ d'.res = { d.res with
          sword := storeAll i ws d.res.sword
          count := if ws = [] then d.res.count else BitVec.ofNat 5 (i + ws.length) } := by
  induction ws generalizing d i with
  | nil => exact ⟨d, rfl, by simpa using Moved.zero d, by simp [storeAll]⟩
  | cons w ws ih =>
    rw [List.flatMap_cons, samplesOfHalves_append, List.append_assoc] at h
    let d1 := (((d.consume (16 * (4 * c.qs))).setDp fun p => { p with acc := w.toNat, nbits := 16 }).setRes
      fun r => r.setSword i w).setRes fun r => { r with count := BitVec.ofNat 5 (i + 1) }
    have m1 : Moved (16 * (4 * c.qs)) d d1 := ⟨rfl, rfl, rfl⟩
    obtain ⟨d', e2, m2, r2⟩ := ih (i + 1) (m1.sees_append h (samplesOfField_length _ w))
    refine ⟨d', ?_, ?_, ?_⟩
    · rw [List.length_cons, readWords, readBits_wave hq w h, Res.bind_ok]; exact e2
    · rw [List.length_cons, Nat.succ_mul, Nat.add_comm]; exact m1.trans m2
    · rw [r2]
      cases ws with
      | nil => simp [d1, storeAll, Results.setSword]
      | cons w' ws => simp [d1, storeAll, Results.setSword]; congr 1; omega

theorem samplesOfChunk_length (q : Nat) (ch : List Half × Byte) :
    (samplesOfHalves q (halvesOfChunk ch)).length = ch.1.length * (16 * (4 * q)) + 8 * (4 * q) := by
  rw [halvesOfChunk, samplesOfHalves_append, List.length_append, samplesOfWords_length, samplesOfField_length]

/-- How many bit periods chunks take: 16 a word and 8 a check byte (R114). -/
def chunkPeriods (chs : List (List Half × Byte)) : Nat := 16 * (chs.map fun ch => ch.1.length).sum + 8 * chs.length

theorem readChunks_wave {c : Ctx} (hq : 0 < c.qs) (chs : List (List Half × Byte)) (i k : Nat) {d : Data} {rest : List Level}
    (h : d.sees c = samplesOfHalves c.qs (chs.flatMap halvesOfChunk) ++ rest)
    (hne : ∀ ch ∈ chs, ch.1 ≠ []) (hfit : i + (chs.map fun ch => ch.1.length).sum ≤ 16)
    (hc : ∀ ch ∈ chs, c.checkValid ch.1 ch.2 = true) :
    ∃ d', readChunks c (chs.map fun ch => ch.1.length) i k d = .ok () d' ∧ Moved (chunkPeriods chs * (4 * c.qs)) d d'
      ∧ d'.res = { d.res with
          sword := storeAll i (chs.flatMap (·.1)) d.res.sword
          schk := storeAll k (chs.map (·.2)) d.res.schk
          count := if chs = [] then d.res.count else BitVec.ofNat 5 (i + (chs.map fun ch => ch.1.length).sum)
          chunks := if chs = [] then d.res.chunks else BitVec.ofNat 3 (k + chs.length) } := by
  induction chs generalizing d i k with
  | nil => exact ⟨d, rfl, by simpa [chunkPeriods] using Moved.zero d, by simp [storeAll]⟩
  | cons ch chs ih =>
    rw [List.flatMap_cons, samplesOfHalves_append, List.append_assoc, halvesOfChunk, samplesOfHalves_append,
      List.append_assoc] at h
    simp only [List.map_cons, List.sum_cons] at hfit
    have hch : ch.1 ≠ [] := hne ch (by simp)
    let d0 := d.setDp fun p => { p with i := i, k := k, m := ch.1.length }
    obtain ⟨d1, e1, m1, r1⟩ := readWords_wave hq ch.1 i (d := d0) h
    rw [if_neg hch] at r1
    have m1' : Moved (ch.1.length * (16 * (4 * c.qs))) d d1 := m1
    have s1 := m1'.sees_append h (samplesOfWords_length _ _)
    let d2 := (((d1.consume (8 * (4 * c.qs))).setDp fun p => { p with acc := ch.2.toNat, nbits := 8 }).setRes
      fun r => r.setSchk k ch.2).setRes fun r => { r with chunks := BitVec.ofNat 3 (k + 1) }
    have m2 : Moved (8 * (4 * c.qs)) d1 d2 := ⟨rfl, rfl, rfl⟩
    have hwords : d2.res.chunkWords i ch.1.length = ch.1 :=
      chunkWords_store (v := d.res.sword) _ i ch.1 (by omega) (by simp [d2, r1, d0])
    obtain ⟨d', e3, m3, r3⟩ := ih (i + ch.1.length) (k + 1) (m2.sees_append s1 (samplesOfField_length _ ch.2))
      (fun x hx => hne x (by simp [hx])) (by omega) (fun x hx => hc x (by simp [hx]))
    refine ⟨d', ?_, ?_, ?_⟩
    · rw [List.map_cons, readChunks, show (d.setDp fun p => { p with i := i, k := k, m := ch.1.length }) = d0 from rfl, e1,
        Res.bind_ok, readBits_wave hq ch.2 s1, Res.bind_ok]
      simp only []
      rw [show ((((d1.consume (8 * (4 * c.qs))).setDp fun p => { p with acc := ch.2.toNat, nbits := 8 }).setRes
        fun r => r.setSchk k ch.2).setRes fun r => { r with chunks := BitVec.ofNat 3 (k + 1) }) = d2 from rfl, hwords,
        if_neg (by simp [hc ch (by simp)])]
      exact e3
    · have := (m1'.trans m2).trans m3
      rwa [show ch.1.length * (16 * (4 * c.qs)) + 8 * (4 * c.qs) + chunkPeriods chs * (4 * c.qs)
        = chunkPeriods (ch :: chs) * (4 * c.qs) by simp [chunkPeriods]; ring] at this
    · rw [r3]
      simp only [List.flatMap_cons, List.map_cons, storeAll_append, List.sum_cons, List.length_cons, reduceCtorEq, if_false]
      have hs : d2.res.sword = storeAll i ch.1 d.res.sword := by simp [d2, r1, d0]
      have hk : d2.res.schk = d.res.schk.setIfInBounds k ch.2 := by simp [d2, r1, d0, Results.setSchk]
      cases chs with
      | nil => simp [storeAll, d2, r1, d0, Results.setSchk]
      | cons x xs =>
        simp only [hs, hk, storeAll, reduceCtorEq, if_false]
        simp [d2, r1, d0, Results.setSchk, Nat.add_assoc, Nat.add_comm 1]

/-- ReadSlave reads a correctly timed slave frame whose chunks CheckValid accepts (R198, R203). -/
theorem readSlave_wave {c : Ctx} (hq : 0 < c.qs) (fc : BitVec 4) (k : Nat) (v : Level) (chs : List (List Half × Byte))
    {d : Data} {rest : List Level}
    (h : d.sees c = List.replicate k v ++ samplesOfHalves c.qs (halvesOfSlaveFrame chs) ++ rest)
    (hsizes : (chs.map fun ch => ch.1.length) = chunkSizes (c.words fc)) (hfit : c.words fc ≤ 16)
    (hc : ∀ ch ∈ chs, c.checkValid ch.1 ch.2 = true) :
    ∃ d', readSlave c fc d = .ok () d' ∧ Moved (k + slaveFrameLength (c.words fc) * (4 * c.qs)) d d'
      ∧ d'.res = { d.res.synced false with
          sword := storeAll 0 (chs.flatMap (·.1)) d.res.sword
          schk := storeAll 0 (chs.map (·.2)) d.res.schk
          count := BitVec.ofNat 5 (c.words fc)
          expected := BitVec.ofNat 5 (c.words fc)
          chunks := BitVec.ofNat 3 (chunkCount (c.words fc)) } := by
  simp only [halvesOfSlaveFrame, samplesOfHalves_append, List.append_assoc] at h
  rw [← List.append_assoc] at h
  obtain ⟨d1, e1, m1, _, r1⟩ := sync_wave hq false k v (d := d.slaveBegin (c.words fc)) h
  have m1' : Moved (k + 9 * (4 * c.qs)) d d1 := m1
  have s1 := m1'.sees_append h (lead_length _ _ _ _)
  have hsum : (chs.map fun ch => ch.1.length).sum = c.words fc := by rw [hsizes, chunkSizes_sum]
  have hcount : chs.length = chunkCount (c.words fc) := by
    rw [← chunkSizes_length, ← hsizes, List.length_map]
  have hne : ∀ ch ∈ chs, ch.1 ≠ [] := fun ch hch h0 => by
    have : ch.1.length ∈ chunkSizes (c.words fc) := by
      rw [← hsizes]; exact List.mem_map.2 ⟨ch, hch, rfl⟩
    have := (chunkSizes_small this).1
    simp [h0] at this
  obtain ⟨d2, e2, m2, r2⟩ := readChunks_wave hq chs 0 0 (d := d1) s1 hne (by omega) hc
  have s2 := m2.sees_append s1 (by
    clear e2 m2 r2 s1 hne hsum hcount hsizes h hc
    induction chs with
    | nil => simp [chunkPeriods]
    | cons ch chs ih =>
      rw [List.flatMap_cons, samplesOfHalves_append, List.length_append, ih, samplesOfChunk_length]
      simp [chunkPeriods]; ring)
  refine ⟨d2.consume (4 * c.qs), ?_, ?_, ?_⟩
  · unfold readSlave
    rw [e1, Res.bind_ok, if_neg (by simp), ← hsizes, e2, Res.bind_ok, readEnd_wave hq s2]
  · have := (m1'.trans m2).trans (Moved.consume (4 * c.qs) d2)
    rwa [show k + 9 * (4 * c.qs) + chunkPeriods chs * (4 * c.qs) + 4 * c.qs
      = k + slaveFrameLength (c.words fc) * (4 * c.qs) by
        simp only [chunkPeriods, slaveFrameLength, hsum, hcount]; ring] at this
  · simp only [Data.consume_res, r2, r1, Data.slaveBegin_res, Results.synced, hsum, Nat.zero_add, hcount]
    cases chs with
    | nil =>
      simp at hsum
      simp [← hsum, chunkCount]
    | cons x xs => simp

end Sys2Proof.Machine
end

