-- ==== Sys2Proof/Laws/Bodies.lean ====
section
/-! SUPPORT. What every part of a body can do, whichever way it ends: what it leaves alone, and that the samples which have not
arrived yet cannot change what it has done (R71, R93, R141). -/

namespace Sys2Proof.Machine

/-! ### What decoding leaves alone -/

/-- From `d` to `d'` only the input stream moves, forward, and the output and the draws are left alone (R70(a), R93). -/
def Reads (d d' : Data) : Prop :=
  d'.tx = d.tx ∧ d'.gapDraws = d.gapDraws ∧ ∃ n, n ≤ d.rx.ahead.length ∧ d'.rx = d.rx.consume n

theorem Reads.refl (d : Data) : Reads d d := ⟨rfl, rfl, 0, by omega, by simp⟩

theorem Reads.trans {a b c : Data} (h1 : Reads a b) (h2 : Reads b c) : Reads a c := by
  obtain ⟨t1, g1, m, hm, r1⟩ := h1
  obtain ⟨t2, g2, n, hn, r2⟩ := h2
  refine ⟨t2.trans t1, g2.trans g1, m + n, ?_, by rw [r2, r1, RxPort.consume_consume]⟩
  rw [r1] at hn; simp at hn; omega

theorem Reads.consume {n : Nat} {d : Data} (h : n ≤ d.rx.ahead.length) : Reads d (d.consume n) := ⟨rfl, rfl, n, h, rfl⟩

/-- A change of results or datapath is no change of the streams. -/
theorem Reads.of_eq {d d' : Data} (ht : d'.tx = d.tx) (hg : d'.gapDraws = d.gapDraws) (hr : d'.rx = d.rx) : Reads d d' :=
  ⟨ht, hg, 0, by omega, by simp [hr]⟩

theorem Reads.bind {α β : Type} {d : Data} {r : Res α} {f : α → Data → Res β} (hr : Reads d r.left)
    (hf : ∀ a d', Reads d' (f a d').left) : Reads d (r.bind f).left := Res.left_bind Reads Reads.trans hr hf

theorem RunsOut.reads {α : Type} {d : Data} {r : Res α} (h : RunsOut d r) : Reads d r.left := by
  rcases h with ⟨_, rfl⟩ | ⟨_, w, rfl⟩ <;> exact Reads.consume (Nat.le_refl _)

theorem advance_reads (n : Nat) (d : Data) : Reads d (advance n d).left := by
  rcases advance_spec n d with ⟨h, e⟩ | ⟨_, r⟩
  · rw [e]; exact Reads.consume h
  · exact r.reads

theorem level_reads (c : Ctx) (d : Data) : Reads d (level c d).left := by
  rcases level_spec c d with ⟨_, _, e⟩ | ⟨_, r⟩
  · rw [e]; exact Reads.refl d
  · exact r.reads

theorem advanceUntil_reads (c : Ctx) (v : Level) (d : Data) : Reads d (advanceUntil c v d).left := by
  rcases advanceUntil_spec c v d with ⟨h, e⟩ | ⟨_, r⟩
  · rw [e]; exact Reads.consume (by omega)
  · exact r.reads

theorem decodeSymbol_reads (c : Ctx) (d : Data) : Reads d (decodeSymbol c d).left :=
  (advance_reads _ _).bind fun _ _ => (level_reads _ _).bind fun _ _ => (advance_reads _ _).bind fun _ _ =>
    (level_reads _ _).bind fun _ _ => (advance_reads _ _).bind fun _ d => Reads.refl d

theorem decodeBit_reads (c : Ctx) (d : Data) : Reads d (decodeBit c d).left :=
  (advance_reads _ _).bind fun _ _ => (level_reads _ _).bind fun _ _ => (advanceUntil_reads _ _ _).bind fun _ _ =>
    (advance_reads _ _).bind fun _ d => Reads.refl d

theorem readBitsLoop_reads (c : Ctx) (n k : Nat) (d : Data) : Reads d (readBitsLoop c n k d).left := by
  induction k generalizing d with
  | zero => exact Reads.refl d
  | succ k ih => exact (decodeBit_reads _ _).bind fun _ _ => (Reads.of_eq rfl rfl rfl).trans (ih _)

theorem readBits_reads (c : Ctx) (n : Nat) (d : Data) : Reads d (readBits c n d).left :=
  ((Reads.of_eq (d' := d.setDp fun p => { p with acc := 0, nbits := 0 }) rfl rfl rfl).trans
    (readBitsLoop_reads _ _ _ _)).bind fun _ d => Reads.refl d

theorem readElement_reads (c : Ctx) (e : Element) (d : Data) : Reads d (readElement c e d).left := by
  cases e with
  | sym x => exact (decodeSymbol_reads _ _).bind fun _ d => Reads.refl d
  | bit b => exact (decodeBit_reads _ _).bind fun _ d => Reads.refl d

theorem matchElements_reads (c : Ctx) (es : List Element) (j : Nat) (d : Data) : Reads d (matchElements c es j d).left := by
  induction es generalizing j d with
  | nil => exact Reads.refl d
  | cons e es ih =>
    refine (readElement_reads _ _ _).bind fun good d => ?_
    cases good
    · exact Reads.refl d
    · exact (Reads.of_eq (d' := d.setRes fun r => { r with elem := BitVec.ofNat 4 j }) rfl rfl rfl).trans (ih _ _)

theorem syncDelimiter_reads (c : Ctx) (d : Data) : Reads d (syncDelimiter c d).left := by
  refine (decodeSymbol_reads _ _).bind fun x d => ?_
  cases kindOfFirst x with
  | none => exact Reads.refl d
  | some kind =>
    exact ((Reads.of_eq (d' := (d.setRes fun r => { r with kind := kind }).setRes fun r => { r with elem := 1 })
      rfl rfl rfl).trans (matchElements_reads _ _ _ _)).bind fun _ d => Reads.of_eq rfl rfl rfl

theorem Reads.onRaise {α : Type} {d : Data} {r : Res α} {f : Data → Data} (h : Reads d r.left) (hf : ∀ d, Reads d (f d)) :
    Reads d (r.onRaise f).left := by
  cases r with
  | ok a d' => exact h
  | raised e d' => exact h.trans (hf d')
  | waiting w d' => exact h

theorem sync_reads (c : Ctx) (d : Data) : Reads d (sync c d).left := by
  refine Reads.onRaise ?_ fun d => Reads.of_eq rfl rfl rfl
  refine ((Reads.of_eq (d' := d.syncBegin) rfl rfl rfl).trans (advanceUntil_reads _ _ _)).bind fun _ d => ?_
  refine ((Reads.of_eq (d' := d.setSync .awaitLow) rfl rfl rfl).trans (advanceUntil_reads _ _ _)).bind fun _ d => ?_
  refine ((Reads.of_eq (d' := d.setSync .atStartBit) rfl rfl rfl).trans (advance_reads _ _)).bind fun _ d => ?_
  exact (Reads.of_eq (d' := d.setSync .inDelimiter) rfl rfl rfl).trans (syncDelimiter_reads _ _)

theorem readEnd_reads (c : Ctx) (d : Data) : Reads d (readEnd c d).left := by
  refine (decodeSymbol_reads _ _).bind fun x d => ?_
  split <;> exact Reads.refl d

theorem readMaster_reads (c : Ctx) (d : Data) : Reads d (readMaster c d).left := by
  refine (sync_reads _ _).bind fun kind d => ?_
  split
  · exact Reads.refl d
  refine (readBits_reads _ _ _).bind fun w d => ?_
  refine ((Reads.of_eq (d' := d.setRes fun r => { r with mword := w }) rfl rfl rfl).trans (readBits_reads _ _ _)).bind
    fun chk d => ?_
  refine (Reads.of_eq (d' := d.setRes fun r => { r with mchk := chk }) rfl rfl rfl).trans ?_
  split
  · exact Reads.refl _
  · exact (readEnd_reads _ _).bind fun _ d => Reads.refl d

theorem readWords_reads (c : Ctx) (m i : Nat) (d : Data) : Reads d (readWords c m i d).left := by
  induction m generalizing i d with
  | zero => exact Reads.refl d
  | succ m ih => exact (readBits_reads _ _ _).bind fun w d => (Reads.of_eq rfl rfl rfl).trans (ih _ _)

theorem readChunks_reads (c : Ctx) (ms : List Nat) (i k : Nat) (d : Data) : Reads d (readChunks c ms i k d).left := by
  induction ms generalizing i k d with
  | nil => exact Reads.refl d
  | cons m ms ih =>
    refine ((Reads.of_eq (d' := d.setDp fun p => { p with i := i, k := k, m := m }) rfl rfl rfl).trans
      (readWords_reads _ _ _ _)).bind fun _ d => ?_
    refine (readBits_reads _ _ _).bind fun chk d => ?_
    refine (Reads.of_eq (d' := (d.setRes fun r => r.setSchk k chk).setRes
      fun r => { r with chunks := BitVec.ofNat 3 (k + 1) }) rfl rfl rfl).trans ?_
    dsimp only
    split
    · exact Reads.refl _
    · exact ih _ _ _

theorem readSlave_reads (c : Ctx) (fc : BitVec 4) (d : Data) : Reads d (readSlave c fc d).left := by
  refine ((Reads.of_eq (d' := d.slaveBegin (c.words fc)) rfl rfl rfl).trans (sync_reads _ _)).bind fun kind d => ?_
  split
  · exact Reads.refl d
  · exact (readChunks_reads _ _ _ _ _).bind fun _ d => readEnd_reads _ d

/-! ### What encoding leaves alone -/

/-- From `d` to `d'` only samples are emitted: the output record and its count grow alike (R70(b)). -/
def Writes (d d' : Data) : Prop := d'.rx = d.rx ∧ d'.res = d.res ∧ d'.seen = d.seen ∧ ∃ xs, d'.tx = (d.sent xs).tx

theorem Writes.refl (d : Data) : Writes d d := ⟨rfl, rfl, rfl, [], by simp⟩

theorem Writes.trans {a b c : Data} (h1 : Writes a b) (h2 : Writes b c) : Writes a c := by
  obtain ⟨r1, s1, n1, xs, t1⟩ := h1
  obtain ⟨r2, s2, n2, ys, t2⟩ := h2
  refine ⟨r2.trans r1, s2.trans s1, n2.trans n1, xs ++ ys, ?_⟩
  rw [t2]; simp only [Data.sent, t1, List.length_append, List.append_assoc, Nat.add_assoc]

theorem Writes.bind {α β : Type} {d : Data} {r : Res α} {f : α → Data → Res β} (hr : Writes d r.left)
    (hf : ∀ a d', Writes d' (f a d').left) : Writes d (r.bind f).left := Res.left_bind Writes Writes.trans hr hf

theorem emit_writes (n : Nat) (v : Level) (d : Data) : Writes d (emit n v d).left := by
  rcases emit_spec n v d with e | ⟨lim, _, _, e⟩ <;> rw [e, Data.accept_eq_sent]
    <;> exact ⟨rfl, rfl, rfl, _, rfl⟩

theorem encodeSymbol_writes (c : Ctx) (x : Symbol) (d : Data) : Writes d (encodeSymbol c x d).left :=
  (emit_writes _ _ _).bind fun _ _ => emit_writes _ _ _

theorem encodeBit_writes (c : Ctx) (b : Bool) (d : Data) : Writes d (encodeBit c b d).left :=
  (emit_writes _ _ _).bind fun _ _ => emit_writes _ _ _

theorem encodeBits_writes (c : Ctx) (bs : List Bool) (d : Data) : Writes d (encodeBits c bs d).left := by
  induction bs generalizing d with
  | nil => exact Writes.refl d
  | cons b bs ih => exact (encodeBit_writes _ _ _).bind fun _ _ => ih _

theorem encodeField_writes (c : Ctx) {n : Nat} (v : BitVec n) (d : Data) : Writes d (encodeField c v d).left :=
  encodeBits_writes c _ d

theorem sendElements_writes (c : Ctx) (es : List Element) (d : Data) : Writes d (sendElements c es d).left := by
  induction es generalizing d with
  | nil => exact Writes.refl d
  | cons e es ih =>
    refine Writes.bind ?_ fun _ _ => ih _
    cases e with
    | sym x => exact encodeSymbol_writes c x d
    | bit b => exact encodeBit_writes c b d

theorem encodeStart_writes (c : Ctx) (kind : Bool) (d : Data) : Writes d (encodeStart c kind d).left :=
  (encodeBit_writes _ _ _).bind fun _ _ => sendElements_writes _ _ _

theorem encodeMaster_writes (c : Ctx) (w : Half) (d : Data) : Writes d (encodeMaster c w d).left :=
  (encodeStart_writes _ _ _).bind fun _ _ => (encodeField_writes _ _ _).bind fun _ _ =>
    (encodeField_writes _ _ _).bind fun _ _ => encodeSymbol_writes _ _ _

theorem encodeWords_writes (c : Ctx) (ws : List Half) (d : Data) : Writes d (encodeWords c ws d).left := by
  induction ws generalizing d with
  | nil => exact Writes.refl d
  | cons w ws ih => exact (encodeField_writes _ _ _).bind fun _ _ => ih _

theorem encodeChunks_writes (c : Ctx) (ms : List Nat) (ws : List Half) (d : Data) :
    Writes d (encodeChunks c ms ws d).left := by
  induction ms generalizing ws d with
  | nil => exact Writes.refl d
  | cons m ms ih =>
    exact (encodeWords_writes _ _ _).bind fun _ _ => (encodeField_writes _ _ _).bind fun _ _ => ih _ _

theorem encodeSlave_writes (c : Ctx) (ws : List Half) (d : Data) : Writes d (encodeSlave c ws d).left :=
  (encodeStart_writes _ _ _).bind fun _ _ => (encodeChunks_writes _ _ _ _).bind fun _ _ => encodeSymbol_writes _ _ _

theorem emitGap_writes (c : Ctx) (d : Data) : Writes d (emitGap c d).left :=
  Writes.trans (b := { d with gapDraws := d.gapDraws + 1, dp := _ }) ⟨rfl, rfl, rfl, [], by simp⟩ (emit_writes _ _ _)

/-! ### Samples that have not arrived (R71, R310) -/

/-- What `f` has returned or raised on a stream that has not ended, it returns or raises on the same stream with more samples, and
leaves those (R151, R154: a primitive looks at nothing past the samples it needs). -/
def Causal {α : Type} (f : Data → Res α) : Prop :=
  ∀ (d : Data) (xs : List Level), d.rx.ended = false →
    (∀ a d', f d = .ok a d' → f (d.present xs) = .ok a (d'.present xs) ∧ d'.rx.ended = false)
      ∧ (∀ e d', f d = .raised e d' → f (d.present xs) = .raised e (d'.present xs))

theorem Causal.ok {α : Type} (a : α) (g : Data → Data) (hp : ∀ d xs, g (d.present xs) = (g d).present xs)
    (he : ∀ d, (g d).rx.ended = d.rx.ended) : Causal fun d => .ok a (g d) := by
  intro d xs hd
  refine ⟨fun a' d' h => ?_, fun e d' h => by cases h⟩
  cases h
  exact ⟨by show Res.ok a (g (d.present xs)) = _; rw [hp], by rw [he, hd]⟩

theorem Causal.raised {α : Type} (e : ErrorCode) : Causal (α := α) fun d => .raised e d := by
  intro d xs hd
  refine ⟨fun a' d' h => by simp at h, fun e' d' h => ?_⟩
  simp at h; simp [h]

theorem Causal.bind {α β : Type} {f : Data → Res α} {g : α → Data → Res β} (hf : Causal f) (hg : ∀ a, Causal (g a)) :
    Causal fun d => (f d).bind (g ·) := by
  intro d xs hd
  obtain ⟨f1, f2⟩ := hf d xs hd
  cases hfd : f d with
  | ok a d1 =>
    obtain ⟨e1, h1⟩ := f1 a d1 hfd
    have h := hg a d1 xs h1
    simpa only [hfd, e1, Res.bind_ok] using h
  | raised e d1 => simp [hfd, f2 e d1 hfd]
  | waiting w d1 => simp [hfd]

/-- A body may first write results or datapath. -/
theorem Causal.after {α : Type} {f : Data → Res α} (hf : Causal f) (g : Data → Data)
    (hp : ∀ d xs, g (d.present xs) = (g d).present xs) (he : ∀ d, (g d).rx.ended = d.rx.ended) : Causal fun d => f (g d) := by
  intro d xs hd
  have := hf (g d) xs (by rw [he, hd])
  rwa [← hp] at this

theorem Causal.onRaise {α : Type} {f : Data → Res α} (hf : Causal f) (g : Data → Data)
    (hp : ∀ d xs, g (d.present xs) = (g d).present xs) : Causal fun d => (f d).onRaise g := by
  intro d xs hd
  obtain ⟨f1, f2⟩ := hf d xs hd
  cases hfd : f d with
  | ok a d1 =>
    obtain ⟨e1, h1⟩ := f1 a d1 hfd
    simp [hfd, e1, h1]
  | raised e d1 => simp [hfd, f2 e d1 hfd, hp]
  | waiting w d1 => simp [hfd]

theorem Causal.id_ok {α : Type} (a : α) : Causal fun d => .ok a d := Causal.ok a (fun d => d) (fun _ _ => rfl) fun _ => rfl

/-- A part that never raises on a stream that has not ended, and whose return only depends on samples it consumes, is causal. -/
theorem Causal.of_runsOut {α : Type} {f : Data → Res α} {R : Data → Prop}
    (hok : ∀ d, (∃ a d', f d = .ok a d' ∧ R d') ∨ RunsOut d (f d))
    (hR : ∀ d xs a d', d.rx.ended = false → f d = .ok a d' → f (d.present xs) = .ok a (d'.present xs) ∧ d'.rx.ended = false) :
    Causal f := by
  intro d xs hd
  refine ⟨fun a d' h => hR d xs a d' hd h, fun e d' h => ?_⟩
  rcases hok d with ⟨a, d1, h1, _⟩ | ⟨he, _⟩ | ⟨_, w, h1⟩
  · rw [h] at h1; cases h1
  · rw [hd] at he; cases he
  · rw [h] at h1; cases h1

theorem advance_causal (n : Nat) : Causal (advance n) := by
  refine Causal.of_runsOut (R := fun _ => True) (fun d => ?_) fun d xs a d' hd h => ?_
  · rcases advance_spec n d with ⟨_, e⟩ | ⟨_, r⟩
    · exact .inl ⟨_, _, e, trivial⟩
    · exact .inr r
  · rcases advance_spec n d with ⟨hn, e⟩ | ⟨_, ⟨he, _⟩ | ⟨_, w, r⟩⟩
    · rw [h] at e; cases e
      rw [advance_enough (by simp; omega), Data.consume_present hn]
      exact ⟨rfl, hd⟩
    · rw [hd] at he; cases he
    · rw [h] at r; cases r

theorem level_causal (c : Ctx) : Causal (level c) := by
  refine Causal.of_runsOut (R := fun _ => True) (fun d => ?_) fun d xs a d' hd h => ?_
  · rcases level_spec c d with ⟨_, _, e⟩ | ⟨_, r⟩
    · exact .inl ⟨_, _, e, trivial⟩
    · exact .inr r
  · rcases level_spec c d with ⟨raw, hr, e⟩ | ⟨_, ⟨he, _⟩ | ⟨_, w, r⟩⟩
    · rw [h] at e; cases e
      refine ⟨level_present c ?_, hd⟩
      have := (List.getElem?_eq_some_iff.1 hr).1
      simp only [Data.present_rx]
      rw [List.getElem?_append_left this, hr]
    · rw [hd] at he; cases he
    · rw [h] at r; cases r

theorem advanceUntil_causal (c : Ctx) (v : Level) : Causal (advanceUntil c v) := by
  refine Causal.of_runsOut (R := fun _ => True) (fun d => ?_) fun d xs a d' hd h => ?_
  · rcases advanceUntil_spec c v d with ⟨_, e⟩ | ⟨_, r⟩
    · exact .inl ⟨_, _, e, trivial⟩
    · exact .inr r
  · rcases advanceUntil_spec c v d with ⟨hn, e⟩ | ⟨_, ⟨he, _⟩ | ⟨_, w, r⟩⟩
    · rw [h] at e; cases e
      refine ⟨?_, hd⟩
      rw [← Data.consume_present (by omega)]
      have hs := samplesBefore_append_left c v xs hn
      simp only [advanceUntil, Data.present_rx, hs]
      rw [if_pos (by simp; omega)]
    · rw [hd] at he; cases he
    · rw [h] at r; cases r

theorem decodeSymbol_causal (c : Ctx) : Causal (decodeSymbol c) :=
  (advance_causal _).bind fun _ => (level_causal c).bind fun _ => (advance_causal _).bind fun _ =>
    (level_causal c).bind fun _ => (advance_causal _).bind fun _ => Causal.id_ok _

theorem decodeBit_causal (c : Ctx) : Causal (decodeBit c) :=
  (advance_causal _).bind fun _ => (level_causal c).bind fun _ => (advanceUntil_causal c _).bind fun _ =>
    (advance_causal _).bind fun _ => Causal.id_ok _

theorem readBitsLoop_causal (c : Ctx) (n k : Nat) : Causal (readBitsLoop c n k) := by
  induction k with
  | zero => exact Causal.id_ok ()
  | succ k ih => exact (decodeBit_causal c).bind fun b => ih.after _ (fun _ _ => rfl) fun _ => rfl

theorem readBits_causal (c : Ctx) (n : Nat) : Causal (readBits c n) := by
  refine ((readBitsLoop_causal c n n).after (fun d => d.setDp fun p => { p with acc := 0, nbits := 0 }) (fun _ _ => rfl)
    fun _ => rfl).bind fun _ => ?_
  intro d xs hd
  refine ⟨fun a d' h => ?_, fun e d' h => by cases h⟩
  cases h; exact ⟨rfl, hd⟩

theorem readElement_causal (c : Ctx) (e : Element) : Causal (readElement c e) := by
  cases e with
  | sym x => exact (decodeSymbol_causal c).bind fun _ => Causal.id_ok _
  | bit b => exact (decodeBit_causal c).bind fun _ => Causal.id_ok _

theorem matchElements_causal (c : Ctx) (es : List Element) (j : Nat) : Causal (matchElements c es j) := by
  induction es generalizing j with
  | nil => exact Causal.id_ok ()
  | cons e es ih =>
    refine (readElement_causal c e).bind fun good => ?_
    cases good
    · exact Causal.raised _
    · exact (ih (j + 1)).after _ (fun _ _ => rfl) fun _ => rfl

theorem syncDelimiter_causal (c : Ctx) : Causal (syncDelimiter c) := by
  refine (decodeSymbol_causal c).bind fun x => ?_
  cases kindOfFirst x with
  | none => exact Causal.raised _
  | some kind =>
    refine ((matchElements_causal c _ 2).after (fun d => (d.setRes fun r => { r with kind := kind }).setRes
      fun r => { r with elem := 1 }) (fun _ _ => rfl) fun _ => rfl).bind fun _ => ?_
    exact Causal.ok kind _ (fun _ _ => rfl) fun _ => rfl

theorem sync_causal (c : Ctx) : Causal (sync c) := by
  refine Causal.onRaise ?_ _ fun _ _ => rfl
  refine ((advanceUntil_causal c HIGH).after Data.syncBegin (fun _ _ => rfl) fun _ => rfl).bind fun _ => ?_
  refine ((advanceUntil_causal c LOW).after (Data.setSync .awaitLow) (fun _ _ => rfl) fun _ => rfl).bind fun _ => ?_
  refine ((advance_causal (2 * c.qs)).after (Data.setSync .atStartBit) (fun _ _ => rfl) fun _ => rfl).bind fun _ => ?_
  exact (syncDelimiter_causal c).after (Data.setSync .inDelimiter) (fun _ _ => rfl) fun _ => rfl

theorem readEnd_causal (c : Ctx) : Causal (readEnd c) := by
  refine (decodeSymbol_causal c).bind fun x => ?_
  by_cases h : x = .nl
  · simp only [h, if_true]; exact Causal.id_ok ()
  · simp only [h, if_false]; exact Causal.raised _

theorem readMaster_causal (c : Ctx) : Causal (readMaster c) := by
  refine (sync_causal c).bind fun kind => ?_
  cases kind
  · exact Causal.raised _
  refine (readBits_causal c 16).bind fun w => ?_
  refine ((readBits_causal c 8).after (fun d => d.setRes fun r => { r with mword := w }) (fun _ _ => rfl)
    fun _ => rfl).bind fun chk => ?_
  refine Causal.after (f := fun d => if c.checkValid [w] chk = false then .raised .checkSequenceMismatch d
    else (readEnd c d).bind fun _ d => .ok w d) ?_ (fun d => d.setRes fun r => { r with mchk := chk }) (fun _ _ => rfl)
    fun _ => rfl
  by_cases h : c.checkValid [w] chk = false
  · simp only [h, if_true]; exact Causal.raised _
  · simp only [h]; exact (readEnd_causal c).bind fun _ => Causal.id_ok w

theorem readWords_causal (c : Ctx) (m i : Nat) : Causal (readWords c m i) := by
  induction m generalizing i with
  | zero => exact Causal.id_ok ()
  | succ m ih => exact (readBits_causal c 16).bind fun w => (ih _).after _ (fun _ _ => rfl) fun _ => rfl

theorem readChunks_causal (c : Ctx) (ms : List Nat) (i k : Nat) : Causal (readChunks c ms i k) := by
  induction ms generalizing i k with
  | nil => exact Causal.id_ok ()
  | cons m ms ih =>
    refine ((readWords_causal c m i).after (fun d => d.setDp fun p => { p with i := i, k := k, m := m }) (fun _ _ => rfl)
      fun _ => rfl).bind fun _ => ?_
    refine (readBits_causal c 8).bind fun chk => ?_
    refine Causal.after (f := fun d => if c.checkValid (d.res.chunkWords i m) chk = false
      then .raised .checkSequenceMismatch d else readChunks c ms (i + m) (k + 1) d) ?_
      (fun d => (d.setRes fun r => r.setSchk k chk).setRes fun r => { r with chunks := BitVec.ofNat 3 (k + 1) })
      (fun _ _ => rfl) fun _ => rfl
    intro d xs hd
    have hres : (d.present xs).res = d.res := rfl
    by_cases h : c.checkValid (d.res.chunkWords i m) chk = false
    · simp only [h, hres, if_true]; exact Causal.raised _ d xs hd
    · simp only [h, hres]; exact ih _ _ d xs hd

theorem readSlave_causal (c : Ctx) (fc : BitVec 4) : Causal (readSlave c fc) := by
  refine ((sync_causal c).after (Data.slaveBegin (c.words fc)) (fun _ _ => rfl) fun _ => rfl).bind fun kind => ?_
  cases kind
  · exact (readChunks_causal c _ 0 0).bind fun _ => readEnd_causal c
  · exact Causal.raised _

end Sys2Proof.Machine
end

