-- ==== Sys2Proof/Laws/Engine.lean ====
section
/-! SUPPORT. What a START can do, once (R140 to R149), and how the engine's parts show in the terms the claims use. -/

namespace Sys2Proof.Machine

/-- Every command row is a START of its opcode with the body of that opcode. -/
theorem exec_command {i : Instr} {op : BitVec 4} {arg : Nat} (h : commandParts i = some (op, arg)) (s : State) :
    exec i s = .next (s.startCommand op arg (commandBody op)) := by
  cases i <;> simp only [commandParts, Option.some.injEq, Prod.mk.injEq, reduceCtorEq] at h <;>
    obtain ⟨rfl, rfl⟩ := h <;> rfl

theorem startCommand_busy {s : State} (h : s.busy = true) (op : BitVec 4) (arg : Nat) (body : Body) :
    s.startCommand op arg body = s.rejectStart := by simp [State.startCommand, h]

theorem busy_eq_false {s : State} (h : s.running = none) : s.busy = false := by simp [State.busy, h]

/-- An accepted START whose checks fail ends the command at once (R144, R145). -/
theorem startCommand_fails {s : State} (h : s.running = none) {op : BitVec 4} {arg : Nat} {e : ErrorCode}
    (hc : startCheck (s.begin op (BitVec.ofNat 4 arg)).regs = some e) (body : Body) :
    s.startCommand op arg body = (s.begin op (BitVec.ofNat 4 arg)).endCommand e (s.begin op (BitVec.ofNat 4 arg)).data := by
  unfold State.startCommand
  rw [if_neg (by simp [busy_eq_false h])]
  show (match startCheck (s.begin op (BitVec.ofNat 4 arg)).regs with | some e => _ | none => _) = _
  rw [hc]

/-- An accepted START whose checks pass runs its body (R149). -/
theorem startCommand_runs {s : State} (h : s.running = none) {op : BitVec 4} {arg : Nat}
    (hc : startCheck (s.begin op (BitVec.ofNat 4 arg)).regs = none) (body : Body) :
    s.startCommand op arg body = (s.begin op (BitVec.ofNat 4 arg)).settle (s.begin op (BitVec.ofNat 4 arg)).data
      (body (s.begin op (BitVec.ofNat 4 arg)).ctx (s.begin op (BitVec.ofNat 4 arg)).data) := by
  unfold State.startCommand
  rw [if_neg (by simp [busy_eq_false h])]
  show (match startCheck (s.begin op (BitVec.ofNat 4 arg)).regs with | some e => _ | none => _) = _
  rw [hc]

/-- The data a body starts from: START has cleared SKIPPED and `seen` begins (R140, R297). -/
def Data.started (d : Data) : Data := { d with res := d.res.started, seen := [d.res.started] }

@[simp] theorem Data.started_rx (d : Data) : d.started.rx = d.rx := rfl
@[simp] theorem Data.started_tx (d : Data) : d.started.tx = d.tx := rfl
@[simp] theorem Data.started_res (d : Data) : d.started.res = d.res.started := rfl
@[simp] theorem Data.started_dp (d : Data) : d.started.dp = d.dp := rfl
@[simp] theorem Data.started_seen (d : Data) : d.started.seen = [d.res.started] := rfl
@[simp] theorem Data.started_gapDraws (d : Data) : d.started.gapDraws = d.gapDraws := rfl
@[simp] theorem Data.sees_started (c : Ctx) (d : Data) : d.started.sees c = d.sees c := rfl

theorem begin_data (s : State) (op arg : BitVec 4) : (s.begin op arg).data = s.data.started := rfl

/-- The operands of a command started in `s`: CTRL holds its own opcode and operand, the rest is as in `s` (R91). -/
def State.ctxOf (s : State) (op : BitVec 4) (arg : Nat) : Ctx :=
  { regs := { s.regs with op := op, arg := BitVec.ofNat 4 arg }, params := s.params }

theorem begin_ctx (s : State) (op : BitVec 4) (arg : Nat) : (s.begin op (BitVec.ofNat 4 arg)).ctx = s.ctxOf op arg := rfl

@[simp] theorem ctxOf_qs (s : State) (op : BitVec 4) (arg : Nat) : (s.ctxOf op arg).qs = s.ctx.qs := rfl
@[simp] theorem ctxOf_entry (s : State) (op : BitVec 4) (arg : Nat) (fc : BitVec 4) :
    (s.ctxOf op arg).entry fc = s.ctx.entry fc := rfl
@[simp] theorem ctxOf_words (s : State) (op : BitVec 4) (arg : Nat) (fc : BitVec 4) :
    (s.ctxOf op arg).words fc = s.ctx.words fc := rfl
@[simp] theorem ctxOf_checkValid (s : State) (op : BitVec 4) (arg : Nat) (ws : List Half) (b : Byte) :
    (s.ctxOf op arg).checkValid ws b = s.ctx.checkValid ws b := rfl
@[simp] theorem ctxOf_checkGen (s : State) (op : BitVec 4) (arg : Nat) (ws : List Half) :
    (s.ctxOf op arg).checkGen ws = s.ctx.checkGen ws := rfl
theorem sees_ctxOf (s : State) (op : BitVec 4) (arg : Nat) : s.data.sees (s.ctxOf op arg) = s.levels := rfl

/-- A body that returns or raises ends its command: what the end leaves (R140, R142). -/
theorem endCommand_spec {s : State} (op : BitVec 4) (arg : Nat) (e : ErrorCode) (d : Data) :
    EndedWith s ((s.begin op (BitVec.ofNat 4 arg)).endCommand e d) op arg e
      ∧ ((s.begin op (BitVec.ofNat 4 arg)).endCommand e d).running = none
      ∧ ((s.begin op (BitVec.ofNat 4 arg)).endCommand e d).data = { d with dp := Datapath.idle, seen := [] } :=
  ⟨⟨rfl, rfl, rfl, rfl, rfl, rfl, rfl, rfl, rfl, rfl, rfl, rfl⟩, rfl, rfl⟩

/-- A body that waits leaves its command running: what STATUS then shows (R140, R301). -/
theorem settle_waiting_spec {s : State} (op : BitVec 4) (arg : Nat) (w : Wait) (d : Data) :
    WaitsWith s ((s.begin op (BitVec.ofNat 4 arg)).settle s.data.started (.waiting w d)) op arg
      ∧ ((s.begin op (BitVec.ofNat 4 arg)).settle s.data.started (.waiting w d)).running = some ⟨s.data.started, w⟩
      ∧ ((s.begin op (BitVec.ofNat 4 arg)).settle s.data.started (.waiting w d)).data = d :=
  ⟨⟨rfl, rfl, rfl, rfl, rfl, rfl, rfl, rfl, rfl, rfl⟩, rfl, rfl⟩

/-- The start checks of a legal opcode pass when QS is legal and the two configuration checks do not apply (R145, R149). -/
theorem startCheck_passes {r : Regs} (hop : illegalOp r.op = false) (hq : 0 < r.cfg.qs.toNat)
    (hn : r.op = 0xB → r.txNw.toNat ≤ 16) (hg : r.op = 0xC → r.gapMin.toNat ≤ r.gapMax.toNat) : startCheck r = none := by
  have hq' : r.cfg.qs ≠ 0 := fun h => by simp [h] at hq
  unfold startCheck
  rw [if_neg (by simp [hop]), if_neg (fun h => hq' h.2), if_neg (fun h => by have := hn h.1; omega),
    if_neg (fun h => by have := hg h.1; have := h.2; simp [BitVec.lt_def] at this; omega)]

/-- An accepted command whose checks pass comes to one of three ends, each stated in the claims' terms. -/
theorem exec_runs {i : Instr} {op : BitVec 4} {arg : Nat} {s : State} (hi : commandParts i = some (op, arg))
    (h : s.running = none) (hc : startCheck (s.ctxOf op arg).regs = none) :
    (∃ u d t, commandBody op (s.ctxOf op arg) s.data.started = .ok u d ∧ exec i s = .next t
        ∧ EndedWith s t op arg .none ∧ t.running = none ∧ t.data = { d with dp := Datapath.idle, seen := [] })
    ∨ (∃ e d t, commandBody op (s.ctxOf op arg) s.data.started = .raised e d ∧ exec i s = .next t
        ∧ EndedWith s t op arg e ∧ t.running = none ∧ t.data = { d with dp := Datapath.idle, seen := [] })
    ∨ (∃ w d t, commandBody op (s.ctxOf op arg) s.data.started = .waiting w d ∧ exec i s = .next t
        ∧ WaitsWith s t op arg ∧ t.running = some ⟨s.data.started, w⟩ ∧ t.data = d) := by
  rw [exec_command hi, startCommand_runs h hc, begin_data, begin_ctx]
  cases hb : commandBody op (s.ctxOf op arg) s.data.started with
  | ok u d =>
    obtain ⟨h1, h2, h3⟩ := endCommand_spec (s := s) op arg .none d
    exact .inl ⟨u, d, _, rfl, rfl, h1, h2, h3⟩
  | raised e d =>
    obtain ⟨h1, h2, h3⟩ := endCommand_spec (s := s) op arg e d
    exact .inr (.inl ⟨e, d, _, rfl, rfl, h1, h2, h3⟩)
  | waiting w d =>
    obtain ⟨h1, h2, h3⟩ := settle_waiting_spec (s := s) op arg w d
    exact .inr (.inr ⟨w, d, _, rfl, rfl, h1, h2, h3⟩)

/-- A body that returns. -/
theorem exec_ok {i : Instr} {op : BitVec 4} {arg : Nat} {s : State} (hi : commandParts i = some (op, arg))
    (h : s.running = none) (hc : startCheck (s.ctxOf op arg).regs = none) {u : Unit} {d : Data}
    (hb : commandBody op (s.ctxOf op arg) s.data.started = .ok u d) :
    ∃ t, exec i s = .next t ∧ EndedWith s t op arg .none ∧ t.data = { d with dp := Datapath.idle, seen := [] } := by
  rcases exec_runs hi h hc with ⟨u', d', t, e, ht, he, _, hd⟩ | ⟨e', d', t, e, _⟩ | ⟨w, d', t, e, _⟩
  · rw [hb] at e; cases e; exact ⟨t, ht, he, hd⟩
  · rw [hb] at e; cases e
  · rw [hb] at e; cases e

/-- A body that raises an error. -/
theorem exec_raised {i : Instr} {op : BitVec 4} {arg : Nat} {s : State} (hi : commandParts i = some (op, arg))
    (h : s.running = none) (hc : startCheck (s.ctxOf op arg).regs = none) {er : ErrorCode} {d : Data}
    (hb : commandBody op (s.ctxOf op arg) s.data.started = .raised er d) :
    ∃ t, exec i s = .next t ∧ EndedWith s t op arg er ∧ t.data = { d with dp := Datapath.idle, seen := [] } := by
  rcases exec_runs hi h hc with ⟨u', d', t, e, _⟩ | ⟨e', d', t, e, ht, he, _, hd⟩ | ⟨w, d', t, e, _⟩
  · rw [hb] at e; cases e
  · rw [hb] at e; cases e; exact ⟨t, ht, he, hd⟩
  · rw [hb] at e; cases e

/-- A body that waits. -/
theorem exec_waiting {i : Instr} {op : BitVec 4} {arg : Nat} {s : State} (hi : commandParts i = some (op, arg))
    (h : s.running = none) (hc : startCheck (s.ctxOf op arg).regs = none) {w : Wait} {d : Data}
    (hb : commandBody op (s.ctxOf op arg) s.data.started = .waiting w d) :
    ∃ t, exec i s = .next t ∧ WaitsWith s t op arg ∧ t.running = some ⟨s.data.started, w⟩ ∧ t.data = d := by
  rcases exec_runs hi h hc with ⟨u', d', t, e, _⟩ | ⟨e', d', t, e, _⟩ | ⟨w', d', t, e, ht, he, hr, hd⟩
  · rw [hb] at e; cases e
  · rw [hb] at e; cases e
  · rw [hb] at e; cases e; exact ⟨t, ht, he, hr, hd⟩

end Sys2Proof.Machine
end

