-- ==== Sys2Proof/Laws/PerInstr.lean ====
section
/-! SUPPORT. What holds of every instruction as syntax, one lemma per constructor: its encoding sets no bit outside the fields that the
tables of spec/30_encoding.md give its layer. -/

namespace Sys2Proof.Laws

/-- The bits the tables of a layer use: START, OP and ARG of CTRL (R100), a symbol's or a bit's two half-periods (R104, R105), the 18
half-periods of a start bit with its delimiter (R107 to R109), the 16 bits of a master word (R113). -/
def layerMask (f : Format) : Word :=
  match f with
  | .command => 0x0000F0F1
  | .lineSymbol => 0x00000003
  | .lineBit => 0x00000003
  | .lineDelimiter => 0x0003FFFF
  | .masterWord => 0x0000FFFF

/-- The encoding of `i` lies within its layer's fields. -/
def Encoding.Statement (i : Instr) : Prop := encode i &&& layerMask i.format = encode i

theorem commandWord_fields (op : BitVec 4) (a : Nat) : commandWord op a &&& 0x0000F0F1 = commandWord op a := by
  have h : ∀ op v : BitVec 4, ((0 : BitVec 16) ++ v ++ (0 : BitVec 4) ++ op ++ (1 : BitVec 4)) &&& (0x0000F0F1 : Word)
      = (0 : BitVec 16) ++ v ++ (0 : BitVec 4) ++ op ++ (1 : BitVec 4) := by decide +kernel
  exact h op (BitVec.ofNat 4 a)

theorem masterWordBits_fields (f : BitVec 4) (a : Nat) : masterWordBits f a &&& 0x0000FFFF = masterWordBits f a := by
  unfold masterWordBits
  apply BitVec.eq_of_toNat_eq
  rw [BitVec.toNat_and, BitVec.toNat_setWidth]
  have h := (masterWord f (BitVec.ofNat 12 a)).isLt
  show _ &&& 65535 = _
  rw [Nat.mod_eq_of_lt (by omega)]
  exact (Nat.and_two_pow_sub_one_eq_mod _ 16).trans (Nat.mod_eq_of_lt h)

theorem Encoding.nop (a : Nat) : Encoding.Statement (.nop a) := commandWord_fields _ a
theorem Encoding.decSymbol (a : Nat) : Encoding.Statement (.decSymbol a) := commandWord_fields _ a
theorem Encoding.decBit (a : Nat) : Encoding.Statement (.decBit a) := commandWord_fields _ a
theorem Encoding.sync (a : Nat) : Encoding.Statement (.sync a) := commandWord_fields _ a
theorem Encoding.rdMaster (a : Nat) : Encoding.Statement (.rdMaster a) := commandWord_fields _ a
theorem Encoding.rdSlave (a : Nat) : Encoding.Statement (.rdSlave a) := commandWord_fields _ a
theorem Encoding.rdTelegram (a : Nat) : Encoding.Statement (.rdTelegram a) := commandWord_fields _ a
theorem Encoding.encSymbol (a : Nat) : Encoding.Statement (.encSymbol a) := commandWord_fields _ a
theorem Encoding.encBit (a : Nat) : Encoding.Statement (.encBit a) := commandWord_fields _ a
theorem Encoding.encMaster (a : Nat) : Encoding.Statement (.encMaster a) := commandWord_fields _ a
theorem Encoding.encSlave (a : Nat) : Encoding.Statement (.encSlave a) := commandWord_fields _ a
theorem Encoding.encTelegram (a : Nat) : Encoding.Statement (.encTelegram a) := commandWord_fields _ a
theorem Encoding.illegalOp7 (a : Nat) : Encoding.Statement (.illegalOp7 a) := commandWord_fields _ a
theorem Encoding.illegalOpD (a : Nat) : Encoding.Statement (.illegalOpD a) := commandWord_fields _ a
theorem Encoding.illegalOpE (a : Nat) : Encoding.Statement (.illegalOpE a) := commandWord_fields _ a
theorem Encoding.illegalOpF (a : Nat) : Encoding.Statement (.illegalOpF a) := commandWord_fields _ a
theorem Encoding.symNl : Encoding.Statement .symNl := by unfold Encoding.Statement; decide
theorem Encoding.symZero : Encoding.Statement .symZero := by unfold Encoding.Statement; decide
theorem Encoding.symOne : Encoding.Statement .symOne := by unfold Encoding.Statement; decide
theorem Encoding.symNh : Encoding.Statement .symNh := by unfold Encoding.Statement; decide
theorem Encoding.bit0 : Encoding.Statement .bit0 := by unfold Encoding.Statement; decide
theorem Encoding.bit1 : Encoding.Statement .bit1 := by unfold Encoding.Statement; decide
theorem Encoding.startMaster : Encoding.Statement .startMaster := by unfold Encoding.Statement; decide
theorem Encoding.startSlave : Encoding.Statement .startSlave := by unfold Encoding.Statement; decide
theorem Encoding.endDelim : Encoding.Statement .endDelim := by unfold Encoding.Statement; decide
theorem Encoding.mwordFc0 (a : Nat) : Encoding.Statement (.mwordFc0 a) := masterWordBits_fields _ a
theorem Encoding.mwordFc1 (a : Nat) : Encoding.Statement (.mwordFc1 a) := masterWordBits_fields _ a
theorem Encoding.mwordFc2 (a : Nat) : Encoding.Statement (.mwordFc2 a) := masterWordBits_fields _ a
theorem Encoding.mwordFc3 (a : Nat) : Encoding.Statement (.mwordFc3 a) := masterWordBits_fields _ a
theorem Encoding.mwordFc4 (a : Nat) : Encoding.Statement (.mwordFc4 a) := masterWordBits_fields _ a
theorem Encoding.mwordFc5 (a : Nat) : Encoding.Statement (.mwordFc5 a) := masterWordBits_fields _ a
theorem Encoding.mwordFc6 (a : Nat) : Encoding.Statement (.mwordFc6 a) := masterWordBits_fields _ a
theorem Encoding.mwordFc7 (a : Nat) : Encoding.Statement (.mwordFc7 a) := masterWordBits_fields _ a
theorem Encoding.mwordFc8 (a : Nat) : Encoding.Statement (.mwordFc8 a) := masterWordBits_fields _ a
theorem Encoding.mwordFc9 (a : Nat) : Encoding.Statement (.mwordFc9 a) := masterWordBits_fields _ a
theorem Encoding.mwordFc10 (a : Nat) : Encoding.Statement (.mwordFc10 a) := masterWordBits_fields _ a
theorem Encoding.mwordFc11 (a : Nat) : Encoding.Statement (.mwordFc11 a) := masterWordBits_fields _ a
theorem Encoding.mwordFc12 (a : Nat) : Encoding.Statement (.mwordFc12 a) := masterWordBits_fields _ a
theorem Encoding.mwordFc13 (a : Nat) : Encoding.Statement (.mwordFc13 a) := masterWordBits_fields _ a
theorem Encoding.mwordFc14 (a : Nat) : Encoding.Statement (.mwordFc14 a) := masterWordBits_fields _ a
theorem Encoding.mwordFc15 (a : Nat) : Encoding.Statement (.mwordFc15 a) := masterWordBits_fields _ a

end Sys2Proof.Laws
end

