-- ==== Sys2Proof/Tests/Slice0.lean ====
section
/-! SUPPORT. Small tests, each against the spec's own words (spec/30_encoding.md, spec/95_test_vectors.md), and for each statement with
hypotheses a state and operands that meet them all. -/

namespace Sys2Proof.Machine.Tests

/-! ### Well-formedness: an ill-formed term for each check -/

theorem test_wf_refuses_arg_16 : (Instr.rdSlave 16).wf = false := by decide
theorem test_wf_accepts_arg_15 : (Instr.rdSlave 15).wf = true := by decide
theorem test_wf_refuses_addr_4096 : (Instr.mwordFc9 4096).wf = false := by decide
theorem test_wf_accepts_addr_4095 : (Instr.mwordFc9 4095).wf = true := by decide

/-! ### Decoding: every row from its bits as the tables of spec/30_encoding.md give them -/

theorem test_decode_nop : decode .command 0x00003001 = .ok (.nop 3) := by decide
theorem test_decode_decSymbol : decode .command 0xFFFF8F1F = .ok (.decSymbol 8) := by decide
theorem test_decode_decBit : decode .command 0x0000D021 = .ok (.decBit 13) := by decide
theorem test_decode_sync : decode .command 0xFFFF2F3F = .ok (.sync 2) := by decide
theorem test_decode_rdMaster : decode .command 0x00007041 = .ok (.rdMaster 7) := by decide
theorem test_decode_rdSlave : decode .command 0xFFFFCF5F = .ok (.rdSlave 12) := by decide
theorem test_decode_rdTelegram : decode .command 0x00001061 = .ok (.rdTelegram 1) := by decide
theorem test_decode_illegalOp7 : decode .command 0xFFFF6F7F = .ok (.illegalOp7 6) := by decide
theorem test_decode_encSymbol : decode .command 0x0000B081 = .ok (.encSymbol 11) := by decide
theorem test_decode_encBit : decode .command 0xFFFF0F9F = .ok (.encBit 0) := by decide
theorem test_decode_encMaster : decode .command 0x000050A1 = .ok (.encMaster 5) := by decide
theorem test_decode_encSlave : decode .command 0xFFFFAFBF = .ok (.encSlave 10) := by decide
theorem test_decode_encTelegram : decode .command 0x0000F0C1 = .ok (.encTelegram 15) := by decide
theorem test_decode_illegalOpD : decode .command 0xFFFF4FDF = .ok (.illegalOpD 4) := by decide
theorem test_decode_illegalOpE : decode .command 0x000090E1 = .ok (.illegalOpE 9) := by decide
theorem test_decode_illegalOpF : decode .command 0xFFFFEFFF = .ok (.illegalOpF 14) := by decide
theorem test_decode_no_start : decode .command 0x00003050 = .error .noStart := by decide
theorem test_decode_symNl : decode .lineSymbol 0b00 = .ok .symNl := by decide
theorem test_decode_symZero : decode .lineSymbol 0b01 = .ok .symZero := by decide
theorem test_decode_symOne : decode .lineSymbol 0b10 = .ok .symOne := by decide
theorem test_decode_symNh : decode .lineSymbol 0b11 = .ok .symNh := by decide
theorem test_decode_not_a_symbol : decode .lineSymbol 0b100 = .error .notASymbol := by decide
theorem test_decode_bit0 : decode .lineBit 0b01 = .ok .bit0 := by decide
theorem test_decode_bit1 : decode .lineBit 0b10 = .ok .bit1 := by decide
theorem test_decode_not_a_bit : decode .lineBit 0b11 = .error .notABit := by decide
/-- `HL HH LL LH HH LL LH LH LH` (R108). -/
theorem test_decode_startMaster : decode .lineDelimiter 0b10_11_00_01_11_00_01_01_01 = .ok .startMaster := by decide
/-- `HL HL HL HL LL HH HL LL HH` (R109). -/
theorem test_decode_startSlave : decode .lineDelimiter 0b10_10_10_10_00_11_10_00_11 = .ok .startSlave := by decide
/-- `LL` (R111). -/
theorem test_decode_endDelim : decode .lineDelimiter 0b00 = .ok .endDelim := by decide
theorem test_decode_not_a_delimiter : decode .lineDelimiter 0b10_11_00_01_11_00_01_01_10 = .error .notADelimiter := by decide
theorem test_decode_mwordFc0 : decode .masterWord 0x0007 = .ok (.mwordFc0 0x007) := by decide
theorem test_decode_mwordFc1 : decode .masterWord 0x112A = .ok (.mwordFc1 0x12A) := by decide
theorem test_decode_mwordFc2 : decode .masterWord 0x224D = .ok (.mwordFc2 0x24D) := by decide
theorem test_decode_mwordFc3 : decode .masterWord 0x3370 = .ok (.mwordFc3 0x370) := by decide
theorem test_decode_mwordFc4 : decode .masterWord 0x4493 = .ok (.mwordFc4 0x493) := by decide
theorem test_decode_mwordFc5 : decode .masterWord 0x55B6 = .ok (.mwordFc5 0x5B6) := by decide
theorem test_decode_mwordFc6 : decode .masterWord 0x66D9 = .ok (.mwordFc6 0x6D9) := by decide
theorem test_decode_mwordFc7 : decode .masterWord 0x77FC = .ok (.mwordFc7 0x7FC) := by decide
theorem test_decode_mwordFc8 : decode .masterWord 0x891F = .ok (.mwordFc8 0x91F) := by decide
theorem test_decode_mwordFc9 : decode .masterWord 0x9A42 = .ok (.mwordFc9 0xA42) := by decide
theorem test_decode_mwordFc10 : decode .masterWord 0xAB65 = .ok (.mwordFc10 0xB65) := by decide
theorem test_decode_mwordFc11 : decode .masterWord 0xBC88 = .ok (.mwordFc11 0xC88) := by decide
theorem test_decode_mwordFc12 : decode .masterWord 0xCDAB = .ok (.mwordFc12 0xDAB) := by decide
theorem test_decode_mwordFc13 : decode .masterWord 0xDECE = .ok (.mwordFc13 0xECE) := by decide
theorem test_decode_mwordFc14 : decode .masterWord 0xEFF1 = .ok (.mwordFc14 0xFF1) := by decide
theorem test_decode_mwordFc15 : decode .masterWord 0xF114 = .ok (.mwordFc15 0x114) := by decide
theorem test_decode_not_a_master_word : decode .masterWord 0x10000 = .error .notAMasterWord := by decide

/-- The four bytes of CTRL = 0x00003051, the lowest lane first (R83, R121). -/
theorem test_decode_bytes : decodeBytes .command [0x51, 0x30, 0x00, 0x00] = .ok (.rdSlave 3) := by decide
theorem test_decode_three_bytes : decodeBytes .command [0x51, 0x30, 0x00] = .error .tooFewBytes := by decide
theorem test_decode_five_bytes : decodeBytes .masterWord [0, 0, 0, 0, 0] = .error .tooManyBytes := by decide
theorem test_decode_table_word : decodeTableWord 16 0x3ABC = some (.mwordFc3 0xABC) := by decide

/-! ### Steps: vectors of spec/95_test_vectors.md -/

/-- The state an instruction leaves. -/
def after (i : Instr) (s : State) : State :=
  match exec i s with
  | .next t => t
  | .fault _ => s
  | .refused _ => s

/-- The state a host write leaves. -/
def written (addr v : Word) (s : State) : State :=
  match hostWrite addr v s with
  | .next t => t
  | .fault _ => s
  | .refused _ => s

/-- The reset state on an input stream. -/
def onLine (xs : List Level) (ended : Bool) : State :=
  { State.reset with data := { Data.reset with rx := { pos := 0, ahead := xs, ended := ended } } }

/-- A state with another QS. -/
def atQs (q : BitVec 8) (s : State) : State := { s with regs := { s.regs with cfg := { s.regs.cfg with qs := q } } }

/-- A state with another CheckValid; CheckGen stays the reference one. -/
def checking (f : ValidatorFn) (s : State) : State := { s with params := { s.params with validator := f } }

/-- A sample string or a waveform, first sample highest. -/
def samples {n : Nat} (v : BitVec n) : List Level := bitsMsbFirst v

/-- Eight samples at LOW: `idle(8)`. -/
def idle8 : List Level := List.replicate 8 LOW

/-- Stream M1 in half-bit periods. -/
def m1 : List Level := samples 0b10110001110001010101010101010101100101100101011010010101010101010100#68

/-- Stream S1 in half-bit periods. -/
def s1 : List Level := samples 0b10101010001110001110011001100110101010010110100110010101010101010100#68

/-- A stream at QS = 2. -/
def at2 (halves : List Level) : List Level := samplesOfHalves 2 halves

theorem test_nop_LC1 : (after (.nop 0) State.reset).status = 0x00000002 := by decide
theorem test_nop_LC4 : (after (.nop 0) (atQs 0 State.reset)).status = 0x00000002 := by decide
theorem test_illegalOp7_LC2 : (after (.illegalOp7 0) State.reset).status = 0x00000062 := by decide
theorem test_illegalOpD_LC6 : (after (.illegalOpD 0) (atQs 0 State.reset)).status = 0x00000062 := by decide
theorem test_illegalOpE : (after (.illegalOpE 0) State.reset).status = 0x00000062 := by decide
theorem test_illegalOpF_LC3 : ctrlWord (written 0 0xFFFFFFFF State.reset).regs = 0x0000F0F0 := by decide

theorem test_decSymbol_DS5 :
    let t := after (.decSymbol 0) (onLine (samples 0b00111100#8) true)
    rxResultWord t.data.res = 0x2 ∧ t.data.rx.pos = 8 := by decide +kernel
theorem test_decSymbol_DS8 :
    let t := after (.decSymbol 0) (onLine (samples 0b1111111#7) true)
    t.status = 0x00000012 ∧ t.data.rx.pos = 7 := by decide +kernel
theorem test_decBit_DB3 :
    let t := after (.decBit 0) (onLine (samples 0b11100000#8) true)
    rxResultWord t.data.res = 0x10 ∧ t.data.rx.pos = 7 := by decide +kernel
theorem test_decBit_DB5 :
    let t := after (.decBit 0) (onLine (samples 0b11111000#8) true)
    t.status = 0x00000012 ∧ t.data.rx.pos = 8 := by decide +kernel
theorem test_sync_Y1 :
    let t := after (.sync 0) (onLine (idle8 ++ (at2 m1).take 72) true)
    syncStateWord t.data.res = 0x8D ∧ t.data.rx.pos = 80 := by decide +kernel
theorem test_sync_Y5 :
    let t := after (.sync 0) (onLine (idle8 ++ (at2 m1).take 24 ++ samples 0b11110000#8 ++ ((at2 m1).drop 32).take 40) true)
    syncStateWord t.data.res = 0x2E ∧ t.data.rx.pos = 40 := by decide +kernel
theorem test_rdMaster_M1 :
    let t := after (.rdMaster 0) (onLine (idle8 ++ at2 m1) true)
    t.status = 0x00000302 ∧ rxMwordWord t.data.res = 0x123 ∧ t.data.rx.pos = 280 := by decide +kernel
theorem test_rdMaster_M4 :
    let t := after (.rdMaster 0) (checking (.exactly 0x5A) (onLine (idle8 ++ at2 m1) true))
    t.status = 0x00000342 ∧ t.data.rx.pos = 272 := by decide +kernel
theorem test_rdSlave_S1 :
    let t := after (.rdSlave 0) (onLine (idle8 ++ at2 s1) true)
    rxScntWord t.data.res = 0x00010101 ∧ t.data.res.sword[0] = 0xABCD ∧ t.data.rx.pos = 280 := by decide +kernel
theorem test_rdSlave_S6 :
    let t := after (.rdSlave 5) (onLine (idle8 ++ at2 s1) true)
    t.status = 0x00000252 ∧ t.data.rx.pos = 88 := by decide +kernel
theorem test_rdTelegram_T1 :
    let t := after (.rdTelegram 0) (onLine (idle8 ++ at2 m1 ++ idle8 ++ at2 s1) true)
    t.status = 0x00000202 ∧ t.data.res.sword[0] = 0xABCD ∧ t.data.rx.pos = 560 := by decide +kernel
theorem test_rdTelegram_T5 :
    let t := after (.rdTelegram 0) (onLine (idle8 ++ at2 m1 ++ idle8 ++ at2 m1) true)
    t.status = 0x00000332 ∧ rxScntWord t.data.res = 0x00000100 ∧ t.data.rx.pos = 360 := by decide +kernel
theorem test_encSymbol_N5 : (after (.encSymbol 7) State.reset).data.tx.out = samples 0b11111111#8 := by decide +kernel
theorem test_encBit_N8 : (after (.encBit 2) State.reset).data.tx.out = samples 0b00001111#8 := by decide +kernel
theorem test_encMaster_N9 :
    (after (.encMaster 0) (written 0x080 0x0123 State.reset)).data.tx.out = at2 m1 := by decide +kernel
/-- The reference CheckGen beside the CheckValid of M4: TX_CHK is sent (R8, R224). -/
theorem test_encMaster_checkGen_is_apart :
    (after (.encMaster 0) (checking (.exactly 0x5A) (written 0x080 0x0123 State.reset))).data.tx.out = at2 m1 := by decide +kernel
theorem test_encSlave_N10 :
    (after (.encSlave 0) (written 0x084 1 (written 0x0C0 0xABCD State.reset))).data.tx.out = at2 s1 := by decide +kernel
theorem test_encSlave_N12 : (after (.encSlave 0) (written 0x084 17 State.reset)).status = 0x00000072 := by decide +kernel
theorem test_encTelegram_N13 :
    (after (.encTelegram 0) (written 0x088 0x00080008 (written 0x080 0x0123 (written 0x0C0 0xABCD State.reset)))).data.tx.out
      = at2 m1 ++ idle8 ++ at2 s1 := by decide +kernel
theorem test_encTelegram_N14 :
    let t := after (.encTelegram 0) (written 0x088 0x00080008 (written 0x080 0x5000 (written 0x004 0x402 State.reset)))
    t.status = 0x00000402 ∧ t.data.tx.count = 280 := by decide +kernel

/-- Vectors LC9 to LC11: a command that waits, a write and a START while it runs, and the W1C write. -/
theorem test_busy_LC11 :
    let t := written 0x000 0x00000011 (written 0x08C 0x55 (after (.rdMaster 0) State.reset))
    t.status = 0x00030001 ∧ ctrlWord t.regs = 0x40 ∧ (written 0x008 0x00030000 t).status = 0x00000001 := by decide +kernel
theorem test_irq_IR1 : (after (.nop 0) (written 0x004 0x802 State.reset)).irq = true := by decide
theorem test_irq_IR2 : (written 0x008 0x2 (after (.nop 0) (written 0x004 0x802 State.reset))).irq = false := by decide
theorem test_unaligned_write_MM4 : (written 0x0C2 0xABCD State.reset).regs.txSword[0] = 0xABCD := by decide

/-- The line rows put the waveforms of R104 to R109 and R113 on the line: M1 is START_MASTER, MWORD_FC0 0x123, eight BIT_0, END. -/
theorem test_line_rows_make_M1 :
    ([Instr.startMaster, .mwordFc0 0x123, .bit0, .bit0, .bit0, .bit0, .bit0, .bit0, .bit0, .bit0, .endDelim].foldl
      (fun s i => after i s) State.reset).data.rx.ahead = at2 m1 := by decide +kernel
/-- The symbol rows, as vectors X4 and N1 to N4 write them. -/
theorem test_line_rows_make_symbols :
    ([Instr.symNl, .symZero, .symOne, .symNh, .bit1].foldl (fun s i => after i s) State.reset).data.rx.ahead
      = samples 0b0000000000001111111100001111111111110000#40 := by decide +kernel
/-- Stream S1's start, from the row (Part 1 of the vectors). -/
theorem test_startSlave_row : (after .startSlave State.reset).data.rx.ahead = (at2 s1).take 72 := by decide +kernel
/-- A waiting RD_MASTER goes on as the line carries its frame. -/
theorem test_rdMaster_goes_on :
    let s := after (.rdMaster 0) State.reset
    let t := [Instr.startMaster, .mwordFc0 0x123, .bit0, .bit0, .bit0, .bit0, .bit0, .bit0, .bit0, .bit0, .endDelim].foldl
      (fun s i => after i s) s
    t.status = 0x00000302 ∧ rxMwordWord t.data.res = 0x123 := by decide +kernel
/-- A master word's row carries its function code first, each 1 as `HL` and each 0 as `LH` (R82, R105, R113). -/
theorem test_mword_rows_lead_with_the_function_code :
    ([Instr.mwordFc1 0, .mwordFc2 0, .mwordFc3 0, .mwordFc4 0, .mwordFc5 0, .mwordFc6 0, .mwordFc7 0, .mwordFc8 0, .mwordFc9 0,
        .mwordFc10 0, .mwordFc11 0, .mwordFc12 0, .mwordFc13 0, .mwordFc14 0, .mwordFc15 0].map
      fun i => (after i (atQs 1 State.reset)).data.rx.ahead.take 16)
      = [samples 0b0011001100111100#16, samples 0b0011001111000011#16, samples 0b0011001111001100#16, samples 0b0011110000110011#16,
          samples 0b0011110000111100#16, samples 0b0011110011000011#16, samples 0b0011110011001100#16, samples 0b1100001100110011#16,
          samples 0b1100001100111100#16, samples 0b1100001111000011#16, samples 0b1100001111001100#16, samples 0b1100110000110011#16,
          samples 0b1100110000111100#16, samples 0b1100110011000011#16, samples 0b1100110011001100#16] := by decide +kernel

/-! ### A state and operands for the hypotheses of each statement -/

/-- A core at QS = 1 on a line. -/
def line (xs : List Level) (ended : Bool) : State := atQs 1 (onLine xs ended)

/-- A waveform at QS = 1. -/
def at1 (halves : List Level) : List Level := samplesOfHalves 1 halves

/-- A core whose DEC_BIT waits, two samples in. -/
def waitingBit : State := after (.decBit 0) (line [HIGH, HIGH] false)

theorem test_witness_EncodedInstructionsDecodeBack : (Instr.encTelegram 15).wf = true ∧ (Instr.mwordFc15 4095).wf = true := by
  decide
theorem test_witness_LineDecodingIsExact : Format.masterWord ≠ .command ∧ decode .masterWord 0xFFFF = .ok (.mwordFc15 4095) := by
  decide
theorem test_witness_CtrlWriteStartsTheNamedCommand :
    State.reset.portOffset 0x003 = some 3 ∧ alignOffset 3 = 0x000 ∧ (0x00003051 : Word).getLsbD 0 = true
      ∧ (0xFFFF3F5F : Word) &&& 0x0000F0F1#32 = 0x00003051 &&& 0x0000F0F1#32 := by decide
theorem test_witness_NopCompletes : State.reset.running = none := by decide
theorem test_witness_IllegalOpcodesEndTheCommand : (atQs 0 State.reset).running = none := by decide
theorem test_witness_IllegalConfiguration_qs :
    commandParts (.decSymbol 0) = some (0x1, 0) ∧ (atQs 0 State.reset).running = none
      ∧ 0x1#4 ∉ [0x0#4, 0x7#4, 0xD#4, 0xE#4, 0xF#4] ∧ (atQs 0 State.reset).regs.cfg.qs = 0 := by decide
theorem test_witness_IllegalConfiguration_txNw :
    let s := written 0x084 17 State.reset
    commandParts (.encSlave 0) = some (0xB, 0) ∧ s.running = none ∧ 0xB#4 ∉ [0x0#4, 0x7#4, 0xD#4, 0xE#4, 0xF#4]
      ∧ 16 < s.regs.txNw.toNat := by decide
theorem test_witness_IllegalConfiguration_gap :
    let s := written 0x088 0x00080009 State.reset
    commandParts (.encTelegram 0) = some (0xC, 0) ∧ s.running = none ∧ 0xC#4 ∉ [0x0#4, 0x7#4, 0xD#4, 0xE#4, 0xF#4]
      ∧ s.regs.gapMax.toNat < s.regs.gapMin.toNat := by decide
theorem test_witness_BusyCommandsAreRejected : commandParts (.nop 0) = some (0x0, 0) ∧ waitingBit.busy = true := by decide
theorem test_witness_BusyWritesAreIgnored :
    waitingBit.busy = true ∧ waitingBit.portOffset 0x0FF = some 0x0FF ∧ (writableMask (alignOffset 0x0FF)).isSome = true := by
  decide
theorem test_witness_BusyWritesAreIgnored_ctrl :
    waitingBit.busy = true ∧ waitingBit.portOffset 0x000 = some 0x000 ∧ (writableMask (alignOffset 0x000)).isSome = true := by
  decide
theorem test_witness_BusyWritesAreIgnored_status :
    waitingBit.busy = true ∧ waitingBit.portOffset 0x00B = some 0x00B ∧ alignOffset 0x00B = 0x008 := by decide
theorem test_witness_EveryAcceptedCommandEndsOrWaits :
    commandParts (.rdTelegram 9) = some (0x6, 9) ∧ State.reset.running = none := by decide
theorem test_witness_WritableRegistersReadBack :
    State.reset.portOffset 0x0C0 = some 0x0C0 ∧ State.reset.running = none ∧ writableMask (alignOffset 0x0C0) = some 0x0000FFFF
      ∧ (alignOffset 0x0C0 = 0x000 → (0xFFFFFFFF : Word).getLsbD 0 = false) := by decide
theorem test_witness_WritableRegistersReadBack_ctrl :
    State.reset.portOffset 0x000 = some 0x000 ∧ State.reset.running = none ∧ writableMask (alignOffset 0x000) = some 0x0000F0F0
      ∧ (alignOffset 0x000 = 0x000 → (0x00003050 : Word).getLsbD 0 = false) := by decide
theorem test_witness_StatusWriteClearsOnlyItsBits :
    waitingBit.portOffset 0x008 = some 0x008 ∧ alignOffset 0x008 = 0x008 := by decide
theorem test_witness_ReservedOffsets :
    State.reset.portOffset 0xFFF = some 0xFFF ∧ alignOffset 0xFFF ∉ mappedOffsets ∧ alignOffset 0xFFF ≠ 0x008
      ∧ writableMask (alignOffset 0xFFF) = none := by decide +kernel
theorem test_witness_ReadOnlyOffsets :
    State.reset.portOffset 0x13C = some 0x13C ∧ alignOffset 0x13C ≠ 0x008 ∧ writableMask (alignOffset 0x13C) = none := by decide
theorem test_witness_IdleReads : State.reset.running = none ∧ State.reset.portOffset 0xFFF = some 0xFFF := by decide
theorem test_witness_IdleReads_outside : State.reset.running = none ∧ State.reset.portOffset 0x1000 = none := by decide

/-- The running command's own record in `waitingBit`. -/
def waitingRecord : Running :=
  { start := { rx := { pos := 0, ahead := [HIGH, HIGH], ended := false }, tx := { count := 0, out := [], limit := none },
               res := Results.reset, dp := Datapath.idle, seen := [Results.reset], gapDraws := 0 }
    wait := .look }

/-- The invariant holds of a core whose DEC_BIT waits. -/
theorem test_waitingBit_inv : Inv waitingBit := by
  have hrun : waitingBit.running = some waitingRecord := by decide +kernel
  refine ⟨by decide +kernel, ?_, ⟨by decide, ?_⟩, ?_, ?_⟩
  · exact ⟨by decide, by decide, by decide, by decide, by decide, by decide⟩
  · intro lim h
    rw [show waitingBit.data.tx.limit = none by decide] at h
    cases h
  · intro h; exact absurd h (by decide)
  · intro r h
    rw [hrun] at h
    obtain rfl := Option.some.inj h
    exact ⟨by decide, by decide, by decide, ⟨by decide, by decide, by decide, by decide, by decide, by decide⟩,
      ⟨by decide, fun lim h => absurd h (by simp [waitingRecord])⟩, by decide, by decide,
      by decide +kernel⟩

theorem test_witness_BusyReadsReturnAHeldValue :
    Inv waitingBit ∧ (∃ r, waitingBit.running = some r) ∧ waitingBit.portOffset 0x010 = some 0x010 :=
  ⟨test_waitingBit_inv, ⟨_, rfl⟩, by decide⟩
theorem test_witness_InterruptFollowsDone :
    commandParts (.nop 1) = some (0x0, 1) ∧ State.reset.running = none ∧ ∃ t, exec (.nop 1) State.reset = .next t :=
  ⟨rfl, rfl, _, rfl⟩
theorem test_witness_InterruptFollowsDone_writes :
    State.reset.portOffset 0x008 = some 0x008 ∧ alignOffset 0x008 = 0x008 ∧ (0x00000002 : Word).getLsbD 1 = true
      ∧ State.reset.portOffset 0x007 = some 0x007 ∧ alignOffset 0x007 = 0x004 ∧ State.reset.running = none
      ∧ (0x000007FF : Word).getLsbD 11 = false := by decide
theorem test_witness_DecSymbolRuns :
    let s := line [HIGH, HIGH, LOW, LOW] true
    s.running = none ∧ 0 < s.ctx.qs ∧ 4 * s.ctx.qs ≤ s.data.rx.ahead.length := by decide
theorem test_witness_DecSymbolRuns_ended :
    let s := line [HIGH, HIGH, LOW] true
    s.running = none ∧ 0 < s.ctx.qs ∧ s.data.rx.ahead.length < 4 * s.ctx.qs ∧ s.data.rx.ended = true := by decide
theorem test_witness_DecSymbolRuns_waiting :
    let s := line [HIGH, HIGH, LOW] false
    s.running = none ∧ 0 < s.ctx.qs ∧ s.data.rx.ahead.length < 4 * s.ctx.qs ∧ s.data.rx.ended = false := by decide
theorem test_witness_DecBitRuns :
    let s := line [HIGH, HIGH, LOW, LOW] true
    s.running = none ∧ 0 < s.ctx.qs ∧ s.edgeAt 2 ∧ 2 + 2 * s.ctx.qs ≤ s.data.rx.ahead.length := by
  refine ⟨by decide, by decide, ⟨by decide, HIGH, by decide, by decide, fun i h1 h2 => ?_⟩, by decide⟩
  have h1' : 1 ≤ i := h1
  obtain rfl : i = 1 := by omega
  decide
/-- Neither an ended nor an open stream of equal samples holds an edge. -/
theorem test_witness_DecBitRuns_no_edge (ended : Bool) :
    let s := line [HIGH, HIGH] ended
    s.running = none ∧ 0 < s.ctx.qs ∧ (∀ e, s.edgeAt e → s.data.rx.ahead.length < e + 2 * s.ctx.qs)
      ∧ s.data.rx.ended = ended := by
  refine ⟨rfl, by cases ended <;> decide, fun e h => ?_, rfl⟩
  show 2 < e + 2 * 1
  have : 1 ≤ e := h.1
  omega
theorem test_witness_DecodingInvertsEncoding :
    0 < State.reset.ctx.qs ∧ State.reset.data.tx.limit = none ∧ 0 < (line [] true).ctx.qs := by decide
theorem test_witness_SyncReadsATimedStart :
    let s := line (List.replicate 3 HIGH ++ at1 (halvesOfStart true) ++ [HIGH]) true
    s.running = none ∧ 0 < s.ctx.qs
      ∧ s.levels = List.replicate 3 HIGH ++ samplesOfHalves s.ctx.qs (halvesOfStart true) ++ [HIGH] := by decide +kernel
theorem test_witness_SyncStopsAtTheFirstMismatch_first :
    let s := line (at1 [HIGH, LOW, LOW, LOW]) true
    s.running = none ∧ 0 < s.ctx.qs ∧ (delimiterOf true)[0]? = some (.sym .nh) ∧ Element.misses (.sym .nh) (.sym .nl) = true
      ∧ s.levels = List.replicate 0 LOW ++ samplesOfHalves s.ctx.qs
        (halvesOfBit true ++ ((delimiterOf true).take 0).flatMap halvesOfElement ++ halvesOfElement (.sym .nl)) ++ [] := by
  decide +kernel
theorem test_witness_SyncStopsAtTheFirstMismatch_last :
    let s := line (at1 (halvesOfBit true ++ ((delimiterOf false).take 7).flatMap halvesOfElement ++ [HIGH, LOW]) ++ [LOW]) false
    s.running = none ∧ 0 < s.ctx.qs ∧ (delimiterOf false)[7]? = some (.sym .nh) ∧ Element.misses (.sym .nh) (.sym .one) = true
      ∧ s.levels = List.replicate 0 LOW ++ samplesOfHalves s.ctx.qs
        (halvesOfBit true ++ ((delimiterOf false).take 7).flatMap halvesOfElement ++ halvesOfElement (.sym .one)) ++ [LOW] := by
  decide +kernel
theorem test_witness_SyncOutcomeIsRecorded_error :
    let s := line [] true
    s.running = none ∧ 0 < s.ctx.qs ∧ ∃ t, exec (.sync 0) s = .next t ∧ t.running = none ∧ t.err ≠ .none :=
  ⟨rfl, by decide, _, rfl, by decide, by decide⟩
theorem test_witness_SyncOutcomeIsRecorded_synced :
    let s := line (at1 (halvesOfStart false)) true
    s.running = none ∧ 0 < s.ctx.qs ∧ ∃ t, exec (.sync 0) s = .next t ∧ t.running = none ∧ t.err = .none :=
  ⟨rfl, by decide, _, rfl, by decide +kernel, by decide +kernel⟩
theorem test_witness_SyncOutcomeIsRecorded_waiting :
    let s := line [] false
    s.running = none ∧ 0 < s.ctx.qs ∧ ∃ t, exec (.sync 0) s = .next t ∧ t.running.isSome = true :=
  ⟨rfl, by decide, _, rfl, by decide⟩
theorem test_witness_EndOfSignalMeansExhausted :
    let s := line [HIGH] true
    s.running = none ∧ ∃ t, exec (.rdSlave 0) s = .next t ∧ t.running = none ∧ t.err = .endOfSignal :=
  ⟨rfl, _, rfl, by decide, by decide⟩
theorem test_witness_EndOfSignalMeansExhausted_at_the_end :
    let s := line [] true
    s.running = none ∧ 0 < s.ctx.qs ∧ s.data.rx.ended = true ∧ s.data.rx.ahead = [] := by decide
theorem test_witness_RdMasterReadsAMasterFrame :
    let s := line (at1 (halvesOfMasterFrame 0x0123 0xA5)) true
    s.running = none ∧ 0 < s.ctx.qs ∧ s.ctx.checkValid [0x0123] 0xA5 = true
      ∧ s.levels = List.replicate 0 LOW ++ samplesOfHalves s.ctx.qs (halvesOfMasterFrame 0x0123 0xA5) ++ [] := by decide +kernel
theorem test_witness_RdMasterErrors_role :
    let s := line (LOW :: at1 (halvesOfStart false)) true
    s.running = none ∧ 0 < s.ctx.qs
      ∧ s.levels = List.replicate 1 LOW ++ samplesOfHalves s.ctx.qs (halvesOfStart false) ++ [] := by decide +kernel
theorem test_witness_RdMasterErrors_check :
    let s := checking (.exactly 0x5A) (line (at1 (halvesOfStart true ++ halvesOfField 0x0123#16 ++ halvesOfField 0x5B#8)) true)
    s.running = none ∧ 0 < s.ctx.qs ∧ s.ctx.checkValid [0x0123] 0x5B = false
      ∧ s.levels = List.replicate 0 LOW
        ++ samplesOfHalves s.ctx.qs (halvesOfStart true ++ halvesOfField 0x0123#16 ++ halvesOfField 0x5B#8) ++ [] := by
  decide +kernel
theorem test_witness_RdMasterErrors_end :
    let s := line (at1 (halvesOfStart true ++ halvesOfField 0x0123#16 ++ halvesOfField 0x5B#8 ++ halvesOfSymbol .nh)) true
    s.running = none ∧ 0 < s.ctx.qs ∧ Symbol.nh ≠ .nl ∧ s.ctx.checkValid [0x0123] 0x5B = true
      ∧ s.levels = List.replicate 0 LOW ++ samplesOfHalves s.ctx.qs
        (halvesOfStart true ++ halvesOfField 0x0123#16 ++ halvesOfField 0x5B#8 ++ halvesOfSymbol .nh) ++ [] := by decide +kernel

/-- Two words and their check byte: the one chunk of function code 1. -/
def pair : List (List Half × Byte) := [([0x1111, 0x2222], 0x77)]

theorem test_witness_RdSlaveReadsASlaveFrame :
    let s := line (at1 (halvesOfSlaveFrame pair)) true
    s.running = none ∧ 0 < s.ctx.qs ∧ 2 = s.ctx.words (BitVec.ofNat 4 1) ∧ 2 ≤ 16
      ∧ (pair.map fun ch => ch.1.length) = chunkSizes 2 ∧ (∀ ch ∈ pair, s.ctx.checkValid ch.1 ch.2 = true)
      ∧ s.levels = List.replicate 0 LOW ++ samplesOfHalves s.ctx.qs (halvesOfSlaveFrame pair) ++ [] := by decide +kernel
/-- The empty slave frame of a reserved function code, and sixteen words. -/
theorem test_witness_RdSlaveReadsASlaveFrame_bounds :
    (State.reset.ctx.words (BitVec.ofNat 4 5) = 0 ∧ chunkSizes 0 = [])
      ∧ State.reset.ctx.words (BitVec.ofNat 4 4) = 16 ∧ chunkSizes 16 = [4, 4, 4, 4] := by decide +kernel
theorem test_witness_RdSlaveErrors_role :
    let s := line (at1 (halvesOfStart true)) true
    s.running = none ∧ 0 < s.ctx.qs ∧ 2 = s.ctx.words (BitVec.ofNat 4 1)
      ∧ s.levels = List.replicate 0 LOW ++ samplesOfHalves s.ctx.qs (halvesOfStart true) ++ [] := by decide +kernel
theorem test_witness_RdSlaveErrors_check :
    let s := checking (.exactly 0x5A) (line (at1 (halvesOfStart false ++ ([] ++ pair).flatMap halvesOfChunk)) true)
    s.running = none ∧ 0 < s.ctx.qs ∧ 2 = s.ctx.words (BitVec.ofNat 4 1)
      ∧ (([] ++ pair).map fun (ch : List Half × Byte) => ch.1.length) = (chunkSizes 2).take 1 ∧ s.ctx.checkValid [0x1111, 0x2222] 0x77 = false
      ∧ s.levels = List.replicate 0 LOW
        ++ samplesOfHalves s.ctx.qs (halvesOfStart false ++ ([] ++ pair).flatMap halvesOfChunk) ++ [] := by decide +kernel
/-- Vector S5: eight words whose first chunk alone CheckValid accepts. -/
theorem test_witness_RdSlaveErrors_second_check :
    let good : List (List Half × Byte) := [([1, 2, 3, 4], 0x10)]
    let bad : List Half × Byte := ([5, 6, 7, 8], 0x20)
    let s := checking (.only good) (line (at1 (halvesOfStart false ++ (good ++ [bad]).flatMap halvesOfChunk)) true)
    s.running = none ∧ 0 < s.ctx.qs ∧ 8 = s.ctx.words (BitVec.ofNat 4 3) ∧ (∀ ch ∈ good, s.ctx.checkValid ch.1 ch.2 = true)
      ∧ ((good ++ [bad]).map fun (ch : List Half × Byte) => ch.1.length) = (chunkSizes 8).take (good.length + 1)
      ∧ s.ctx.checkValid bad.1 bad.2 = false
      ∧ s.levels = List.replicate 0 LOW
        ++ samplesOfHalves s.ctx.qs (halvesOfStart false ++ (good ++ [bad]).flatMap halvesOfChunk) ++ []
      ∧ (after (.rdSlave 3) s).status = 0x00000242 ∧ rxScntWord (after (.rdSlave 3) s).data.res = 0x00020808 := by decide +kernel
theorem test_witness_RdSlaveErrors_end :
    let s := line (at1 (halvesOfStart false ++ pair.flatMap halvesOfChunk ++ halvesOfSymbol .one)) true
    s.running = none ∧ 0 < s.ctx.qs ∧ 2 = s.ctx.words (BitVec.ofNat 4 1) ∧ Symbol.one ≠ .nl
      ∧ (pair.map fun ch => ch.1.length) = chunkSizes 2 ∧ (∀ ch ∈ pair, s.ctx.checkValid ch.1 ch.2 = true)
      ∧ s.levels = List.replicate 0 LOW
        ++ samplesOfHalves s.ctx.qs (halvesOfStart false ++ pair.flatMap halvesOfChunk ++ halvesOfSymbol .one) ++ [] := by
  decide +kernel
theorem test_witness_RdTelegramReadsATelegram :
    let s := line (at1 (halvesOfMasterFrame 0x1042 0x00) ++ [HIGH] ++ at1 (halvesOfSlaveFrame pair)) true
    s.running = none ∧ 0 < s.ctx.qs ∧ 2 = s.ctx.words (wordFcode 0x1042) ∧ s.ctx.checkValid [0x1042] 0x00 = true
      ∧ ¬(s.regs.cfg.slavePolicy = true ∧ (s.ctx.entry (wordFcode 0x1042)).size = 0)
      ∧ (pair.map fun ch => ch.1.length) = chunkSizes 2 ∧ (∀ ch ∈ pair, s.ctx.checkValid ch.1 ch.2 = true)
      ∧ s.levels = List.replicate 0 LOW ++ samplesOfHalves s.ctx.qs (halvesOfMasterFrame 0x1042 0x00) ++ List.replicate 1 HIGH
        ++ samplesOfHalves s.ctx.qs (halvesOfSlaveFrame pair) ++ [] := by decide +kernel
theorem test_witness_RdTelegramReadsATelegram_skipped :
    let s := written 0x004 0x401 (onLine (at1 (halvesOfMasterFrame 0x5000 0x00)) true)
    s.running = none ∧ 0 < s.ctx.qs ∧ 0 = s.ctx.words (wordFcode 0x5000) ∧ s.ctx.checkValid [0x5000] 0x00 = true
      ∧ (s.regs.cfg.slavePolicy = true ∧ (s.ctx.entry (wordFcode 0x5000)).size = 0)
      ∧ s.levels = List.replicate 0 LOW ++ samplesOfHalves s.ctx.qs (halvesOfMasterFrame 0x5000 0x00) ++ [] := by decide +kernel
theorem test_witness_RdTelegramStopsOnAMasterError :
    let s := line [HIGH] true
    s.running = none ∧ ∃ m, exec (.rdMaster 0) s = .next m ∧ m.running = none ∧ m.err ≠ .none :=
  ⟨rfl, _, rfl, by decide, by decide⟩
theorem test_witness_RdTelegramStopsOnAMasterError_waiting :
    let s := line [HIGH] false
    s.running = none ∧ ∃ m, exec (.rdMaster 0) s = .next m ∧ m.running.isSome = true :=
  ⟨rfl, _, rfl, by decide⟩

theorem exec_eq_after (i : Instr) (s : State) : exec i s = .next (after i s) := by cases i <;> rfl

/-- A state that meets the hypotheses of `RdTelegramReadsTheSlaveFrameAsRdSlave`, whose slave read ends or waits as said. -/
def slavePartGives (s : State) (busy : Bool) (e : ErrorCode) : Prop :=
  let m := after (.rdMaster 0) s
  let u := after (.rdSlave (wordFcode m.data.res.mword).toNat) m
  s.running = none ∧ m.running = none ∧ m.err = .none
    ∧ ¬(s.regs.cfg.slavePolicy = true ∧ (s.ctx.entry (wordFcode m.data.res.mword)).size = 0)
    ∧ u.running.isSome = busy ∧ u.err = e ∧ exec (.rdMaster 0) s = .next m
    ∧ exec (.rdSlave (wordFcode m.data.res.mword).toNat) m = .next u

/-- A line with the master frame of word 0x0123, on which CheckValid accepts that frame's check byte only. -/
def masterThen (xs : List Level) (ended : Bool) : State :=
  checking (.only [([0x0123], 0x00)]) (line (at1 (halvesOfMasterFrame 0x0123 0x00) ++ xs) ended)

theorem test_witness_RdTelegramReadsTheSlaveFrame_role :
    slavePartGives (masterThen (LOW :: at1 (halvesOfStart true)) true) false .unexpectedRole := by
  refine ⟨rfl, ?_, ?_, ?_, ?_, ?_, exec_eq_after _ _, exec_eq_after _ _⟩ <;> decide +kernel
theorem test_witness_RdTelegramReadsTheSlaveFrame_check :
    slavePartGives (masterThen (at1 (halvesOfStart false ++ halvesOfChunk ([0xABCD], 0x00))) true) false .checkSequenceMismatch := by
  refine ⟨rfl, ?_, ?_, ?_, ?_, ?_, exec_eq_after _ _, exec_eq_after _ _⟩ <;> decide +kernel
theorem test_witness_RdTelegramReadsTheSlaveFrame_end :
    slavePartGives (line (at1 (halvesOfMasterFrame 0x5123 0x00 ++ halvesOfStart false ++ halvesOfSymbol .nh)) true) false
      .invalidEndDelimiter := by
  refine ⟨rfl, ?_, ?_, ?_, ?_, ?_, exec_eq_after _ _, exec_eq_after _ _⟩ <;> decide +kernel
theorem test_witness_RdTelegramReadsTheSlaveFrame_waiting :
    slavePartGives (masterThen (at1 (halvesOfStart false)) false) true .none := by
  refine ⟨rfl, ?_, ?_, ?_, ?_, ?_, exec_eq_after _ _, exec_eq_after _ _⟩ <;> decide +kernel

/-- A sender of the telegram 0x0123, 0xABCD at QS = 1, without a gap. -/
def sender : State := atQs 1 (written 0x080 0x0123 (written 0x0C0 0xABCD State.reset))

/-- What it sends: the first sample after, and the rest. -/
def sent : List Level := (after (.encTelegram 0) sender).data.tx.out

theorem test_witness_TelegramRoundTrip :
    sender.running = none ∧ (line ([LOW] ++ sent) true).running = none ∧ 0 < sender.ctx.qs
      ∧ sender.regs.gapMin.toNat ≤ sender.regs.gapMax.toNat ∧ sender.data.tx.limit = none ∧ sender.params.fctOk = true
      ∧ (line ([LOW] ++ sent) true).regs.cfg = sender.regs.cfg ∧ (line ([LOW] ++ sent) true).params = sender.params
      ∧ (∀ ws, (line ([LOW] ++ sent) true).ctx.checkValid ws (sender.ctx.checkGen ws) = true)
      ∧ exec (.encTelegram 0) sender = .next (after (.encTelegram 0) sender)
      ∧ (after (.encTelegram 0) sender).data.tx.out = sender.data.tx.out ++ sent
      ∧ (line ([LOW] ++ sent) true).levels = List.replicate 1 LOW ++ sent :=
  ⟨rfl, rfl, by decide, by decide, rfl, by decide +kernel, rfl, rfl, fun _ => rfl, exec_eq_after _ _, by decide +kernel,
    by decide +kernel⟩
theorem test_witness_TruncatedFrames_master :
    let s := line ((LOW :: at1 (halvesOfMasterFrame 0x0123 0xA5)).take 133) true
    s.running = none ∧ 0 < s.ctx.qs ∧ s.data.rx.ended = true ∧ s.ctx.checkValid [0x0123] 0xA5 = true ∧ 133 ≤ 1 + 132 * s.ctx.qs
      ∧ s.levels = (List.replicate 1 LOW ++ samplesOfHalves s.ctx.qs (halvesOfMasterFrame 0x0123 0xA5)).take 133 := by
  decide +kernel
theorem test_witness_TruncatedFrames_slave :
    let s := line ((LOW :: at1 (halvesOfSlaveFrame pair)).take 197) true
    s.running = none ∧ 0 < s.ctx.qs ∧ s.data.rx.ended = true ∧ 2 = s.ctx.words (BitVec.ofNat 4 1)
      ∧ (pair.map fun ch => ch.1.length) = chunkSizes 2 ∧ (∀ ch ∈ pair, s.ctx.checkValid ch.1 ch.2 = true)
      ∧ 197 ≤ 1 + (9 + 16 * 2 + 8 * ((2 + 3) / 4)) * (4 * s.ctx.qs)
      ∧ s.levels = (List.replicate 1 LOW ++ samplesOfHalves s.ctx.qs (halvesOfSlaveFrame pair)).take 197 := by decide +kernel
theorem test_witness_encoders :
    sender.running = none ∧ 0 < sender.ctx.qs ∧ sender.data.tx.limit = none := by decide
theorem test_witness_EncSlaveEmitsASlaveFrame :
    let s := written 0x084 16 sender
    s.running = none ∧ 0 < s.ctx.qs ∧ s.data.tx.limit = none ∧ 16 = s.regs.txNw.toNat ∧ 16 ≤ 16 := by decide
theorem test_witness_EncTelegramEmitsATelegram :
    sender.running = none ∧ 0 < sender.ctx.qs ∧ sender.data.tx.limit = none
      ∧ sender.regs.gapMin.toNat ≤ sender.regs.gapMax.toNat ∧ 1 = sender.ctx.words (wordFcode sender.regs.txMword) := by
  decide +kernel
theorem test_witness_EncTelegramEmitsATelegram_gap :
    let s := atQs 1 (written 0x004 0x402 (written 0x088 0x00080000 (written 0x080 0x5000 State.reset)))
    s.running = none ∧ 0 < s.ctx.qs ∧ s.data.tx.limit = none ∧ s.regs.gapMin.toNat ≤ s.regs.gapMax.toNat
      ∧ 0 = s.ctx.words (wordFcode s.regs.txMword) := by decide +kernel
theorem test_witness_EncodersRaiseNoStreamError :
    sender.running = none ∧ (∃ t, exec (.nop 0) sender = .next t) ∧ ∃ t, exec (.encBit 1) sender = .next t :=
  ⟨rfl, ⟨_, rfl⟩, _, rfl⟩
theorem test_witness_SinkPaceDoesNotMatter :
    let s := sender.setLimit (some 3)
    commandParts (.encBit 1) = some (0x9, 1) ∧ s.running = none ∧ (∃ t, exec (.encBit 1) s = .next t)
      ∧ (∃ u, exec (.encBit 1) (s.setLimit none) = .next u) ∧ s.data.tx.limit = some 3 :=
  ⟨rfl, rfl, ⟨_, rfl⟩, ⟨_, rfl⟩, rfl⟩
theorem test_witness_LineElementsArePresented :
    ((line [] false).running = none ∧ (line [] false).data.rx.ended = false) ∧ (line [] true).data.rx.ended = true := by decide
theorem test_witness_MasterWordsArePresented :
    4095 < 4096 ∧ ((line [] false).running = none ∧ (line [] false).data.rx.ended = false)
      ∧ (line [] true).data.rx.ended = true := by decide
theorem test_witness_SyncFedAStartSelectsItsRole :
    let s := line [] false
    s.running = none ∧ 0 < s.ctx.qs ∧ s.regs.cfg.rxInvert = false ∧ s.data.rx.ahead = [] ∧ s.data.rx.ended = false := by decide
theorem test_witness_MasterFrameArrivesElementByElement :
    let s := checking (.exactly 0x5A) (line [] false)
    s.running = none ∧ 0 < s.ctx.qs ∧ s.regs.cfg.rxInvert = false ∧ s.data.rx.ahead = [] ∧ s.data.rx.ended = false
      ∧ s.ctx.checkValid [0xF#4 ++ 0xFFF#12] 0x5A = true := by decide
theorem test_witness_ArrivalTimeDoesNotMatter :
    let s := line [HIGH] false
    commandParts (.decSymbol 2) = some (0x1, 2) ∧ s.running = none ∧ s.data.rx.ended = false
      ∧ ∃ t, exec (.decSymbol 2) s = .next t :=
  ⟨rfl, rfl, rfl, _, rfl⟩
theorem test_witness_CommandsWriteOnlyTheirResults :
    sender.running = none ∧ (∃ t, exec (.encSlave 0) sender = .next t) ∧ (∃ t, exec (.encTelegram 0) sender = .next t)
      ∧ (∃ t, exec (.decSymbol 0) sender = .next t) ∧ (∃ t, exec (.decBit 0) sender = .next t)
      ∧ (∃ t, exec (.sync 0) sender = .next t) ∧ (∃ t, exec (.rdMaster 0) sender = .next t)
      ∧ (∃ t, exec (.rdSlave 0) sender = .next t) ∧ ∃ t, exec (.rdTelegram 0) sender = .next t :=
  ⟨rfl, ⟨_, rfl⟩, ⟨_, rfl⟩, ⟨_, rfl⟩, ⟨_, rfl⟩, ⟨_, rfl⟩, ⟨_, rfl⟩, ⟨_, rfl⟩, _, rfl⟩
theorem test_witness_CommandsReachOnlyTheirStream :
    sender.running = none ∧ (∃ t, exec (.rdSlave 1) sender = .next t) ∧ (∃ t, exec (.encMaster 1) sender = .next t)
      ∧ ∃ t, exec (.illegalOpE 1) sender = .next t :=
  ⟨rfl, ⟨_, rfl⟩, ⟨_, rfl⟩, _, rfl⟩
theorem test_witness_CommandsKeepEveryOtherPortByte :
    commandParts (.encMaster 1) = some (0xA, 1) ∧ sender.running = none ∧ (∃ t, exec (.encMaster 1) sender = .next t)
      ∧ 0xFFF < 0x1000 ∧ alignOffset 0xFFF ∉ writtenOffsets (.encMaster 1) :=
  ⟨rfl, rfl, ⟨_, rfl⟩, by decide, by decide⟩
theorem test_witness_ResetAbandonsEverything :
    ({ waitingBit with pending := [.reset] } : State).pending = .reset :: [] := rfl
theorem test_witness_EveryStepKeepsTheInvariant : Inv waitingBit ∧ ∃ t, step waitingBit = .next t :=
  ⟨test_waitingBit_inv, _, rfl⟩
theorem test_witness_StepRunsTheDecodedInstruction_write :
    let s : State := { State.reset with pending := [.write 0x000 0x00003051] }
    s.pending = .write 0x000 0x00003051 :: [] ∧ s.portOffset 0x000 = some 0 ∧ alignOffset 0 = 0x000
      ∧ decode .command 0x00003051 = .ok (.rdSlave 3) := by decide
theorem test_witness_StepRunsTheDecodedInstruction_line :
    let s : State := { State.reset with pending := [.line .lineBit 0b10] }
    s.pending = .line .lineBit 0b10 :: [] ∧ Format.lineBit ≠ .command ∧ decode .lineBit 0b10 = .ok .bit1 := by decide
theorem test_witness_StepRunsTheDecodedInstruction_table :
    decodeTableWord 24 0x2C715 = some .startMaster ∧ State.reset.pending = [] := by decide
theorem test_witness_OnlyResetMovesTheStreamsBack :
    Inv waitingBit ∧ (∃ t, step waitingBit = .next t) ∧ waitingBit.pending.head? ≠ some .reset :=
  ⟨test_waitingBit_inv, ⟨_, rfl⟩, by decide⟩
theorem test_witness_ReferenceCheckNeverMismatches :
    (∃ t, step waitingBit = .next t) ∧ waitingBit.params.validator = .reference ∧ waitingBit.err ≠ .checkSequenceMismatch :=
  ⟨⟨_, rfl⟩, by decide, by decide⟩
theorem test_witness_FunctionCodeTableInvariants :
    State.reset.ctx.params.fctOk = true ∧ (State.reset.ctx.entry 11).reqKind = .reserved := by decide +kernel
theorem test_witness_ChunksPartitionTheWords : 3 < (chunksOf (List.replicate 16 0)).length := by decide +kernel

end Sys2Proof.Machine.Tests
end

