-- ==== Sys2Proof/Proofs/Invariant.lean ====
section
/-! PROOFS. Every step keeps the invariant of the machine: what each part of a body does to the result registers and to the output
port, then what each part of the engine, the register port and the environment does to `Inv`. -/

namespace Sys2Proof.Machine

/-! ### The function-code table (R190) -/

/-- Every entry the core looks up in a table that satisfies R190 satisfies it. -/
theorem Ctx.entry_ok {c : Ctx} (h : c.params.fctOk = true) (fc : BitVec 4) : FctEntry.ok (c.entry fc) = true := by
  have hall : ∀ e ∈ c.params.fct.toList, FctEntry.ok e = true := List.all_eq_true.1 h
  have hlt : fc.toNat < 16 := fc.isLt
  have hentry : c.entry fc = c.params.fct[fc.toNat] := by simp [Ctx.entry, hlt]
  rw [hentry]
  exact hall _ (by simp)

/-- A slave frame has at most 16 words (R190, R192). -/
theorem Ctx.words_le {c : Ctx} (h : c.params.fctOk = true) (fc : BitVec 4) : c.words fc ≤ 16 := by
  have hok := Ctx.entry_ok h fc
  simp only [FctEntry.ok, Bool.and_eq_true, Bool.or_eq_true, beq_iff_eq] at hok
  have hsize : (c.entry fc).size.toNat ≤ 256 := by
    rcases hok.1 with ((((hs | hs) | hs) | hs) | hs) | hs <;> rw [hs] <;> decide
  unfold Ctx.words
  omega

/-! ### Decoding symbols and bits writes no result register (R87) -/

/-- From `d` to `d'` no result register is written. -/
def SameResults (d d' : Data) : Prop := d'.res = d.res ∧ d'.seen = d.seen

theorem SameResults.refl (d : Data) : SameResults d d := ⟨rfl, rfl⟩

theorem SameResults.trans {a b c : Data} (h1 : SameResults a b) (h2 : SameResults b c) : SameResults a c :=
  ⟨h2.1.trans h1.1, h2.2.trans h1.2⟩

theorem SameResults.bind {α β : Type} {d : Data} {r : Res α} {f : α → Data → Res β} (hr : SameResults d r.left)
    (hf : ∀ a d', SameResults d' (f a d').left) : SameResults d (r.bind f).left :=
  Res.left_bind SameResults SameResults.trans hr hf

theorem RunsOut.sameResults {α : Type} {d : Data} {r : Res α} (h : RunsOut d r) : SameResults d r.left := by
  rcases h with ⟨_, rfl⟩ | ⟨_, w, rfl⟩ <;> exact ⟨rfl, rfl⟩

theorem advance_sameResults (n : Nat) (d : Data) : SameResults d (advance n d).left := by
  rcases advance_spec n d with ⟨_, e⟩ | ⟨_, h⟩
  · rw [e]; exact ⟨rfl, rfl⟩
  · exact h.sameResults

theorem level_sameResults (c : Ctx) (d : Data) : SameResults d (level c d).left := by
  rcases level_spec c d with ⟨_, _, e⟩ | ⟨_, h⟩
  · rw [e]; exact SameResults.refl d
  · exact h.sameResults

theorem advanceUntil_sameResults (c : Ctx) (v : Level) (d : Data) : SameResults d (advanceUntil c v d).left := by
  rcases advanceUntil_spec c v d with ⟨_, e⟩ | ⟨_, h⟩
  · rw [e]; exact ⟨rfl, rfl⟩
  · exact h.sameResults

theorem decodeSymbol_sameResults (c : Ctx) (d : Data) : SameResults d (decodeSymbol c d).left :=
  (advance_sameResults _ _).bind fun _ _ => (level_sameResults _ _).bind fun _ _ =>
    (advance_sameResults _ _).bind fun _ _ => (level_sameResults _ _).bind fun _ _ =>
      (advance_sameResults _ _).bind fun _ d => SameResults.refl d

theorem decodeBit_sameResults (c : Ctx) (d : Data) : SameResults d (decodeBit c d).left :=
  (advance_sameResults _ _).bind fun _ _ => (level_sameResults _ _).bind fun _ _ =>
    (advanceUntil_sameResults _ _ _).bind fun _ _ => (advance_sameResults _ _).bind fun _ d => SameResults.refl d

theorem readBitsLoop_sameResults (c : Ctx) (n k : Nat) (d : Data) : SameResults d (readBitsLoop c n k d).left := by
  induction k generalizing d with
  | zero => exact SameResults.refl d
  | succ k ih => exact (decodeBit_sameResults _ _).bind fun _ _ => SameResults.trans ⟨rfl, rfl⟩ (ih _)

theorem readBits_sameResults (c : Ctx) (n : Nat) (d : Data) : SameResults d (readBits c n d).left :=
  SameResults.bind (SameResults.trans (b := d.setDp fun p => { p with acc := 0, nbits := 0 }) ⟨rfl, rfl⟩
    (readBitsLoop_sameResults _ _ _ _)) fun _ d => SameResults.refl d

theorem readElement_sameResults (c : Ctx) (e : Element) (d : Data) : SameResults d (readElement c e d).left := by
  cases e with
  | sym x => exact (decodeSymbol_sameResults _ _).bind fun _ d => SameResults.refl d
  | bit b => exact (decodeBit_sameResults _ _).bind fun _ d => SameResults.refl d

theorem readEnd_sameResults (c : Ctx) (d : Data) : SameResults d (readEnd c d).left := by
  refine (decodeSymbol_sameResults _ _).bind fun x d => ?_
  split <;> exact SameResults.refl d

/-! ### What a part of a body ensures of the result registers -/

/-- The result registers satisfy `Q` of the value returned when `r` returns, and `I` when it raises an error or waits. -/
def Res.Ensures {α : Type} (Q : α → Results → Prop) (I : Results → Prop) : Res α → Prop
  | .ok a d => Q a d.res
  | .raised _ d => I d.res
  | .waiting _ d => I d.res

theorem Res.Ensures.bind {α β : Type} {Q : α → Results → Prop} {Q' : β → Results → Prop} {I : Results → Prop}
    {r : Res α} {f : α → Data → Res β} (hr : r.Ensures Q I) (hf : ∀ a d, Q a d.res → (f a d).Ensures Q' I) :
    (r.bind f).Ensures Q' I := by
  cases r with
  | ok a d => exact hf a d hr
  | raised e d => exact hr
  | waiting w d => exact hr

/-- A part that writes no result register ensures what held before it. -/
theorem SameResults.ensures {α : Type} {I : Results → Prop} {d : Data} {r : Res α} (h : SameResults d r.left)
    (hI : I d.res) : r.Ensures (fun _ => I) I := by
  have hleft : I r.left.res := by rw [h.1]; exact hI
  cases r <;> exact hleft

theorem Res.Ensures.onRaise {α : Type} {Q : α → Results → Prop} {I J : Results → Prop} {r : Res α} {f : Data → Data}
    (hr : r.Ensures Q I) (hf : ∀ d, I d.res → J (f d).res) (hw : ∀ x, I x → J x) : (r.onRaise f).Ensures Q J := by
  cases r with
  | ok a d => exact hr
  | raised e d => exact hf d hr
  | waiting w d => exact hw _ hr

theorem Res.Ensures.mono {α : Type} {Q Q' : α → Results → Prop} {I I' : Results → Prop} {r : Res α} (hr : r.Ensures Q I)
    (hQ : ∀ a x, Q a x → Q' a x) (hI : ∀ x, I x → I' x) : r.Ensures Q' I' := by
  cases r with
  | ok a d => exact hQ a _ hr
  | raised e d => exact hI _ hr
  | waiting w d => exact hI _ hr

/-- What is ensured however a part ends holds of what it leaves. -/
theorem Res.Ensures.left {α : Type} {I : Results → Prop} {r : Res α} (hr : r.Ensures (fun _ => I) I) : I r.left.res := by
  cases r <;> exact hr

/-! ### The synchronizer keeps the result registers (R178, R179) -/

/-- The result registers are good and RX_SCNT.EXPECTED holds `n`. -/
def Results.Expecting (n : BitVec 5) (r : Results) : Prop := r.ok ∧ r.expected = n

theorem Res.Ensures.ok_of_expecting {α : Type} {n : BitVec 5} {r : Res α}
    (hr : r.Ensures (fun _ => Results.Expecting n) (Results.Expecting n)) : r.Ensures (fun _ => Results.ok) Results.ok :=
  hr.mono (fun _ _ h => h.1) fun _ h => h.1

/-- As `Results.Expecting`, with ROLE not valid: what holds from Sync's first write to its last (R178). -/
def Results.Searching (n : BitVec 5) (r : Results) : Prop := r.Expecting n ∧ r.roleValid = false

/-- While ROLE is not valid, SYNC_STATE may be any state but Synced (R179). -/
theorem Results.Searching.setSync {n : BitVec 5} {r : Results} (h : r.Searching n) {x : SyncState} (hx : x ≠ .synced) :
    { r with syncState := x }.Searching n := by
  obtain ⟨⟨⟨helem, hcount, hexp, hchunks, _, _⟩, hn⟩, hrole⟩ := h
  exact ⟨⟨⟨helem, hcount, hexp, hchunks, by simp [hrole, hx], by simp [hrole]⟩, hn⟩, hrole⟩

/-- While ROLE is not valid, ELEM may be any count of the delimiter's elements (R30). -/
theorem Results.Searching.setElem {n : BitVec 5} {r : Results} (h : r.Searching n) {j : Nat} (hj : j ≤ 8) :
    { r with elem := BitVec.ofNat 4 j }.Searching n := by
  obtain ⟨⟨⟨_, hcount, hexp, hchunks, hsync, _⟩, hn⟩, hrole⟩ := h
  have helem : (BitVec.ofNat 4 j).toNat ≤ 8 := by simp; omega
  exact ⟨⟨⟨helem, hcount, hexp, hchunks, hsync, by simp [hrole]⟩, hn⟩, hrole⟩

/-- While ROLE is not valid, KIND may be either role (R174). -/
theorem Results.Searching.setKind {n : BitVec 5} {r : Results} (h : r.Searching n) (kind : Bool) :
    { r with kind := kind }.Searching n := by
  obtain ⟨⟨⟨helem, hcount, hexp, hchunks, hsync, _⟩, hn⟩, hrole⟩ := h
  exact ⟨⟨⟨helem, hcount, hexp, hchunks, hsync, by simp [hrole]⟩, hn⟩, hrole⟩

/-- Sync's first write leaves ROLE not valid (R178). -/
theorem Results.Expecting.syncBegin {n : BitVec 5} {d : Data} (h : d.res.Expecting n) : d.syncBegin.res.Searching n := by
  obtain ⟨⟨_, hcount, hexp, hchunks, _, _⟩, hn⟩ := h
  exact ⟨⟨⟨by simp, hcount, hexp, hchunks, by simp, by simp⟩, hn⟩, rfl⟩

/-- Sync's last writes make ROLE valid with the role KIND holds, once all eight elements have matched (R177 to R179). -/
theorem Results.Searching.synced {n : BitVec 5} {r : Results} (h : r.Searching n) {kind : Bool} (hkind : r.kind = kind)
    (helem : r.elem = 8) : { r with syncState := .synced, role := kind, roleValid := true }.Expecting n := by
  obtain ⟨⟨⟨hle, hcount, hexp, hchunks, _, _⟩, hn⟩, _⟩ := h
  exact ⟨⟨hle, hcount, hexp, hchunks, by simp, fun _ => ⟨hkind.symm, helem⟩⟩, hn⟩

/-- The rest of a delimiter is read with ROLE not valid and KIND fixed; ELEM counts up to 8 when all of it matches (R176). -/
theorem matchElements_ensures {n : BitVec 5} {kind : Bool} (c : Ctx) (es : List Element) (j : Nat) {d : Data}
    (hlen : j + es.length = 9) (helem : d.res.elem = BitVec.ofNat 4 (j - 1)) (h : d.res.Searching n)
    (hkind : d.res.kind = kind) :
    (matchElements c es j d).Ensures (fun _ r => r.Searching n ∧ r.kind = kind ∧ r.elem = 8) (Results.Searching n) := by
  induction es generalizing j d with
  | nil =>
    have hj : j = 9 := hlen
    subst hj
    exact ⟨h, hkind, helem⟩
  | cons e es ih =>
    rw [List.length_cons] at hlen
    have hread : (readElement c e d).Ensures (fun _ r => r.Searching n ∧ r.kind = kind)
        fun r => r.Searching n ∧ r.kind = kind := (readElement_sameResults c e d).ensures ⟨h, hkind⟩
    refine (hread.mono (fun _ _ hr => hr) fun _ hr => hr.1).bind fun good d' hd' => ?_
    obtain ⟨hs, hk⟩ := hd'
    cases good with
    | false => exact hs
    | true => exact ih (j + 1) (by omega) rfl (hs.setElem (by omega)) hk

theorem syncDelimiter_ensures {n : BitVec 5} (c : Ctx) {d : Data} (h : d.res.Searching n) :
    (syncDelimiter c d).Ensures (fun _ => Results.Expecting n) (Results.Searching n) := by
  refine ((decodeSymbol_sameResults c d).ensures h).bind fun x d hd => ?_
  cases kindOfFirst x with
  | none => exact hd
  | some kind =>
    refine (matchElements_ensures (kind := kind) c _ 2 (by simp [delimiterOf_length]) rfl
      ((hd.setKind kind).setElem (j := 1) (by omega)) rfl).bind fun _ d hm => ?_
    obtain ⟨hs, hk, he⟩ := hm
    exact hs.synced hk he

/-- Sync keeps the result registers good, whichever way it ends, and leaves EXPECTED alone (R178, R179). -/
theorem sync_ensures {n : BitVec 5} (c : Ctx) {d : Data} (h : d.res.Expecting n) :
    (sync c d).Ensures (fun _ => Results.Expecting n) (Results.Expecting n) := by
  refine Res.Ensures.onRaise (I := Results.Searching n) ?_ (fun d hd => (hd.setSync (x := .error) (by decide)).1)
    fun _ hr => hr.1
  refine ((advanceUntil_sameResults c HIGH _).ensures h.syncBegin).bind fun _ d hd => ?_
  refine ((advanceUntil_sameResults c LOW (d.setSync .awaitLow)).ensures (hd.setSync (by decide))).bind fun _ d hd => ?_
  refine ((advance_sameResults _ (d.setSync .atStartBit)).ensures (hd.setSync (by decide))).bind fun _ d hd => ?_
  exact syncDelimiter_ensures c (hd.setSync (by decide))

/-! ### The frame parser keeps the result registers (R193 to R206) -/

theorem readMaster_ensures {n : BitVec 5} (c : Ctx) {d : Data} (h : d.res.Expecting n) :
    (readMaster c d).Ensures (fun _ => Results.Expecting n) (Results.Expecting n) := by
  refine (sync_ensures c h).bind fun kind d hd => ?_
  split
  · exact hd
  refine ((readBits_sameResults c 16 d).ensures hd).bind fun w d hd => ?_
  refine ((readBits_sameResults c 8 (d.setRes fun r => { r with mword := w })).ensures (I := Results.Expecting n) hd).bind
    fun chk d hd => ?_
  have hchk : (d.setRes fun r => { r with mchk := chk }).res.Expecting n := hd
  dsimp only
  split
  · exact hchk
  · exact ((readEnd_sameResults c _).ensures hchk).bind fun _ _ hd => hd

/-- COUNT may be any number of words up to EXPECTED (R35, R201). -/
theorem Results.Expecting.setCount {n : BitVec 5} {r : Results} (h : r.Expecting n) {i : Nat} (hi : i ≤ n.toNat) :
    { r with count := BitVec.ofNat 5 i }.Expecting n := by
  obtain ⟨⟨helem, _, hexp, hchunks, hsync, hrole⟩, rfl⟩ := h
  have hcount : (BitVec.ofNat 5 i).toNat ≤ r.expected.toNat := by simp; omega
  exact ⟨⟨helem, hcount, hexp, hchunks, hsync, hrole⟩, rfl⟩

/-- CHUNKS may be any number of chunks up to 4 (R35, R201). -/
theorem Results.Expecting.setChunks {n : BitVec 5} {r : Results} (h : r.Expecting n) {k : Nat} (hk : k ≤ 4) :
    { r with chunks := BitVec.ofNat 3 k }.Expecting n := by
  obtain ⟨⟨helem, hcount, hexp, _, hsync, hrole⟩, hn⟩ := h
  have hchunks : (BitVec.ofNat 3 k).toNat ≤ 4 := by simp; omega
  exact ⟨⟨helem, hcount, hexp, hchunks, hsync, hrole⟩, hn⟩

/-- ReadSlave's first write makes RX_SCNT expect its words (R198, R201). -/
theorem Data.slaveBegin_expecting {n : Nat} {d : Data} (h : d.res.ok) (hn : n ≤ 16) :
    (d.slaveBegin n).res.Expecting (BitVec.ofNat 5 n) := by
  obtain ⟨helem, _, _, _, hsync, hrole⟩ := h
  have hexp : (BitVec.ofNat 5 n).toNat ≤ 16 := by simp; omega
  exact ⟨⟨helem, by simp, hexp, by simp, hsync, hrole⟩, rfl⟩

/-- The words of a chunk count up to EXPECTED at most (R201). -/
theorem readWords_ensures {n : BitVec 5} (c : Ctx) (m i : Nat) {d : Data} (h : d.res.Expecting n)
    (hi : i + m ≤ n.toNat) : (readWords c m i d).Ensures (fun _ => Results.Expecting n) (Results.Expecting n) := by
  induction m generalizing i d with
  | zero => exact h
  | succ m ih =>
    refine ((readBits_sameResults c 16 d).ensures h).bind fun w d hd => ?_
    have hword : (d.res.setSword i w).Expecting n := hd
    exact ih (i + 1) (hword.setCount (by omega)) (by omega)

/-- The chunks of a slave frame count up to EXPECTED words and 4 chunks at most (R201, R221). -/
theorem readChunks_ensures {n : BitVec 5} (c : Ctx) (ms : List Nat) (i k : Nat) {d : Data} (h : d.res.Expecting n)
    (hi : i + ms.sum ≤ n.toNat) (hk : k + ms.length ≤ 4) :
    (readChunks c ms i k d).Ensures (fun _ => Results.Expecting n) (Results.Expecting n) := by
  induction ms generalizing i k d with
  | nil => exact h
  | cons m ms ih =>
    rw [List.sum_cons] at hi
    rw [List.length_cons] at hk
    refine (readWords_ensures c m i (d := d.setDp fun p => { p with i := i, k := k, m := m }) h (by omega)).bind
      fun _ d hd => ?_
    refine ((readBits_sameResults c 8 d).ensures hd).bind fun chk d hd => ?_
    have hstored : (d.res.setSchk k chk).Expecting n := hd
    have hcounted : { d.res.setSchk k chk with chunks := BitVec.ofNat 3 (k + 1) }.Expecting n :=
      hstored.setChunks (by omega)
    dsimp only
    split
    · exact hcounted
    · exact ih (i + m) (k + 1) hcounted (by omega) (by omega)

theorem readSlave_ensures {c : Ctx} (hfct : c.params.fctOk = true) (fc : BitVec 4) {d : Data} (h : d.res.ok) :
    (readSlave c fc d).Ensures (fun _ => Results.ok) Results.ok := by
  have hn : c.words fc ≤ 16 := Ctx.words_le hfct fc
  have hexp : (BitVec.ofNat 5 (c.words fc)).toNat = c.words fc := by simp; omega
  have hcount : (chunkSizes (c.words fc)).length ≤ 4 := by rw [chunkSizes_length]; unfold chunkCount; omega
  have hall : (readSlave c fc d).Ensures (fun _ => Results.Expecting (BitVec.ofNat 5 (c.words fc)))
      (Results.Expecting (BitVec.ofNat 5 (c.words fc))) := by
    refine (sync_ensures c (Data.slaveBegin_expecting h hn)).bind fun kind d hd => ?_
    split
    · exact hd
    refine (readChunks_ensures c _ 0 0 hd (by rw [chunkSizes_sum, hexp]; omega) (by omega)).bind fun _ d hd => ?_
    exact (readEnd_sameResults c d).ensures hd
  exact hall.ok_of_expecting

/-! ### The output port (R44, R79) -/

/-- From `d` to `d'` the output count does not fall, and a port that counts its record and keeps to the sink's limit still does. -/
def OutputKept (d d' : Data) : Prop := d.tx.count ≤ d'.tx.count ∧ (d.tx.ok → d'.tx.ok)

theorem OutputKept.refl (d : Data) : OutputKept d d := ⟨Nat.le_refl _, id⟩

theorem OutputKept.trans {a b c : Data} (h1 : OutputKept a b) (h2 : OutputKept b c) : OutputKept a c :=
  ⟨Nat.le_trans h1.1 h2.1, h2.2 ∘ h1.2⟩

theorem OutputKept.of_eq {d d' : Data} (h : d'.tx = d.tx) : OutputKept d d' := by
  unfold OutputKept; rw [h]; exact ⟨Nat.le_refl _, id⟩

theorem OutputKept.bind {α β : Type} {d : Data} {r : Res α} {f : α → Data → Res β} (hr : OutputKept d r.left)
    (hf : ∀ a d', OutputKept d' (f a d').left) : OutputKept d (r.bind f).left :=
  Res.left_bind OutputKept OutputKept.trans hr hf

/-- Accepted samples are counted as they are recorded (R79). -/
theorem TxPort.accept_ok {t : TxPort} (h : t.ok) {n : Nat} (v : Level) (hn : ∀ lim, t.limit = some lim → t.count + n ≤ lim) :
    (t.accept n v).ok := by
  refine ⟨?_, hn⟩
  simp [h.1]

/-- The sink accepts `n` more samples that its limit leaves room for. -/
theorem Data.accept_outputKept {n : Nat} (v : Level) {d : Data}
    (hn : ∀ lim, d.tx.limit = some lim → d.tx.count ≤ lim → d.tx.count + n ≤ lim) : OutputKept d (d.accept n v) :=
  ⟨Nat.le_add_right _ _, fun hok => TxPort.accept_ok hok v fun lim hl => hn lim hl (hok.2 lim hl)⟩

theorem emit_outputKept (n : Nat) (v : Level) (d : Data) : OutputKept d (emit n v d).left := by
  unfold emit
  split
  next hnone => exact Data.accept_outputKept v fun lim hl hle => nomatch hnone.symm.trans hl
  next lim hsome =>
    split
    next hroom =>
      refine Data.accept_outputKept v fun lim' hl hle => ?_
      obtain rfl := Option.some.inj (hsome.symm.trans hl)
      omega
    next =>
      refine Data.accept_outputKept v fun lim' hl hle => ?_
      obtain rfl := Option.some.inj (hsome.symm.trans hl)
      omega

theorem encodeSymbol_outputKept (c : Ctx) (x : Symbol) (d : Data) : OutputKept d (encodeSymbol c x d).left :=
  (emit_outputKept _ _ _).bind fun _ _ => emit_outputKept _ _ _

theorem encodeBit_outputKept (c : Ctx) (b : Bool) (d : Data) : OutputKept d (encodeBit c b d).left :=
  (emit_outputKept _ _ _).bind fun _ _ => emit_outputKept _ _ _

theorem encodeField_outputKept (c : Ctx) {n : Nat} (v : BitVec n) (d : Data) : OutputKept d (encodeField c v d).left := by
  unfold encodeField
  induction bitsMsbFirst v generalizing d with
  | nil => exact OutputKept.refl d
  | cons b bs ih => exact (encodeBit_outputKept _ _ _).bind fun _ _ => ih _

theorem sendElements_outputKept (c : Ctx) (es : List Element) (d : Data) : OutputKept d (sendElements c es d).left := by
  induction es generalizing d with
  | nil => exact OutputKept.refl d
  | cons e es ih =>
    refine OutputKept.bind ?_ fun _ _ => ih _
    cases e with
    | sym x => exact encodeSymbol_outputKept c x d
    | bit b => exact encodeBit_outputKept c b d

theorem encodeStart_outputKept (c : Ctx) (kind : Bool) (d : Data) : OutputKept d (encodeStart c kind d).left :=
  (encodeBit_outputKept _ _ _).bind fun _ _ => sendElements_outputKept _ _ _

theorem encodeMaster_outputKept (c : Ctx) (w : Half) (d : Data) : OutputKept d (encodeMaster c w d).left :=
  (encodeStart_outputKept _ _ _).bind fun _ _ => (encodeField_outputKept _ _ _).bind fun _ _ =>
    (encodeField_outputKept _ _ _).bind fun _ _ => encodeSymbol_outputKept _ _ _

theorem encodeWords_outputKept (c : Ctx) (ws : List Half) (d : Data) : OutputKept d (encodeWords c ws d).left := by
  induction ws generalizing d with
  | nil => exact OutputKept.refl d
  | cons w ws ih => exact (encodeField_outputKept _ _ _).bind fun _ _ => ih _

theorem encodeChunks_outputKept (c : Ctx) (ms : List Nat) (ws : List Half) (d : Data) :
    OutputKept d (encodeChunks c ms ws d).left := by
  induction ms generalizing ws d with
  | nil => exact OutputKept.refl d
  | cons m ms ih =>
    exact (encodeWords_outputKept _ _ _).bind fun _ _ => (encodeField_outputKept _ _ _).bind fun _ _ => ih _ _

theorem encodeSlave_outputKept (c : Ctx) (ws : List Half) (d : Data) : OutputKept d (encodeSlave c ws d).left :=
  (encodeStart_outputKept _ _ _).bind fun _ _ => (encodeChunks_outputKept _ _ _ _).bind fun _ _ =>
    encodeSymbol_outputKept _ _ _

theorem emitGap_outputKept (c : Ctx) (d : Data) : OutputKept d (emitGap c d).left :=
  OutputKept.trans (b := { d with gapDraws := d.gapDraws + 1, dp := _ }) (OutputKept.of_eq rfl) (emit_outputKept _ _ _)

theorem Reads.outputKept {d d' : Data} (h : Reads d d') : OutputKept d d' := OutputKept.of_eq h.1

/-! ### Whole bodies -/

theorem Writes.sameResults {d d' : Data} (h : Writes d d') : SameResults d d' := ⟨h.2.1, h.2.2.1⟩

theorem bodyRdTelegram_ensures {c : Ctx} (hfct : c.params.fctOk = true) {d : Data} (h : d.res.ok) :
    (bodyRdTelegram c d).Ensures (fun _ => Results.ok) Results.ok := by
  refine (readMaster_ensures c ⟨h, rfl⟩).ok_of_expecting.bind fun w d hd => ?_
  split
  · exact hd
  · exact readSlave_ensures hfct _ hd

theorem bodyEncTelegram_ensures (c : Ctx) {d : Data} (h : d.res.ok) :
    (bodyEncTelegram c d).Ensures (fun _ => Results.ok) Results.ok := by
  refine ((encodeMaster_writes c _ d).sameResults.ensures h).bind fun _ d hd => ?_
  refine ((emitGap_writes c d).sameResults.ensures hd).bind fun _ d hd => ?_
  split
  · exact hd
  · exact (encodeSlave_writes c _ d).sameResults.ensures hd

/-- Every command's body keeps the result registers good, whichever way it ends, under a table that satisfies R190. -/
theorem commandBody_ok (op : BitVec 4) {c : Ctx} (hfct : c.params.fctOk = true) {d : Data} (h : d.res.ok) :
    (commandBody op c d).left.res.ok := by
  refine Res.Ensures.left (I := Results.ok) ?_
  generalize hb : commandBody op = b
  unfold commandBody at hb
  split at hb <;> subst hb
  · exact ((decodeSymbol_sameResults c d).ensures h).bind fun _ _ hd => hd
  · exact ((decodeBit_sameResults c d).ensures h).bind fun _ _ hd => hd
  · exact (sync_ensures c ⟨h, rfl⟩).ok_of_expecting.bind fun _ _ hd => hd
  · exact (readMaster_ensures c ⟨h, rfl⟩).ok_of_expecting.bind fun _ _ hd => hd
  · exact readSlave_ensures hfct _ h
  · exact bodyRdTelegram_ensures hfct h
  · exact (encodeSymbol_writes c _ d).sameResults.ensures h
  · exact (encodeBit_writes c _ d).sameResults.ensures h
  · exact (encodeMaster_writes c _ d).sameResults.ensures h
  · exact (encodeSlave_writes c _ d).sameResults.ensures h
  · exact bodyEncTelegram_ensures c h
  · exact h

theorem bodyRdTelegram_reads (c : Ctx) (d : Data) : Reads d (bodyRdTelegram c d).left := by
  refine (readMaster_reads _ _).bind fun w d => ?_
  split
  · exact Reads.of_eq rfl rfl rfl
  · exact readSlave_reads _ _ _

theorem bodyEncTelegram_outputKept (c : Ctx) (d : Data) : OutputKept d (bodyEncTelegram c d).left := by
  refine (encodeMaster_outputKept _ _ _).bind fun _ d => (emitGap_outputKept _ _).bind fun _ d => ?_
  split
  · exact OutputKept.of_eq rfl
  · exact encodeSlave_outputKept _ _ _

/-- Every command's body keeps the output port good and takes back nothing it has emitted. -/
theorem commandBody_outputKept (op : BitVec 4) (c : Ctx) (d : Data) : OutputKept d (commandBody op c d).left := by
  generalize hb : commandBody op = b
  unfold commandBody at hb
  split at hb <;> subst hb
  · exact (decodeSymbol_reads c d).outputKept.bind fun _ _ => OutputKept.of_eq rfl
  · exact (decodeBit_reads c d).outputKept.bind fun _ _ => OutputKept.of_eq rfl
  · exact (sync_reads c d).outputKept.bind fun _ _ => OutputKept.of_eq rfl
  · exact (readMaster_reads c d).outputKept.bind fun _ _ => OutputKept.of_eq rfl
  · exact (readSlave_reads c _ d).outputKept
  · exact (bodyRdTelegram_reads c d).outputKept
  · exact encodeSymbol_outputKept c _ d
  · exact encodeBit_outputKept c _ d
  · exact encodeMaster_outputKept c _ d
  · exact encodeSlave_outputKept c _ d
  · exact bodyEncTelegram_outputKept c d
  · exact OutputKept.refl d

/-! ### The engine -/

/-- A body may run from `start` in `s`: STATUS is as START left it, the start checks passed, and the data is good. It is
`RunningOk` but for what the body has come to (`runningOk_iff`). -/
def Startable (s : State) (start : Data) : Prop :=
  s.done = false ∧ s.err = .none ∧ startCheck s.regs = none
    ∧ start.res.ok ∧ start.tx.ok ∧ start.seen = [start.res] ∧ start.res.skipped = false

theorem runningOk_iff (s : State) (r : Running) :
    RunningOk s r ↔ Startable s r.start ∧ commandBody s.regs.op s.ctx r.start = .waiting r.wait s.data := by
  simp only [RunningOk, Startable, and_assoc]

/-- The end of a command keeps the invariant when it leaves good data (R142). -/
theorem Inv.endCommand {s : State} {d : Data} (hfct : s.params.fctOk = true) (hres : d.res.ok) (htx : d.tx.ok)
    (e : ErrorCode) : Inv (s.endCommand e d) :=
  ⟨hfct, hres, htx, fun _ => ⟨rfl, rfl⟩, fun _ hr => nomatch hr⟩

/-- Running the body CTRL.OP names keeps the invariant, whether the command ends or waits (R141, R142). -/
theorem Inv.settle {s : State} {start : Data} (hfct : s.params.fctOk = true) (h : Startable s start) :
    Inv (s.settle start (commandBody s.regs.op s.ctx start)) := by
  obtain ⟨-, -, -, hres, htx, -, -⟩ := id h
  have hleftRes := commandBody_ok s.regs.op (c := s.ctx) hfct hres
  have hleftTx := (commandBody_outputKept s.regs.op s.ctx start).2 htx
  cases hb : commandBody s.regs.op s.ctx start with
  | ok a d =>
    rw [hb] at hleftRes hleftTx
    exact Inv.endCommand hfct hleftRes hleftTx .none
  | raised e d =>
    rw [hb] at hleftRes hleftTx
    exact Inv.endCommand hfct hleftRes hleftTx e
  | waiting w d =>
    rw [hb] at hleftRes hleftTx
    refine ⟨hfct, hleftRes, hleftTx, fun hidle => (nomatch hidle), fun r hr => ?_⟩
    obtain rfl := Option.some.inj hr
    exact (runningOk_iff _ _).2 ⟨h, hb⟩

/-- The invariant reads the parameters, the data and the running command, and while a command runs also the host-written registers,
DONE and ERR: what changes none of these keeps it. -/
theorem Inv.of_frame {s t : State} (h : Inv s) (hparams : t.params = s.params) (hdata : t.data = s.data)
    (hrunning : t.running = s.running)
    (hbusy : ∀ r, RunningOk s r → s.running = some r → t.regs = s.regs ∧ t.done = s.done ∧ t.err = s.err) : Inv t := by
  obtain ⟨hfct, hres, htx, hidle, hrun⟩ := h
  refine ⟨by rwa [hparams], by rwa [hdata], by rwa [hdata], by rwa [hrunning, hdata], fun r hr => ?_⟩
  rw [hrunning] at hr
  obtain ⟨hregs, hdone, herr⟩ := hbusy r (hrun r hr) hr
  have hctx : t.ctx = s.ctx := by unfold State.ctx; rw [hregs, hparams]
  have hok := hrun r hr
  unfold RunningOk at hok ⊢
  rwa [hregs, hdone, herr, hctx, hdata]

/-- A START keeps the invariant, refused or accepted (R140, R143 to R149). -/
theorem Inv.startCommand {s : State} (h : Inv s) (op : BitVec 4) (arg : Nat) :
    Inv (s.startCommand op arg (commandBody op)) := by
  cases hrun : s.running with
  | some r =>
    rw [startCommand_busy (by simp [State.busy, hrun])]
    exact h.of_frame rfl rfl rfl fun _ _ _ => ⟨rfl, rfl, rfl⟩
  | none =>
    obtain ⟨hfct, hres, htx, -, -⟩ := h
    cases hc : startCheck (s.begin op (BitVec.ofNat 4 arg)).regs with
    | some e =>
      rw [startCommand_fails hrun hc]
      exact Inv.endCommand (s := s.begin op _) (d := (s.begin op _).data) hfct hres htx e
    | none =>
      rw [startCommand_runs hrun hc]
      exact Inv.settle (s := s.begin op (BitVec.ofNat 4 arg)) hfct ⟨rfl, rfl, hc, hres, htx, rfl, rfl⟩

/-- A change of the environment after which a waiting command goes on keeps the invariant, if it changes no result register and no
datapath state and suits the output port (R71, R79, R141). -/
theorem Inv.changeData_resume {s : State} (h : Inv s) {f : Data → Data} (hres : ∀ d, (f d).res = d.res)
    (hseen : ∀ d, (f d).seen = d.seen) (hdp : ∀ d, (f d).dp = d.dp)
    (htx : ∀ d, d.tx.ok → d.tx.count ≤ s.data.tx.count → (f d).tx.ok) : Inv (s.changeData f).resume := by
  obtain ⟨hfct, hok, hport, hidle, hrun⟩ := h
  unfold State.resume
  cases hr : s.running with
  | none =>
    have hnone : (s.changeData f).running = none := by simp [hr]
    rw [hnone]
    refine ⟨hfct, ?_, htx _ hport (Nat.le_refl _), fun _ => ?_, fun r hr' => ?_⟩
    · rw [State.changeData_data, hres]; exact hok
    · rw [State.changeData_data, hseen, hdp]; exact hidle hr
    · rw [hnone] at hr'; cases hr'
  | some r =>
    have hsome : (s.changeData f).running = some { r with start := f r.start } := by simp [hr]
    rw [hsome]
    obtain ⟨⟨hdone, herr, hcheck, hstartRes, hstartTx, hstartSeen, hskipped⟩, hbody⟩ := (runningOk_iff s r).1 (hrun r hr)
    have hle : r.start.tx.count ≤ s.data.tx.count := by
      have := (commandBody_outputKept s.regs.op s.ctx r.start).1
      rwa [hbody] at this
    refine Inv.settle (s := s.changeData f) hfct ⟨hdone, herr, hcheck, ?_, htx _ hstartTx hle, ?_, ?_⟩
    · rw [hres]; exact hstartRes
    · rw [hseen, hres]; exact hstartSeen
    · rw [hres]; exact hskipped

theorem Inv.present {s : State} (h : Inv s) (xs : List Level) : Inv (s.present xs) := by
  unfold State.present
  split
  · exact h
  · exact h.changeData_resume (fun _ => rfl) (fun _ => rfl) (fun _ => rfl) fun _ hd _ => hd

theorem Inv.endInput {s : State} (h : Inv s) : Inv s.endInput :=
  h.changeData_resume (fun _ => rfl) (fun _ => rfl) (fun _ => rfl) fun _ hd _ => hd

/-- A new limit of the sink that is not below what it has accepted keeps the invariant (R79). -/
theorem Inv.setLimit {s : State} (h : Inv s) {lim : Option Nat} (hlim : ∀ n, lim = some n → s.data.tx.count ≤ n) :
    Inv (s.setLimit lim) :=
  h.changeData_resume (fun _ => rfl) (fun _ => rfl) (fun _ => rfl) fun _ hd hle =>
    ⟨hd.1, fun n hn => Nat.le_trans hle (hlim n hn)⟩

/-! ### Instructions -/

/-- Every row of a line layer is a step in which the source presents samples (R71). -/
theorem exec_line {i : Instr} (h : commandParts i = none) (s : State) : ∃ xs, exec i s = .next (s.present xs) := by
  cases i <;> simp only [commandParts, reduceCtorEq] at h <;> exact ⟨_, rfl⟩

theorem Inv.exec {s t : State} (h : Inv s) {i : Instr} (ht : exec i s = .next t) : Inv t := by
  cases hparts : commandParts i with
  | some p =>
    obtain ⟨op, arg⟩ := p
    rw [exec_command hparts] at ht
    cases ht
    exact h.startCommand op arg
  | none =>
    obtain ⟨xs, hxs⟩ := exec_line hparts s
    rw [hxs] at ht
    cases ht
    exact h.present xs

/-! ### The register port and the reset input -/

/-- A write that starts no command keeps the invariant: while a command runs it reaches only the W1C bits, and DONE is 0 then
(R29, R91, R143). -/
theorem Inv.writePort {s : State} (h : Inv s) (off : Nat) (v : Word) : Inv (s.writePort off v) := by
  unfold State.writePort
  split
  · exact h.of_frame rfl rfl rfl fun _ ⟨hdone, _⟩ _ => ⟨rfl, by simp [hdone], rfl⟩
  split
  · split
    · exact h.of_frame rfl rfl rfl fun _ _ _ => ⟨rfl, rfl, rfl⟩
    · rename_i hidle
      refine h.of_frame rfl rfl rfl fun r _ hr => ?_
      simp [State.busy, hr] at hidle
  · exact h

theorem Inv.hostWrite {s t : State} (h : Inv s) {addr v : Word} (ht : hostWrite addr v s = .next t) : Inv t := by
  unfold Machine.hostWrite at ht
  split at ht
  · cases ht; exact h
  split at ht
  · split at ht
    · exact h.exec ht
    · cases ht; exact h
  · cases ht; exact h.writePort _ v

theorem Inv.hostRead {s : State} (h : Inv s) (addr : Word) : Inv (hostRead addr s) := by
  unfold Machine.hostRead
  split
  · exact h
  · exact h.of_frame rfl rfl rfl fun _ _ _ => ⟨rfl, rfl, rfl⟩

theorem Results.reset_ok : Results.reset.ok := by unfold Results.ok; decide

/-- The reset input brings the invariant about whatever the core was doing, under a table that satisfies R190 (R290, R292). -/
theorem Inv.assertReset {s : State} (hfct : s.params.fctOk = true) : Inv s.assertReset :=
  ⟨hfct, Results.reset_ok, ⟨rfl, fun _ _ => Nat.zero_le _⟩, fun _ => ⟨rfl, rfl⟩, fun _ hr => nomatch hr⟩

/-! ### The step -/

/-- A line event that gives a next state runs the element its bits decode to (R104 to R113). -/
theorem handle_line_next {s t : State} {f : Format} {bits : Word} (h : handle (.line f bits) s = .next t) :
    ∃ i, decode f bits = .ok i ∧ exec i s = .next t := by
  cases hi : decode f bits with
  | ok i => cases f <;> simp only [handle, hi, reduceCtorEq] at h <;> exact ⟨i, rfl, h⟩
  | error _ => cases f <;> simp only [handle, hi, reduceCtorEq] at h

theorem Inv.handle {s t : State} (h : Inv s) {e : Event} (ht : handle e s = .next t) : Inv t := by
  cases e with
  | write addr v => exact h.hostWrite ht
  | read addr => cases ht; exact h.hostRead addr
  | line f bits =>
    obtain ⟨i, -, hi⟩ := handle_line_next ht
    exact h.exec hi
  | sample v => cases ht; exact h.present _
  | capture b => cases ht; exact h.present _
  | endOfInput => cases ht; exact h.endInput
  | sinkAccepts n => cases ht; exact h.setLimit fun m hm => by cases hm; exact Nat.le_add_right _ _
  | sinkAlways => cases ht; exact h.setLimit fun m hm => nomatch hm
  | reset => cases ht; exact Inv.assertReset h.1

/-- Settles O53: the event is taken from what happens next, which the invariant does not read, and each event keeps it. -/
theorem everyStepKeepsTheInvariant : Obligations.EveryStepKeepsTheInvariant := by
  intro s t h ht
  unfold step at ht
  split at ht
  · cases ht; exact h
  · rename_i e rest _
    have hrest : Inv { s with pending := rest } := h.of_frame rfl rfl rfl fun _ _ _ => ⟨rfl, rfl, rfl⟩
    exact hrest.handle ht

end Sys2Proof.Machine
end

