-- ==== Sys2Proof/Proofs/Fetch.lean ====
section
/-! PROOFS. The reset state meets the invariant, and a step runs the instruction its event carries: a value written to CTRL, the
bits of a line element, or a table row placed by `withFetchWord`. -/

namespace Sys2Proof.Machine

/-! ### Reset -/

/-- Settles O52: the reset state is what the reset input makes of itself, and its table, the default one, satisfies R190. -/
theorem resetSatisfiesTheInvariant : Obligations.ResetSatisfiesTheInvariant :=
  Inv.assertReset (s := State.reset) (by decide)

/-! ### What a step does with its event -/

theorem step_of_pending_nil {s : State} (h : s.pending = []) : step s = .next s := by simp [step, h]

theorem step_of_pending_cons {s : State} {e : Event} {rest : List Event} (h : s.pending = e :: rest) :
    step s = handle e { s with pending := rest } := by simp [step, h]

/-- Only a word with START = 1 decodes to a command (R100). -/
theorem wordStart_of_decode {w : Word} {i : Instr} (h : decode .command w = .ok i) : wordStart w = true := by
  by_contra hstart
  simp [decode, decodeCommand, hstart] at h

/-- A write of a command to CTRL runs the command (R100, R140). -/
theorem hostWrite_of_decode {s : State} {addr w : Word} {off : Nat} {i : Instr} (hoff : s.portOffset addr = some off)
    (hctrl : alignOffset off = 0x000) (hi : decode .command w = .ok i) : hostWrite addr w s = exec i s := by
  simp [hostWrite, hoff, isStart, hctrl, wordStart_of_decode hi, hi]

/-- A line event whose bits decode to an element runs that element (R104 to R113). -/
theorem handle_line_of_decode {s : State} {f : Format} {w : Word} {i : Instr} (hf : f ≠ .command) (hi : decode f w = .ok i) :
    handle (.line f w) s = exec i s := by
  cases f with
  | command => exact absurd rfl hf
  | lineSymbol | lineBit | lineDelimiter | masterWord => simp only [handle, hi]

/-! ### Table rows -/

/-- The four byte lanes of a word are the word (R83). -/
theorem wordOfBytes_bytesOfWord (w : Word) : wordOfBytes (bytesOfWord 4 w) = w := by
  apply BitVec.eq_of_getLsbD_eq
  intro j hj
  interval_cases j <;> simp [wordOfBytes, bytesOfWord, List.range_succ]

theorem bytesOfWord_length (n : Nat) (w : Word) : (bytesOfWord n w).length = n := by simp [bytesOfWord]

/-- A table row is read as its word in the layer `tableFormat` picks (log entry 3). -/
theorem decode_of_decodeTableWord {nbits w : Nat} {i : Instr} (h : decodeTableWord nbits w = some i) :
    decode (tableFormat nbits w) (BitVec.ofNat 32 w) = .ok i := by
  have hfew : ¬4 < formatBytes (tableFormat nbits w) := by cases tableFormat nbits w <;> decide
  simp only [decodeTableWord, decodeBytes, bytesOfWord_length, hfew, wordOfBytes_bytesOfWord, lt_irrefl, if_false] at h
  split at h
  · rename_i j hj
    rw [hj, Option.some.inj h]
  · cases h

/-- BASE is the address of CTRL (R86). -/
theorem portOffset_base (s : State) : s.portOffset s.params.base = some 0 := by simp [State.portOffset]

/-- Handling the event that brings an instruction runs the instruction. -/
theorem handle_fetchEvent {s : State} {f : Format} {w : Word} {i : Instr} (hi : decode f w = .ok i) :
    handle (fetchEvent s.params.base f w) s = exec i s := by
  cases f with
  | command => exact hostWrite_of_decode (portOffset_base s) rfl hi
  | lineSymbol | lineBit | lineDelimiter | masterWord => exact handle_line_of_decode (by decide) hi

/-- Settles O54: each clause is the step lemma for its event and the lemma that says what the event runs. -/
theorem stepRunsTheDecodedInstruction : Obligations.StepRunsTheDecodedInstruction := by
  intro s i rest
  refine ⟨fun addr w off hp hoff hctrl hi => ?_, fun f w hp hf hi => ?_, fun nbits w hi => ?_, step_of_pending_nil⟩
  · rw [step_of_pending_cons hp]
    exact hostWrite_of_decode (s := { s with pending := rest }) hoff hctrl hi
  · rw [step_of_pending_cons hp]
    exact handle_line_of_decode hf hi
  · rw [step_of_pending_cons (s := s.withFetchWord nbits w) rfl]
    exact handle_fetchEvent (s := s) (decode_of_decodeTableWord hi)

end Sys2Proof.Machine
end

