-- ==== Sys2Proof/Proofs/RegisterPort.lean ====
section
/-! PROOFS. What a write to the register port does, offset by offset: a host-written register reads back (R24 to R26, R38 to R42),
STATUS clears its W1C bits (R29), and every other offset ignores it (R48, R49). -/

namespace Sys2Proof.Machine

/-! ### Offsets -/

@[simp] theorem alignOffset_mod_four (off : Nat) : alignOffset off % 4 = 0 := by unfold alignOffset; omega

/-- The offsets with an RW register, and the mask of each (R23). -/
theorem writableMask_eq_some {off : Nat} {m : Word} (h : writableMask off = some m) :
    (off = 0x000 ∧ m = 0x0000F0F0) ∨ (off = 0x004 ∧ m = 0x00000FFF) ∨ (off = 0x080 ∧ m = 0x0000FFFF)
      ∨ (off = 0x084 ∧ m = 0x0000001F) ∨ (off = 0x088 ∧ m = 0xFFFFFFFF) ∨ (off = 0x08C ∧ m = 0x000000FF)
      ∨ (∃ k < 16, off = 0x0C0 + 4 * k) ∧ m = 0x0000FFFF := by
  unfold writableMask at h
  split_ifs at h with h0 h1 h2 h3 h4 h5 h6 <;> obtain rfl := Option.some.inj h
  · exact .inl ⟨h0, rfl⟩
  · exact .inr (.inl ⟨h1, rfl⟩)
  · exact .inr (.inr (.inl ⟨h2, rfl⟩))
  · exact .inr (.inr (.inr (.inl ⟨h3, rfl⟩)))
  · exact .inr (.inr (.inr (.inr (.inl ⟨h4, rfl⟩))))
  · exact .inr (.inr (.inr (.inr (.inr (.inl ⟨h5, rfl⟩)))))
  · exact .inr (.inr (.inr (.inr (.inr (.inr ⟨⟨(off - 0x0C0) / 4, by omega, by omega⟩, rfl⟩)))))

/-- The offsets a running command protects are those with an RW register (R143). -/
theorem writableOffset_iff {off : Nat} (h : off % 4 = 0) : writableOffset off = true ↔ ∃ m, writableMask off = some m := by
  unfold writableMask
  split_ifs <;> simp [writableOffset] <;> omega

/-- A bank of `n` registers from offset `base` on holds every fourth offset of its range (R23). -/
theorem mem_registerBank {base n off : Nat} :
    off ∈ (List.range n).map (base + 4 * ·) ↔ base ≤ off ∧ off < base + 4 * n ∧ (off - base) % 4 = 0 := by
  simp only [List.mem_map, List.mem_range]
  constructor
  · rintro ⟨k, hk, rfl⟩
    omega
  · rintro ⟨hle, hlt, hmod⟩
    exact ⟨(off - base) / 4, by omega, by omega⟩

/-- The offsets that hold a register, bank by bank. -/
theorem mappedOffsets_eq_banks : mappedOffsets = (List.range 13).map (0x000 + 4 * ·) ++ (List.range 16).map (0x040 + 4 * ·)
    ++ (List.range 4).map (0x080 + 4 * ·) ++ (List.range 16).map (0x0C0 + 4 * ·) ++ (List.range 16).map (0x100 + 4 * ·) := by
  decide

/-- The aligned offsets that hold a register are three ranges (R23). -/
theorem mem_mappedOffsets {off : Nat} (h : off % 4 = 0) :
    off ∈ mappedOffsets ↔ off < 0x034 ∨ (0x040 ≤ off ∧ off < 0x090) ∨ (0x0C0 ≤ off ∧ off < 0x140) := by
  rw [mappedOffsets_eq_banks, List.mem_append, List.mem_append, List.mem_append, List.mem_append, mem_registerBank, mem_registerBank, mem_registerBank,
    mem_registerBank, mem_registerBank]
  constructor <;> intro h' <;> omega

/-! ### What the port reads -/

/-- An offset without a register reads 0, whatever the engine's registers hold (R48). -/
theorem register_reserved {off : Nat} (h : off % 4 = 0) (hres : off ∉ mappedOffsets) (s : State) (v : View) :
    s.register v off = 0 := by
  rw [mem_mappedOffsets h] at hres
  unfold State.register
  rw [if_neg, if_neg, if_neg, if_neg, if_neg, if_neg, if_neg, if_neg, if_neg, if_neg, if_neg, if_neg, if_neg, if_neg, if_neg,
    if_neg, if_neg] <;> omega

/-! ### Fields and bits of a register word -/

/-- A field cut out of a word stands where it was, the other bits 0. -/
theorem fieldAt_extractLsb' (n w : Nat) (v : Word) :
    fieldAt n (v.extractLsb' n w) = v &&& (BitVec.allOnes w).setWidth 32 <<< n := by
  apply BitVec.eq_of_getLsbD_eq
  intro i hi
  by_cases hn : i < n
  · simp [fieldAt, hn]
  · have hin : n + (i - n) = i := by omega
    simp [fieldAt, hi, hn, hin, Bool.and_comm]

/-- A bit cut out of a word stands where it was, the other bits 0. -/
theorem bitAt_getLsbD (n : Nat) (v : Word) : bitAt n (v.getLsbD n) = v &&& 1#32 <<< n := by
  have hbit : BitVec.ofBool (v.getLsbD n) = v.extractLsb' n 1 := by
    apply BitVec.eq_of_getLsbD_eq
    intro i hi
    obtain rfl : i = 0 := by omega
    simp
  have h := fieldAt_extractLsb' n 1 v
  rwa [← hbit] at h

/-- Masking a field of a register word masks the field. -/
theorem fieldAt_and {w : Nat} (n : Nat) (f : BitVec w) (v : Word) :
    fieldAt n f &&& v = fieldAt n (f &&& v.extractLsb' n w) := by
  apply BitVec.eq_of_getLsbD_eq
  intro i hi
  by_cases hn : i < n
  · simp [fieldAt, hn]
  · have hin : n + (i - n) = i := by omega
    have hout : ¬i - n < w → f.getLsbD (i - n) = false := fun hw => BitVec.getLsbD_of_ge f _ (by omega)
    by_cases hw : i - n < w
    · simp [fieldAt, hi, hn, hin, hw]
    · simp [fieldAt, hn, hout hw]

/-- Masking a bit of a register word masks the bit. -/
theorem bitAt_and (n : Nat) (b : Bool) (v : Word) : bitAt n b &&& v = bitAt n (b && v.getLsbD n) := by
  have hbit : BitVec.ofBool b &&& v.extractLsb' n 1 = BitVec.ofBool (b && v.getLsbD n) := by
    apply BitVec.eq_of_getLsbD_eq
    intro i hi
    obtain rfl : i = 0 := by omega
    simp
  have h := fieldAt_and n (BitVec.ofBool b) v
  rwa [hbit] at h

/-! ### What a write does -/

/-- A write that is no START only changes registers (R140). -/
theorem hostWrite_of_not_start {s : State} {addr v : Word} {off : Nat} (hoff : s.portOffset addr = some off)
    (hstart : alignOffset off = 0x000 → v.getLsbD 0 = false) : hostWrite addr v s = .next (s.writePort off v) := by
  have hns : isStart off v = false := by
    by_cases h0 : alignOffset off = 0x000
    · simp only [isStart, wordStart, hstart h0, Bool.and_false]
    · simp [isStart, h0]
  simp [hostWrite, hoff, hns]

theorem writePort_status {off : Nat} (h : alignOffset off = 0x008) (v : Word) (s : State) :
    s.writePort off v = s.writeStatus v := by simp [State.writePort, h]

/-- A write to an RW register of an idle core (R24 to R26, R38 to R42). -/
theorem writePort_writable {s : State} {off : Nat} {m : Word} (hm : writableMask (alignOffset off) = some m)
    (hidle : s.running = none) (v : Word) :
    s.writePort off v = { s with regs := s.regs.write (alignOffset off) v } := by
  have hw : writableOffset (alignOffset off) = true := (writableOffset_iff (alignOffset_mod_four off)).2 ⟨m, hm⟩
  have h8 : alignOffset off ≠ 0x008 := by
    intro h8
    rw [h8] at hw
    exact absurd hw (by decide)
  simp [State.writePort, h8, hw, busy_eq_false hidle]

/-- Offsets that are neither STATUS nor an RW register ignore a write (R48, R49). -/
theorem writePort_ignored {s : State} {off : Nat} (h8 : alignOffset off ≠ 0x008) (hm : writableMask (alignOffset off) = none)
    (v : Word) : s.writePort off v = s := by
  have hw : ¬writableOffset (alignOffset off) = true := fun hw => by
    obtain ⟨m, hsome⟩ := (writableOffset_iff (alignOffset_mod_four off)).1 hw
    exact nomatch hm.symm.trans hsome
  simp [State.writePort, h8, hw]

/-- TX_SWORD as it reads (R42). -/
theorem register_txSword {k : Nat} (hk : k < 16) (s : State) (w : View) :
    s.register w (0x0C0 + 4 * k) = fieldAt 0 (s.regs.txSword[k]?.getD 0) := by
  interval_cases k <;> rfl

/-- A write to TX_SWORD (R42). -/
theorem Regs.write_txSword {k : Nat} (hk : k < 16) (v : Word) (r : Regs) :
    r.write (0x0C0 + 4 * k) v = { r with txSword := r.txSword.setIfInBounds k (v.extractLsb' 0 16) } := by
  interval_cases k <;> rfl

/-- A host-written register reads what was written, under the mask of its writable bits (R24 to R26, R38 to R42). -/
theorem register_write_same {off : Nat} {m : Word} (hm : writableMask off = some m) (s : State) (v : Word) (w : View) :
    ({ s with regs := s.regs.write off v } : State).register w off = v &&& m := by
  rcases writableMask_eq_some hm with ⟨rfl, rfl⟩ | ⟨rfl, rfl⟩ | ⟨rfl, rfl⟩ | ⟨rfl, rfl⟩ | ⟨rfl, rfl⟩ | ⟨rfl, rfl⟩
    | ⟨⟨k, hk, rfl⟩, rfl⟩
  · show fieldAt 4 (v.extractLsb' 4 4) ||| fieldAt 12 (v.extractLsb' 12 4) = _
    rw [fieldAt_extractLsb', fieldAt_extractLsb', ← BitVec.and_or_distrib_left]
    rfl
  · show fieldAt 0 (v.extractLsb' 0 8) ||| bitAt 8 (v.getLsbD 8) ||| bitAt 9 (v.getLsbD 9) ||| bitAt 10 (v.getLsbD 10)
      ||| bitAt 11 (v.getLsbD 11) = _
    rw [fieldAt_extractLsb', bitAt_getLsbD, bitAt_getLsbD, bitAt_getLsbD, bitAt_getLsbD, ← BitVec.and_or_distrib_left,
      ← BitVec.and_or_distrib_left, ← BitVec.and_or_distrib_left, ← BitVec.and_or_distrib_left]
    rfl
  · exact fieldAt_extractLsb' 0 16 v
  · exact fieldAt_extractLsb' 0 5 v
  · show fieldAt 0 (v.extractLsb' 0 16) ||| fieldAt 16 (v.extractLsb' 16 16) = _
    rw [fieldAt_extractLsb', fieldAt_extractLsb', ← BitVec.and_or_distrib_left]
    rfl
  · exact fieldAt_extractLsb' 0 8 v
  · rw [register_txSword hk, Regs.write_txSword hk]
    simp only [Vector.getElem?_setIfInBounds_self_of_lt hk, Option.getD_some]
    exact fieldAt_extractLsb' 0 16 v

/-- CTRL alone shows OP and ARG (R25). -/
theorem register_setCtrl {off : Nat} (h : off ≠ 0x000) (op arg : BitVec 4) (s : State) (w : View) :
    ({ s with regs := { s.regs with op := op, arg := arg } } : State).register w off = s.register w off := by
  unfold State.register
  rw [if_neg h, if_neg h]
  rfl

/-- No other register shows what a write changed. -/
theorem register_write_other {off off' : Nat} {m : Word} (hm : writableMask off = some m) (hne : off' ≠ off)
    (hal : off' % 4 = 0) (s : State) (v : Word) (w : View) :
    ({ s with regs := s.regs.write off v } : State).register w off' = s.register w off' := by
  rcases writableMask_eq_some hm with ⟨rfl, -⟩ | ⟨rfl, -⟩ | ⟨rfl, -⟩ | ⟨rfl, -⟩ | ⟨rfl, -⟩ | ⟨rfl, -⟩
    | ⟨⟨k, hk, rfl⟩, -⟩
  case inl => exact register_setCtrl hne _ _ s w
  case inr.inr.inr.inr.inr.inr =>
    rw [Regs.write_txSword hk]
    by_cases hbank : 0x0C0 ≤ off' ∧ off' < 0x100
    · obtain ⟨j, hj, rfl⟩ : ∃ j < 16, off' = 0x0C0 + 4 * j := ⟨(off' - 0x0C0) / 4, by omega, by omega⟩
      have hkj : k ≠ j := by omega
      rw [register_txSword hj, register_txSword hj]
      simp only [Vector.getElem?_setIfInBounds_ne hkj]
    · unfold State.register
      simp only [if_neg hbank]
      rfl
  -- a single register: its own branch of `State.register` is not taken
  all_goals
    unfold State.register
    simp only [if_neg hne]
    rfl

/-- Settles O14: the write reaches the host-written registers alone; the two lemmas above say how they read. -/
theorem writableRegistersReadBack : Obligations.WritableRegistersReadBack := by
  intro s addr v m off hoff hidle hm hstart
  refine ⟨{ s with regs := s.regs.write (alignOffset off) v }, ?_, rfl, register_write_same hm s v _,
    fun off' _ hal hne => register_write_other hm hne hal s v _⟩
  rw [hostWrite_of_not_start hoff hstart, writePort_writable hm hidle]

/-! ### STATUS -/

/-- A mask that spares ERR leaves it as it is. -/
theorem fieldAt_err_and_not (e : ErrorCode) (v : Word) {m : Word} (hm : m.extractLsb' 4 4 = 0#4) :
    fieldAt 4 (errorNumber e) &&& ~~~(v &&& m) = fieldAt 4 (errorNumber e) := by
  have hones : (~~~(v &&& m)).extractLsb' 4 4 = BitVec.allOnes 4 := by
    rw [BitVec.extractLsb'_not_of_lt (by decide), BitVec.extractLsb'_and, hm, BitVec.and_zero]
    rfl
  rw [fieldAt_and, hones, BitVec.and_allOnes]

/-- Clearing the W1C bits written as 1 is masking STATUS with the complement of those bits (R29). -/
theorem status_writeStatus (v : Word) (s : State) : (s.writeStatus v).status = s.status &&& ~~~(v &&& 0x00030002#32) := by
  have hmask : (0x00030002#32).extractLsb' 4 4 = 0#4 := by decide
  unfold State.status State.statusWith
  simp only [BitVec.and_or_distrib_right, bitAt_and, fieldAt_err_and_not _ _ hmask]
  simp [State.busy]

/-- Settles O15: STATUS is no CTRL, so the write is `State.writeStatus` whether or not a command runs. -/
theorem statusWriteClearsOnlyItsBits : Obligations.StatusWriteClearsOnlyItsBits := by
  intro s addr v off hoff hstatus
  refine ⟨s.writeStatus v, ?_, status_writeStatus v s, rfl⟩
  rw [hostWrite_of_not_start hoff (by omega), writePort_status hstatus]

/-! ### Offsets that ignore a write -/

/-- Settles O16: no case of `State.register` and no case of `State.writePort` has such an offset. -/
theorem reservedAndReadOnlyOffsetsIgnoreWrites : Obligations.ReservedAndReadOnlyOffsetsIgnoreWrites := by
  intro s addr v off hoff
  refine ⟨fun hres w => register_reserved (alignOffset_mod_four off) hres s w, fun h8 hm => ?_⟩
  have hctrl : alignOffset off ≠ 0x000 := fun h0 => by
    rw [h0] at hm
    exact absurd hm (by decide)
  rw [hostWrite_of_not_start hoff (fun h0 => absurd h0 hctrl), writePort_ignored h8 hm]

end Sys2Proof.Machine
end

