-- ==== Sys2Proof/Proofs/CommandFrame.lean ====
section
/-! PROOFS. What each command leaves alone of the registers the engine writes. A command's results and counters are compared
under a map that hides the fields its rule names: two views agree under it exactly when every other field is the same. -/

namespace Sys2Proof.Machine

/-! ### Hiding fields of a view -/

/-- RX_POS hidden: what reading samples may change (R43). -/
def View.hidePos (v : View) : View := { v with pos := 0 }

/-- TX_COUNT hidden: what emitting samples may change (R44). -/
def View.hideCount (v : View) : View := { v with count := 0 }

/-- RX_RESULT.SYM hidden (R152). -/
def View.hideSym (v : View) : View := { v with res := { v.res with sym := .nl } }

/-- RX_RESULT.BIT hidden (R155). -/
def View.hideBit (v : View) : View := { v with res := { v.res with bit := false } }

/-- STATUS.SKIPPED hidden (R140, R205, R243). -/
def View.hideSkipped (v : View) : View := { v with res := { v.res with skipped := false } }

/-- SYNC_STATE, ROLE and ROLE_VALID hidden (R179). -/
def View.hideSync (v : View) : View :=
  { v with res := { v.res with syncState := .idle, kind := false, elem := 0, role := false, roleValid := false } }

/-- RX_MWORD hidden (R197). -/
def View.hideMword (v : View) : View := { v with res := { v.res with mword := 0, mchk := 0 } }

/-- RX_SCNT, RX_SCHK and RX_SWORD hidden (R201). -/
def View.hideSlave (v : View) : View :=
  { v with res := { v.res with count := 0, expected := 0, chunks := 0, schk := Vector.replicate 4 0,
                               sword := Vector.replicate 16 0 } }

/-- What Sync may change, hidden (R179). -/
def View.hideSearch (v : View) : View := v.hidePos.hideSync

/-- What ReadMaster may change, hidden (R197). -/
def View.hideMaster (v : View) : View := v.hideSearch.hideMword

/-- What ReadSlave may change, hidden (R179, R201). -/
def View.hideSlaveFrame (v : View) : View := v.hideSearch.hideSlave

/-- What the body of an opcode may change, hidden. -/
def hiddenBy (op : BitVec 4) (v : View) : View :=
  match op.toNat with
  | 0x1 => v.hidePos.hideSym
  | 0x2 => v.hidePos.hideBit
  | 0x3 => v.hideSearch
  | 0x4 => v.hideMaster
  | 0x5 => v.hideSlaveFrame
  | 0x6 => v.hideMaster.hideSlave.hideSkipped
  | 0x8 | 0x9 | 0xA | 0xB => v.hideCount
  | 0xC => v.hideCount.hideSkipped
  | _ => v

/-! ### Parts of a body agree under what they hide -/

/-- The registers the engine writes, of the data of a command. -/
def Data.view (d : Data) : View := { res := d.res, pos := d.rx.pos, count := d.tx.count }

/-- From `d` to `d'` no field is changed that `g` does not hide. -/
def Agree (g : View → View) (d d' : Data) : Prop := g d'.view = g d.view

theorem Agree.refl (g : View → View) (d : Data) : Agree g d d := rfl

theorem Agree.trans {g : View → View} {a b c : Data} (h1 : Agree g a b) (h2 : Agree g b c) : Agree g a c :=
  Eq.trans h2 h1

/-- Hiding more keeps agreement. -/
theorem Agree.hide {g : View → View} {d d' : Data} (h : Agree g d d') (more : View → View) :
    Agree (fun v => more (g v)) d d' := congrArg more h

theorem Agree.bind {α β : Type} {g : View → View} {d : Data} {r : Res α} {f : α → Data → Res β} (hr : Agree g d r.left)
    (hf : ∀ a d', Agree g d' (f a d').left) : Agree g d (r.bind f).left := Res.left_bind (Agree g) Agree.trans hr hf

theorem Agree.onRaise {α : Type} {g : View → View} {d : Data} {r : Res α} {f : Data → Data} (h : Agree g d r.left)
    (hf : ∀ d, Agree g d (f d)) : Agree g d (r.onRaise f).left := by
  cases r with
  | ok a d' => exact h
  | raised e d' => exact h.trans (hf d')
  | waiting w d' => exact h

/-- A part that only reads samples and writes no result changes RX_POS alone. -/
theorem Reads.agree {d d' : Data} (h : Reads d d') (hres : SameResults d d') : Agree View.hidePos d d' := by
  simp only [Agree, Data.view, View.hidePos, h.1, hres.1]

/-- A part that only emits samples changes TX_COUNT alone. -/
theorem Writes.agree {d d' : Data} (h : Writes d d') : Agree View.hideCount d d' := by
  simp only [Agree, Data.view, View.hideCount, h.1, h.2.1]

theorem decodeSymbol_agree (c : Ctx) (d : Data) : Agree View.hidePos d (decodeSymbol c d).left :=
  (decodeSymbol_reads c d).agree (decodeSymbol_sameResults c d)

theorem decodeBit_agree (c : Ctx) (d : Data) : Agree View.hidePos d (decodeBit c d).left :=
  (decodeBit_reads c d).agree (decodeBit_sameResults c d)

theorem readBits_agree (c : Ctx) (n : Nat) (d : Data) : Agree View.hidePos d (readBits c n d).left :=
  (readBits_reads c n d).agree (readBits_sameResults c n d)

theorem readElement_agree (c : Ctx) (e : Element) (d : Data) : Agree View.hidePos d (readElement c e d).left :=
  (readElement_reads c e d).agree (readElement_sameResults c e d)

theorem readEnd_agree (c : Ctx) (d : Data) : Agree View.hidePos d (readEnd c d).left :=
  (readEnd_reads c d).agree (readEnd_sameResults c d)

/-! ### The synchronizer and the frame parser -/

theorem Agree.search {d d' : Data} (h : Agree View.hidePos d d') : Agree View.hideSearch d d' := h.hide View.hideSync

theorem matchElements_agree (c : Ctx) (es : List Element) (j : Nat) (d : Data) :
    Agree View.hideSearch d (matchElements c es j d).left := by
  induction es generalizing j d with
  | nil => exact Agree.refl _ d
  | cons e es ih =>
    refine (readElement_agree c e d).search.bind fun good d => ?_
    cases good with
    | false => exact Agree.refl _ d
    | true => exact Agree.trans (b := d.setRes fun r => { r with elem := BitVec.ofNat 4 j }) rfl (ih _ _)

theorem syncDelimiter_agree (c : Ctx) (d : Data) : Agree View.hideSearch d (syncDelimiter c d).left := by
  refine (decodeSymbol_agree c d).search.bind fun x d => ?_
  cases kindOfFirst x with
  | none => exact Agree.refl _ d
  | some kind =>
    refine Agree.bind (Agree.trans (b := (d.setRes fun r => { r with kind := kind }).setRes fun r => { r with elem := 1 }) rfl
      (matchElements_agree c _ 2 _)) fun _ d => rfl

theorem sync_agree (c : Ctx) (d : Data) : Agree View.hideSearch d (sync c d).left := by
  have until_agree (v : Level) (d : Data) : Agree View.hideSearch d (advanceUntil c v d).left :=
    ((advanceUntil_reads c v d).agree (advanceUntil_sameResults c v d)).search
  refine Agree.onRaise ?_ fun d => rfl
  refine Agree.bind (Agree.trans (b := d.syncBegin) rfl (until_agree HIGH _)) fun _ d => ?_
  refine Agree.bind (Agree.trans (b := d.setSync .awaitLow) rfl (until_agree LOW _)) fun _ d => ?_
  refine Agree.bind (Agree.trans (b := d.setSync .atStartBit) rfl
    ((advance_reads _ _).agree (advance_sameResults _ _)).search) fun _ d => ?_
  exact Agree.trans (b := d.setSync .inDelimiter) rfl (syncDelimiter_agree c _)

theorem readMaster_agree (c : Ctx) (d : Data) : Agree View.hideMaster d (readMaster c d).left := by
  have read {d d' : Data} (h : Agree View.hidePos d d') : Agree View.hideMaster d d' := h.search.hide View.hideMword
  refine Agree.bind ((sync_agree c d).hide View.hideMword) fun kind d => ?_
  split
  · exact Agree.refl _ d
  refine Agree.bind (read (readBits_agree c 16 d)) fun w d => ?_
  refine Agree.bind (Agree.trans (b := d.setRes fun r => { r with mword := w }) rfl (read (readBits_agree c 8 _)))
    fun chk d => ?_
  refine Agree.trans (b := d.setRes fun r => { r with mchk := chk }) rfl ?_
  dsimp only
  split
  · exact Agree.refl _ _
  · exact Agree.bind (read (readEnd_agree c _)) fun _ d => Agree.refl _ d

theorem Agree.slaveFrame {d d' : Data} (h : Agree View.hidePos d d') : Agree View.hideSlaveFrame d d' :=
  h.search.hide View.hideSlave

theorem readWords_agree (c : Ctx) (m i : Nat) (d : Data) : Agree View.hideSlaveFrame d (readWords c m i d).left := by
  induction m generalizing i d with
  | zero => exact Agree.refl _ d
  | succ m ih =>
    exact Agree.bind (readBits_agree c 16 d).slaveFrame fun w d => Agree.trans
      (b := (d.setRes fun r => r.setSword i w).setRes fun r => { r with count := BitVec.ofNat 5 (i + 1) }) rfl (ih _ _)

theorem readChunks_agree (c : Ctx) (ms : List Nat) (i k : Nat) (d : Data) :
    Agree View.hideSlaveFrame d (readChunks c ms i k d).left := by
  induction ms generalizing i k d with
  | nil => exact Agree.refl _ d
  | cons m ms ih =>
    refine Agree.bind (Agree.trans (b := d.setDp fun p => { p with i := i, k := k, m := m }) rfl (readWords_agree c m i _))
      fun _ d => ?_
    refine Agree.bind (readBits_agree c 8 d).slaveFrame fun chk d => ?_
    refine Agree.trans (b := (d.setRes fun r => r.setSchk k chk).setRes fun r => { r with chunks := BitVec.ofNat 3 (k + 1) })
      rfl ?_
    dsimp only
    split
    · exact Agree.refl _ _
    · exact ih _ _ _

theorem readSlave_agree (c : Ctx) (fc : BitVec 4) (d : Data) : Agree View.hideSlaveFrame d (readSlave c fc d).left := by
  refine Agree.bind (Agree.trans (b := d.slaveBegin (c.words fc)) rfl ((sync_agree c _).hide View.hideSlave)) fun kind d => ?_
  split
  · exact Agree.refl _ d
  · exact Agree.bind (readChunks_agree c _ 0 0 d) fun _ d => (readEnd_agree c d).slaveFrame

/-! ### Whole bodies -/

theorem bodyRdTelegram_agree (c : Ctx) (d : Data) : Agree (hiddenBy 0x6) d (bodyRdTelegram c d).left := by
  refine Agree.bind ((readMaster_agree c d).hide fun v => v.hideSlave.hideSkipped) fun w d => ?_
  split
  · rfl
  · exact (readSlave_agree c _ d).hide fun v => v.hideMword.hideSkipped

theorem bodyEncTelegram_agree (c : Ctx) (d : Data) : Agree (hiddenBy 0xC) d (bodyEncTelegram c d).left := by
  have emits {d d' : Data} (h : Writes d d') : Agree (hiddenBy 0xC) d d' := h.agree.hide View.hideSkipped
  refine Agree.bind (emits (encodeMaster_writes c _ d)) fun _ d => ?_
  refine Agree.bind (emits (emitGap_writes c d)) fun _ d => ?_
  split
  · rfl
  · exact emits (encodeSlave_writes c _ d)

/-- Every body changes only what `hiddenBy` hides for its opcode, whichever way it ends. -/
theorem commandBody_agree (op : BitVec 4) (c : Ctx) (d : Data) : Agree (hiddenBy op) d (commandBody op c d).left := by
  generalize hb : commandBody op = b
  unfold commandBody at hb
  split at hb <;> subst hb
  next h =>
    obtain rfl : op = 0x1 := BitVec.eq_of_toNat_eq h
    exact Agree.bind ((decodeSymbol_agree c d).hide View.hideSym) fun _ _ => rfl
  next h =>
    obtain rfl : op = 0x2 := BitVec.eq_of_toNat_eq h
    exact Agree.bind ((decodeBit_agree c d).hide View.hideBit) fun _ _ => rfl
  next h =>
    obtain rfl : op = 0x3 := BitVec.eq_of_toNat_eq h
    exact Agree.bind (sync_agree c d) fun _ _ => rfl
  next h =>
    obtain rfl : op = 0x4 := BitVec.eq_of_toNat_eq h
    exact Agree.bind (readMaster_agree c d) fun _ _ => rfl
  next h =>
    obtain rfl : op = 0x5 := BitVec.eq_of_toNat_eq h
    exact readSlave_agree c _ d
  next h =>
    obtain rfl : op = 0x6 := BitVec.eq_of_toNat_eq h
    exact bodyRdTelegram_agree c d
  next h =>
    obtain rfl : op = 0x8 := BitVec.eq_of_toNat_eq h
    exact (encodeSymbol_writes c _ d).agree
  next h =>
    obtain rfl : op = 0x9 := BitVec.eq_of_toNat_eq h
    exact (encodeBit_writes c _ d).agree
  next h =>
    obtain rfl : op = 0xA := BitVec.eq_of_toNat_eq h
    exact (encodeMaster_writes c _ d).agree
  next h =>
    obtain rfl : op = 0xB := BitVec.eq_of_toNat_eq h
    exact (encodeSlave_writes c _ d).agree
  next h =>
    obtain rfl : op = 0xC := BitVec.eq_of_toNat_eq h
    exact bodyEncTelegram_agree c d
  next => exact Agree.refl _ d

/-! ### Whole commands -/

/-- What an accepted command leaves: CTRL names it, and the streams and results are those of its START, if a start check failed,
or those its body has come to (R140 to R142, R149). -/
theorem exec_command_leaves {i : Instr} {op : BitVec 4} {arg : Nat} {s t : State} (hi : commandParts i = some (op, arg))
    (hidle : s.running = none) (ht : exec i s = .next t) :
    t.regs = { s.regs with op := op, arg := BitVec.ofNat 4 arg } ∧ t.params = s.params
      ∧ ∃ d, (d = s.data.started ∨ d = (commandBody op (s.ctxOf op arg) s.data.started).left)
          ∧ t.data.rx = d.rx ∧ t.data.tx = d.tx ∧ t.data.res = d.res := by
  rw [exec_command hi] at ht
  cases ht
  cases hc : startCheck (s.begin op (BitVec.ofNat 4 arg)).regs with
  | some e =>
    rw [startCommand_fails hidle hc]
    exact ⟨rfl, rfl, _, .inl rfl, rfl, rfl, rfl⟩
  | none =>
    rw [startCommand_runs hidle hc, begin_data, begin_ctx]
    cases commandBody op (s.ctxOf op arg) s.data.started <;> exact ⟨rfl, rfl, _, .inr rfl, rfl, rfl, rfl⟩

/-- An accepted command clears SKIPPED and changes no more of the engine's registers than `hiddenBy` hides. -/
theorem exec_command_agree {i : Instr} {op : BitVec 4} {arg : Nat} {s t : State} (hi : commandParts i = some (op, arg))
    (hidle : s.running = none) (ht : exec i s = .next t) :
    hiddenBy op t.viewNow = hiddenBy op s.viewNow.hideSkipped := by
  obtain ⟨-, -, d, hd, hrx, htx, hres⟩ := exec_command_leaves hi hidle ht
  have hview : t.viewNow = d.view := by simp only [State.viewNow, Data.view, hrx, htx, hres]
  have hagree : Agree (hiddenBy op) s.data.started d := by
    rcases hd with rfl | rfl
    · exact Agree.refl _ _
    · exact commandBody_agree op _ _
  rw [hview]
  exact hagree

/-- Settles O47: putting a command's own result fields back into the view that hides them gives the results after it. -/
theorem commandsWriteOnlyTheirResults : Obligations.CommandsWriteOnlyTheirResults := by
  intro s t arg hidle
  have agree {i : Instr} {op : BitVec 4} (hi : commandParts i = some (op, arg)) (ht : exec i s = .next t) :=
    exec_command_agree hi hidle ht
  refine ⟨fun i hi ht => ?_, fun ht => ?_, fun ht => ?_, fun ht => ?_, fun ht => ?_, fun ht => ?_, fun ht => ?_, fun ht => ?_⟩
  · simp only [List.mem_cons, List.not_mem_nil, or_false] at hi
    rcases hi with rfl | rfl | rfl | rfl | rfl | rfl | rfl | rfl | rfl <;> exact congrArg View.res (agree rfl ht)
  · exact congrArg (fun v : View => { v.res with skipped := t.data.res.skipped }) (agree rfl ht)
  · exact congrArg (fun v : View => { v.res with sym := t.data.res.sym }) (agree rfl ht)
  · exact congrArg (fun v : View => { v.res with bit := t.data.res.bit }) (agree rfl ht)
  · exact congrArg (fun v : View => { v.res with
      syncState := t.data.res.syncState, kind := t.data.res.kind, elem := t.data.res.elem
      role := t.data.res.role, roleValid := t.data.res.roleValid }) (agree rfl ht)
  · exact congrArg (fun v : View => { v.res with
      syncState := t.data.res.syncState, kind := t.data.res.kind, elem := t.data.res.elem
      role := t.data.res.role, roleValid := t.data.res.roleValid
      mword := t.data.res.mword, mchk := t.data.res.mchk }) (agree rfl ht)
  · exact congrArg (fun v : View => { v.res with
      syncState := t.data.res.syncState, kind := t.data.res.kind, elem := t.data.res.elem
      role := t.data.res.role, roleValid := t.data.res.roleValid
      count := t.data.res.count, expected := t.data.res.expected, chunks := t.data.res.chunks
      schk := t.data.res.schk, sword := t.data.res.sword }) (agree rfl ht)
  · exact congrArg (fun v : View => { v.res with
      syncState := t.data.res.syncState, kind := t.data.res.kind, elem := t.data.res.elem
      role := t.data.res.role, roleValid := t.data.res.roleValid
      mword := t.data.res.mword, mchk := t.data.res.mchk
      count := t.data.res.count, expected := t.data.res.expected, chunks := t.data.res.chunks
      schk := t.data.res.schk, sword := t.data.res.sword, skipped := t.data.res.skipped }) (agree rfl ht)

/-! ### The bytes of the register port -/

section Hidden
variable {off : Nat} (s : State) (v : View)

theorem register_hidePos (h : off ≠ 0x010) : s.register v.hidePos off = s.register v off := by
  unfold State.register; simp only [if_neg h]; rfl

theorem register_hideCount (h : off ≠ 0x014) : s.register v.hideCount off = s.register v off := by
  unfold State.register; simp only [if_neg h]; rfl

theorem register_hideSym (h : off ≠ 0x018) : s.register v.hideSym off = s.register v off := by
  unfold State.register; simp only [if_neg h]; rfl

theorem register_hideBit (h : off ≠ 0x018) : s.register v.hideBit off = s.register v off := by
  unfold State.register; simp only [if_neg h]; rfl

theorem register_hideSkipped (h : off ≠ 0x008) : s.register v.hideSkipped off = s.register v off := by
  unfold State.register; simp only [if_neg h]; rfl

theorem register_hideSync (hstatus : off ≠ 0x008) (hsync : off ≠ 0x00C) :
    s.register v.hideSync off = s.register v off := by
  unfold State.register; simp only [if_neg hstatus, if_neg hsync]; rfl

theorem register_hideSearch (hstatus : off ≠ 0x008) (hsync : off ≠ 0x00C) (hpos : off ≠ 0x010) :
    s.register v.hideSearch off = s.register v off :=
  (register_hideSync s _ hstatus hsync).trans (register_hidePos s v hpos)

theorem register_hideMword (h : off ≠ 0x01C) : s.register v.hideMword off = s.register v off := by
  unfold State.register; simp only [if_neg h]; rfl

theorem register_hideSlave (hscnt : off ≠ 0x020) (hschk : ¬(0x024 ≤ off ∧ off < 0x034))
    (hsword : ¬(0x040 ≤ off ∧ off < 0x080)) : s.register v.hideSlave off = s.register v off := by
  unfold State.register; simp only [if_neg hscnt, if_neg hschk, if_neg hsword]; rfl

end Hidden

/-- No register outside `writtenOffsets` shows a field that the command may change. -/
theorem register_hiddenBy {i : Instr} {op : BitVec 4} {arg off : Nat} (hi : commandParts i = some (op, arg))
    (hal : off % 4 = 0) (hoff : off ∉ writtenOffsets i) (s : State) (v : View) :
    s.register (hiddenBy op v) off = s.register v off := by
  cases i <;> simp only [commandParts, Option.some.injEq, Prod.mk.injEq, reduceCtorEq] at hi <;> obtain ⟨rfl, rfl⟩ := hi
  all_goals simp only [writtenOffsets, List.mem_append, mem_registerBank, List.mem_cons, List.not_mem_nil, or_false, not_or] at hoff
  case decSymbol => exact (register_hideSym s _ (by omega)).trans (register_hidePos s v (by omega))
  case decBit => exact (register_hideBit s _ (by omega)).trans (register_hidePos s v (by omega))
  case sync => exact register_hideSearch s v (by omega) (by omega) (by omega)
  case rdMaster =>
    calc s.register v.hideMaster off
      _ = s.register v.hideSearch off := register_hideMword s _ (by omega)
      _ = s.register v off := register_hideSearch s v (by omega) (by omega) (by omega)
  case rdSlave =>
    calc s.register v.hideSlaveFrame off
      _ = s.register v.hideSearch off := register_hideSlave s _ (by omega) (by omega) (by omega)
      _ = s.register v off := register_hideSearch s v (by omega) (by omega) (by omega)
  case rdTelegram =>
    calc s.register v.hideMaster.hideSlave.hideSkipped off
      _ = s.register v.hideMaster.hideSlave off := register_hideSkipped s _ (by omega)
      _ = s.register v.hideMaster off := register_hideSlave s _ (by omega) (by omega) (by omega)
      _ = s.register v.hideSearch off := register_hideMword s _ (by omega)
      _ = s.register v off := register_hideSearch s v (by omega) (by omega) (by omega)
  case encTelegram => exact (register_hideSkipped s _ (by omega)).trans (register_hideCount s v (by omega))
  case encSymbol | encBit | encMaster | encSlave => exact register_hideCount s v (by omega)
  case nop | illegalOp7 | illegalOpD | illegalOpE | illegalOpF => rfl

/-- Every command may change CTRL and STATUS (R140, R142). -/
theorem mem_writtenOffsets {i : Instr} {op : BitVec 4} {arg : Nat} (hi : commandParts i = some (op, arg)) :
    0x000 ∈ writtenOffsets i ∧ 0x008 ∈ writtenOffsets i := by
  cases i <;> simp only [commandParts, reduceCtorEq] at hi <;> simp [writtenOffsets]

/-- Outside CTRL and STATUS, a command changes what the port reads only through the view of the engine's registers. -/
theorem register_of_command {s t : State} {op arg : BitVec 4} (hregs : t.regs = { s.regs with op := op, arg := arg })
    (hparams : t.params = s.params) {off : Nat} (hctrl : off ≠ 0x000) (hstatus : off ≠ 0x008) (v : View) :
    t.register v off = s.register v off := by
  unfold State.register State.ctx Ctx.entry
  simp only [if_neg hctrl, if_neg hstatus, hregs, hparams]

/-- Settles O49: such a byte shows neither CTRL nor STATUS nor a field that the command may change. -/
theorem commandsKeepEveryOtherPortByte : Obligations.CommandsKeepEveryOtherPortByte := by
  intro i op arg s t hi hidle ht off _ hoff
  obtain ⟨hregs, hparams, -⟩ := exec_command_leaves hi hidle ht
  obtain ⟨hctrl, hstatus⟩ := mem_writtenOffsets hi
  have hnctrl : alignOffset off ≠ 0x000 := fun h => hoff (h ▸ hctrl)
  have hnstatus : alignOffset off ≠ 0x008 := fun h => hoff (h ▸ hstatus)
  have hidden := register_hiddenBy hi (alignOffset_mod_four off) hoff s
  have hregister : t.register t.viewNow (alignOffset off) = s.register s.viewNow (alignOffset off) :=
    calc t.register t.viewNow (alignOffset off)
      _ = s.register t.viewNow (alignOffset off) := register_of_command hregs hparams hnctrl hnstatus _
      _ = s.register (hiddenBy op t.viewNow) (alignOffset off) := (hidden _).symm
      _ = s.register (hiddenBy op s.viewNow.hideSkipped) (alignOffset off) := by rw [exec_command_agree hi hidle ht]
      _ = s.register s.viewNow.hideSkipped (alignOffset off) := hidden _
      _ = s.register s.viewNow (alignOffset off) := register_hideSkipped s _ hnstatus
  simp only [State.portByte, hregister]

end Sys2Proof.Machine
end

