-- ==== Sys2Proof/Proofs/Streams.lean ====
section
/-! PROOFS. Only reset moves a stream back. A command that waits is run again from the data it started from in an environment
with more samples, rx_end or another limit of the sink (log entry 2), so the key fact is that a body then gets at least as far as
before. -/

namespace Sys2Proof.Machine

/-! ### Both streams only go forward -/

/-- From `d` to `d'` presented samples are consumed in order and the output record grows (R43, R44, R93). -/
def Forward (d d' : Data) : Prop :=
  (∃ n, n ≤ d.rx.ahead.length ∧ d'.rx = d.rx.consume n)
    ∧ d.tx.count ≤ d'.tx.count ∧ d.tx.out <+: d'.tx.out ∧ d'.tx.limit = d.tx.limit

theorem Forward.of_eq {d d' : Data} (hrx : d'.rx = d.rx) (htx : d'.tx = d.tx) : Forward d d' := by
  unfold Forward
  rw [hrx, htx]
  exact ⟨⟨0, Nat.zero_le _, by simp⟩, Nat.le_refl _, List.prefix_rfl, rfl⟩

theorem Forward.refl (d : Data) : Forward d d := Forward.of_eq rfl rfl

theorem Forward.trans {a b c : Data} (h1 : Forward a b) (h2 : Forward b c) : Forward a c := by
  obtain ⟨⟨m, hm, r1⟩, c1, o1, l1⟩ := h1
  obtain ⟨⟨n, hn, r2⟩, c2, o2, l2⟩ := h2
  refine ⟨⟨m + n, ?_, by rw [r2, r1, RxPort.consume_consume]⟩, c1.trans c2, o1.trans o2, l2.trans l1⟩
  rw [r1, RxPort.consume_ahead, List.length_drop] at hn
  omega

theorem Forward.count_le {d d' : Data} (h : Forward d d') : d.tx.count ≤ d'.tx.count := h.2.1

theorem Forward.limit {d d' : Data} (h : Forward d d') : d'.tx.limit = d.tx.limit := h.2.2.2

theorem Forward.ended {d d' : Data} (h : Forward d d') : d'.rx.ended = d.rx.ended := by
  obtain ⟨⟨n, -, hrx⟩, -⟩ := h
  rw [hrx, RxPort.consume_ended]

theorem Forward.bind {α β : Type} {d : Data} {r : Res α} {f : α → Data → Res β} (hr : Forward d r.left)
    (hf : ∀ a d', Forward d' (f a d').left) : Forward d (r.bind f).left := Res.left_bind Forward Forward.trans hr hf

theorem Forward.consume {n : Nat} {d : Data} (h : n ≤ d.rx.ahead.length) : Forward d (d.consume n) :=
  ⟨⟨n, h, rfl⟩, Nat.le_refl _, List.prefix_rfl, rfl⟩

theorem Forward.accept (n : Nat) (v : Level) (d : Data) : Forward d (d.accept n v) :=
  ⟨⟨0, Nat.zero_le _, by simp⟩, Nat.le_add_right _ _, List.prefix_append _ _, rfl⟩

theorem Reads.forward {d d' : Data} (h : Reads d d') : Forward d d' := by
  obtain ⟨htx, -, hrx⟩ := h
  rw [Forward, htx]
  exact ⟨hrx, Nat.le_refl _, List.prefix_rfl, rfl⟩

/-! ### A later environment -/

/-- What the environment may change while a command waits: samples presented after those there are, whether the source has ended,
and the sink's limit. -/
structure Later where
  more : List Level
  ended : Bool
  limit : Option Nat

/-- The data of a command in a later environment. -/
def Data.under (e : Later) (d : Data) : Data :=
  { d with rx := { d.rx with ahead := d.rx.ahead ++ e.more, ended := e.ended }, tx := { d.tx with limit := e.limit } }

@[simp] theorem Data.under_rx (e : Later) (d : Data) :
    (d.under e).rx = { d.rx with ahead := d.rx.ahead ++ e.more, ended := e.ended } := rfl
@[simp] theorem Data.under_tx (e : Later) (d : Data) : (d.under e).tx = { d.tx with limit := e.limit } := rfl
@[simp] theorem Data.under_res (e : Later) (d : Data) : (d.under e).res = d.res := rfl

theorem Data.consume_under {n : Nat} {d : Data} (h : n ≤ d.rx.ahead.length) (e : Later) :
    (d.under e).consume n = (d.consume n).under e := by
  simp [Data.consume, Data.under, RxPort.consume, List.drop_append_of_le_length h]

/-- An ended stream stays ended and gets no more samples (R71). -/
def Later.Follows (e : Later) (d : Data) : Prop := d.rx.ended = true → e.ended = true ∧ e.more = []

theorem Later.Follows.of_forward {e : Later} {d d' : Data} (he : e.Follows d) (h : Forward d d') : e.Follows d' := by
  unfold Later.Follows
  rw [h.ended]
  exact he

/-- The sink accepts what was accepted before. -/
def Later.Accepts (e : Later) (d : Data) : Prop := ∀ lim, e.limit = some lim → d.tx.count ≤ lim

theorem Later.Accepts.of_forward {e : Later} {d d' : Data} (he : e.Accepts d') (h : Forward d d') : e.Accepts d :=
  fun lim hl => h.count_le.trans (he lim hl)

/-- What `r` has come to from some data, `r'` comes to from the same data in the later environment `e`: a return and an error are
the same, and what has waited has gone on. -/
def Res.GoesOn {α : Type} (e : Later) (r r' : Res α) : Prop :=
  match r with
  | .ok a d => r' = .ok a (d.under e)
  | .raised er d => r' = .raised er (d.under e)
  | .waiting _ d => Forward (d.under e) r'.left

/-- `f` moves the streams forward, and in a later environment it gets at least as far. -/
def Resumes {α : Type} (f : Data → Res α) : Prop :=
  ∀ d, Forward d (f d).left
    ∧ ∀ e : Later, e.Follows d → e.Accepts (f d).left → (f d).GoesOn e (f (d.under e))

theorem Resumes.ok {α : Type} (a : α) : Resumes fun d => .ok a d := fun d => ⟨Forward.refl d, fun _ _ _ => rfl⟩

theorem Resumes.raised {α : Type} (er : ErrorCode) : Resumes (α := α) fun d => .raised er d :=
  fun d => ⟨Forward.refl d, fun _ _ _ => rfl⟩

/-- A part may first write results or datapath. -/
theorem Resumes.after {α : Type} {f : Data → Res α} (hf : Resumes f) (g : Data → Data)
    (hg : ∀ e d, g (d.under e) = (g d).under e) (hrx : ∀ d, (g d).rx = d.rx) (htx : ∀ d, (g d).tx = d.tx) :
    Resumes fun d => f (g d) := by
  intro d
  obtain ⟨hforward, hgoes⟩ := hf (g d)
  have hstart : Forward d (g d) := Forward.of_eq (hrx d) (htx d)
  refine ⟨hstart.trans hforward, fun e he ha => ?_⟩
  show (f (g d)).GoesOn e (f (g (d.under e)))
  rw [hg]
  exact hgoes e (he.of_forward hstart) ha

theorem Resumes.bind {α β : Type} {f : Data → Res α} {g : α → Data → Res β} (hf : Resumes f) (hg : ∀ a, Resumes (g a)) :
    Resumes fun d => (f d).bind (g ·) := by
  intro d
  obtain ⟨hforward, hgoes⟩ := hf d
  refine ⟨hforward.bind fun a d' => (hg a d').1, fun e he ha => ?_⟩
  cases hfd : f d with
  | ok a d' =>
    rw [hfd] at hforward hgoes
    simp only [hfd, Res.bind_ok] at ha ⊢
    obtain ⟨hforward', hgoes'⟩ := hg a d'
    have hok : f (d.under e) = .ok a (d'.under e) := hgoes e he (ha.of_forward hforward')
    rw [hok]
    exact hgoes' e (he.of_forward hforward) ha
  | raised er d' =>
    rw [hfd] at hgoes
    simp only [hfd, Res.bind_raised] at ha ⊢
    have hraised : f (d.under e) = .raised er (d'.under e) := hgoes e he ha
    rw [hraised]
    rfl
  | waiting w d' =>
    rw [hfd] at hgoes
    simp only [hfd, Res.bind_waiting] at ha ⊢
    have hon : Forward (d'.under e) (f (d.under e)).left := hgoes e he ha
    exact hon.bind fun a d => (hg a d).1

theorem Resumes.onRaise {α : Type} {f : Data → Res α} (hf : Resumes f) (g : Data → Data)
    (hg : ∀ e d, g (d.under e) = (g d).under e) (hrx : ∀ d, (g d).rx = d.rx) (htx : ∀ d, (g d).tx = d.tx) :
    Resumes fun d => (f d).onRaise g := by
  have hstep (d : Data) : Forward d (g d) := Forward.of_eq (hrx d) (htx d)
  have hleft (r : Res α) : Forward r.left (r.onRaise g).left := by
    cases r with
    | ok a d => exact Forward.refl d
    | raised er d => exact hstep d
    | waiting w d => exact Forward.refl d
  intro d
  obtain ⟨hforward, hgoes⟩ := hf d
  refine ⟨hforward.trans (hleft _), fun e he ha => ?_⟩
  have hon := hgoes e he (ha.of_forward (hleft _))
  show ((f d).onRaise g).GoesOn e ((f (d.under e)).onRaise g)
  cases hfd : f d with
  | ok a d' =>
    rw [hfd] at hon
    rw [show f (d.under e) = .ok a (d'.under e) from hon]
    rfl
  | raised er d' =>
    rw [hfd] at hon
    rw [show f (d.under e) = .raised er (d'.under e) from hon]
    exact congrArg (Res.raised er) (hg e d')
  | waiting w d' =>
    rw [hfd] at hon
    exact Forward.trans hon (hleft _)

/-! ### The stream primitives -/

/-- Consuming more of the samples is going on from where fewer are consumed. -/
theorem Forward.consume_of_le {d : Data} {m n : Nat} (hmn : m ≤ n) (hn : n ≤ d.rx.ahead.length) :
    Forward (d.consume m) (d.consume n) := by
  have hlen : n - m ≤ (d.consume m).rx.ahead.length := by
    rw [Data.consume_rx, RxPort.consume_ahead, List.length_drop]
    omega
  have h := Forward.consume hlen
  rwa [Data.consume_consume, Nat.add_sub_cancel' hmn] at h

/-- Where a primitive ran out of samples, it goes on if it returns or runs out again once more samples have come. -/
theorem RunsOut.goesOn {α : Type} {d : Data} {r r' : Res α} {e : Later} (h : RunsOut d r) (he : e.Follows d)
    (h' : RunsOut (d.under e) r' ∨ ∃ a n, d.rx.ahead.length ≤ n ∧ n ≤ (d.under e).rx.ahead.length
      ∧ d.rx.ahead.length < (d.under e).rx.ahead.length ∧ r' = .ok a ((d.under e).consume n)) : r.GoesOn e r' := by
  have hcut : (d.under e).consume d.rx.ahead.length = (d.consume d.rx.ahead.length).under e :=
    Data.consume_under (Nat.le_refl _) e
  have hlen : d.rx.ahead.length ≤ (d.under e).rx.ahead.length := by simp
  rcases h with ⟨hended, rfl⟩ | ⟨-, w, rfl⟩
  · obtain ⟨hend, hmore⟩ := he hended
    have hsame : (d.under e).rx.ahead.length = d.rx.ahead.length := by simp [hmore]
    rcases h' with (⟨-, rfl⟩ | ⟨hgoing, -⟩) | ⟨_, _, -, -, hlt, -⟩
    · rw [hsame, hcut]
      rfl
    · exact nomatch hend.symm.trans hgoing
    · omega
  · have hleft : ∃ n, d.rx.ahead.length ≤ n ∧ n ≤ (d.under e).rx.ahead.length ∧ r'.left = (d.under e).consume n := by
      rcases h' with (⟨-, rfl⟩ | ⟨-, _, rfl⟩) | ⟨_, n, hle, hn, -, rfl⟩
      · exact ⟨_, hlen, Nat.le_refl _, rfl⟩
      · exact ⟨_, hlen, Nat.le_refl _, rfl⟩
      · exact ⟨n, hle, hn, rfl⟩
    obtain ⟨n, hle, hn, hleft⟩ := hleft
    show Forward _ r'.left
    rw [hleft, ← hcut]
    exact Forward.consume_of_le hle hn

theorem advance_resumes (n : Nat) : Resumes (advance n) := by
  refine fun d => ⟨(advance_reads n d).forward, fun e he _ => ?_⟩
  rcases advance_spec n d with ⟨hn, h⟩ | ⟨hn, hout⟩
  · rw [h, advance_enough (by simp; omega), Data.consume_under hn]
    rfl
  · refine hout.goesOn he ?_
    rcases advance_spec n (d.under e) with ⟨hn', h'⟩ | ⟨-, hout'⟩
    · exact .inr ⟨(), n, by omega, hn', by omega, h'⟩
    · exact .inl hout'

theorem level_resumes (c : Ctx) : Resumes (level c) := by
  refine fun d => ⟨(level_reads c d).forward, fun e he _ => ?_⟩
  rcases level_spec c d with ⟨raw, hraw, h⟩ | ⟨hnil, hout⟩
  · have hlt := (List.getElem?_eq_some_iff.1 hraw).1
    have hraw' : (d.under e).rx.ahead[0]? = some raw := by
      rw [Data.under_rx, List.getElem?_append_left hlt, hraw]
    rw [h, level_present c hraw']
    rfl
  · refine hout.goesOn he ?_
    rcases level_spec c (d.under e) with ⟨raw, hraw, h'⟩ | ⟨-, hout'⟩
    · have hlt := (List.getElem?_eq_some_iff.1 hraw).1
      exact .inr ⟨_, 0, by omega, Nat.zero_le _, by omega, by rw [h', Data.consume_zero]⟩
    · exact .inl hout'

theorem advanceUntil_resumes (c : Ctx) (v : Level) : Resumes (advanceUntil c v) := by
  refine fun d => ⟨(advanceUntil_reads c v d).forward, fun e he _ => ?_⟩
  rcases advanceUntil_spec c v d with ⟨hlt, h⟩ | ⟨heq, hout⟩
  · have hsame : samplesBefore c v (d.under e).rx.ahead = samplesBefore c v d.rx.ahead :=
      samplesBefore_append_left c v e.more hlt
    rcases advanceUntil_spec c v (d.under e) with ⟨-, h'⟩ | ⟨heq', -⟩
    · rw [h, h', hsame, Data.consume_under (by omega)]
      rfl
    · rw [hsame, Data.under_rx, List.length_append] at heq'
      omega
  · refine hout.goesOn he ?_
    have hmore : samplesBefore c v (d.under e).rx.ahead = d.rx.ahead.length + samplesBefore c v e.more :=
      samplesBefore_append_right c v e.more heq
    rcases advanceUntil_spec c v (d.under e) with ⟨hlt', h'⟩ | ⟨-, hout'⟩
    · exact .inr ⟨(), _, by omega, by omega, by omega, h'⟩
    · exact .inl hout'

theorem Data.accept_accept (m n : Nat) (v : Level) (d : Data) : (d.accept m v).accept n v = d.accept (m + n) v := by
  simp [Data.accept, TxPort.accept, Nat.add_assoc]

/-- Accepting more samples of a level is going on from where fewer are accepted. -/
theorem Forward.accept_of_le {m n : Nat} (hmn : m ≤ n) (v : Level) (d : Data) : Forward (d.accept m v) (d.accept n v) := by
  have h := Forward.accept (n - m) v (d.accept m v)
  rwa [Data.accept_accept, Nat.add_sub_cancel' hmn] at h

theorem emit_resumes (n : Nat) (v : Level) : Resumes (emit n v) := by
  intro d
  have hunder (e : Later) (m : Nat) : (d.under e).accept m v = (d.accept m v).under e := rfl
  rcases emit_spec n v d with h | ⟨lim, -, hlim, h⟩
  · rw [h]
    refine ⟨Forward.accept n v d, fun e _ ha => ?_⟩
    rcases emit_spec n v (d.under e) with h' | ⟨lim', hl', hlim', -⟩
    · exact h'
    · have hroom : d.tx.count + n ≤ lim' := ha lim' hl'
      simp only [Data.under_tx] at hlim'
      omega
  · rw [h]
    refine ⟨Forward.accept _ v d, fun e _ ha => ?_⟩
    show Forward _ (emit n v (d.under e)).left
    rw [← hunder]
    rcases emit_spec n v (d.under e) with h' | ⟨lim', hl', -, h'⟩
    · rw [h']
      exact Forward.accept_of_le (by omega) v _
    · have hroom : d.tx.count + (lim - d.tx.count) ≤ lim' := ha lim' hl'
      rw [h']
      exact Forward.accept_of_le (by simp only [Data.under_tx]; omega) v _

/-! ### Decoding -/

theorem decodeSymbol_resumes (c : Ctx) : Resumes (decodeSymbol c) :=
  (advance_resumes _).bind fun _ => (level_resumes c).bind fun _ => (advance_resumes _).bind fun _ =>
    (level_resumes c).bind fun _ => (advance_resumes _).bind fun _ => Resumes.ok _

theorem decodeBit_resumes (c : Ctx) : Resumes (decodeBit c) :=
  (advance_resumes _).bind fun _ => (level_resumes c).bind fun _ => (advanceUntil_resumes c _).bind fun _ =>
    (advance_resumes _).bind fun _ => Resumes.ok _

theorem readBitsLoop_resumes (c : Ctx) (n k : Nat) : Resumes (readBitsLoop c n k) := by
  induction k with
  | zero => exact Resumes.ok ()
  | succ k ih => exact (decodeBit_resumes c).bind fun b => ih.after _ (fun _ _ => rfl) (fun _ => rfl) fun _ => rfl

theorem readBits_resumes (c : Ctx) (n : Nat) : Resumes (readBits c n) :=
  ((readBitsLoop_resumes c n n).after (fun d => d.setDp fun p => { p with acc := 0, nbits := 0 }) (fun _ _ => rfl)
    (fun _ => rfl) fun _ => rfl).bind fun _ d => ⟨Forward.refl d, fun _ _ _ => rfl⟩

theorem readElement_resumes (c : Ctx) (e : Element) : Resumes (readElement c e) := by
  cases e with
  | sym x => exact (decodeSymbol_resumes c).bind fun _ => Resumes.ok _
  | bit b => exact (decodeBit_resumes c).bind fun _ => Resumes.ok _

theorem matchElements_resumes (c : Ctx) (es : List Element) (j : Nat) : Resumes (matchElements c es j) := by
  induction es generalizing j with
  | nil => exact Resumes.ok ()
  | cons e es ih =>
    refine (readElement_resumes c e).bind fun good => ?_
    cases good with
    | false => exact Resumes.raised _
    | true => exact (ih (j + 1)).after _ (fun _ _ => rfl) (fun _ => rfl) fun _ => rfl

theorem syncDelimiter_resumes (c : Ctx) : Resumes (syncDelimiter c) := by
  refine (decodeSymbol_resumes c).bind fun x => ?_
  cases kindOfFirst x with
  | none => exact Resumes.raised _
  | some kind =>
    refine ((matchElements_resumes c _ 2).after (fun d => (d.setRes fun r => { r with kind := kind }).setRes
      fun r => { r with elem := 1 }) (fun _ _ => rfl) (fun _ => rfl) fun _ => rfl).bind fun _ => ?_
    exact (Resumes.ok kind).after _ (fun _ _ => rfl) (fun _ => rfl) fun _ => rfl

theorem sync_resumes (c : Ctx) : Resumes (sync c) := by
  refine Resumes.onRaise ?_ _ (fun _ _ => rfl) (fun _ => rfl) fun _ => rfl
  refine ((advanceUntil_resumes c HIGH).after Data.syncBegin (fun _ _ => rfl) (fun _ => rfl) fun _ => rfl).bind fun _ => ?_
  refine ((advanceUntil_resumes c LOW).after (Data.setSync .awaitLow) (fun _ _ => rfl) (fun _ => rfl) fun _ => rfl).bind
    fun _ => ?_
  refine ((advance_resumes (2 * c.qs)).after (Data.setSync .atStartBit) (fun _ _ => rfl) (fun _ => rfl) fun _ => rfl).bind
    fun _ => ?_
  exact (syncDelimiter_resumes c).after (Data.setSync .inDelimiter) (fun _ _ => rfl) (fun _ => rfl) fun _ => rfl

/-- A choice that does not depend on the environment. -/
theorem Resumes.ite {α : Type} {f g : Data → Res α} {p : Data → Prop} [∀ d, Decidable (p d)]
    (hp : ∀ e d, p (d.under e) ↔ p d) (hf : Resumes f) (hg : Resumes g) : Resumes fun d => if p d then f d else g d := by
  intro d
  by_cases h : p d
  · have hf' := hf d
    simpa only [h, hp, if_true] using hf'
  · have hg' := hg d
    simpa only [h, hp, if_false] using hg'

theorem readEnd_resumes (c : Ctx) : Resumes (readEnd c) :=
  (decodeSymbol_resumes c).bind fun x =>
    Resumes.ite (p := fun _ => x = .nl) (fun _ _ => Iff.rfl) (Resumes.ok ()) (Resumes.raised _)

theorem readMaster_resumes (c : Ctx) : Resumes (readMaster c) := by
  refine (sync_resumes c).bind fun kind => Resumes.ite (p := fun _ => kind = false) (fun _ _ => Iff.rfl) (Resumes.raised _) ?_
  refine (readBits_resumes c 16).bind fun w => ?_
  refine ((readBits_resumes c 8).after (fun d => d.setRes fun r => { r with mword := w }) (fun _ _ => rfl) (fun _ => rfl)
    fun _ => rfl).bind fun chk => ?_
  refine Resumes.after (Resumes.ite (p := fun _ => c.checkValid [w] chk = false)
    (g := fun d => (readEnd c d).bind fun _ d => .ok w d) (fun _ _ => Iff.rfl) (Resumes.raised _) ?_)
    (fun d => d.setRes fun r => { r with mchk := chk }) (fun _ _ => rfl) (fun _ => rfl) fun _ => rfl
  exact (readEnd_resumes c).bind fun _ => Resumes.ok w

theorem readWords_resumes (c : Ctx) (m i : Nat) : Resumes (readWords c m i) := by
  induction m generalizing i with
  | zero => exact Resumes.ok ()
  | succ m ih =>
    exact (readBits_resumes c 16).bind fun w => (ih _).after _ (fun _ _ => rfl) (fun _ => rfl) fun _ => rfl

theorem readChunks_resumes (c : Ctx) (ms : List Nat) (i k : Nat) : Resumes (readChunks c ms i k) := by
  induction ms generalizing i k with
  | nil => exact Resumes.ok ()
  | cons m ms ih =>
    refine ((readWords_resumes c m i).after (fun d => d.setDp fun p => { p with i := i, k := k, m := m }) (fun _ _ => rfl)
      (fun _ => rfl) fun _ => rfl).bind fun _ => ?_
    refine (readBits_resumes c 8).bind fun chk => ?_
    exact Resumes.after (Resumes.ite (p := fun d => c.checkValid (d.res.chunkWords i m) chk = false) (fun _ _ => Iff.rfl)
      (Resumes.raised _) (ih _ _))
      (fun d => (d.setRes fun r => r.setSchk k chk).setRes fun r => { r with chunks := BitVec.ofNat 3 (k + 1) })
      (fun _ _ => rfl) (fun _ => rfl) fun _ => rfl

theorem readSlave_resumes (c : Ctx) (fc : BitVec 4) : Resumes (readSlave c fc) := by
  refine ((sync_resumes c).after (Data.slaveBegin (c.words fc)) (fun _ _ => rfl) (fun _ => rfl) fun _ => rfl).bind fun kind =>
    Resumes.ite (p := fun _ => kind = true) (fun _ _ => Iff.rfl) (Resumes.raised _) ?_
  exact (readChunks_resumes c _ 0 0).bind fun _ => readEnd_resumes c

/-! ### Encoding -/

theorem encodeSymbol_resumes (c : Ctx) (x : Symbol) : Resumes (encodeSymbol c x) :=
  (emit_resumes _ _).bind fun _ => emit_resumes _ _

theorem encodeBit_resumes (c : Ctx) (b : Bool) : Resumes (encodeBit c b) :=
  (emit_resumes _ _).bind fun _ => emit_resumes _ _

theorem encodeBits_resumes (c : Ctx) (bs : List Bool) : Resumes (encodeBits c bs) := by
  induction bs with
  | nil => exact Resumes.ok ()
  | cons b bs ih => exact (encodeBit_resumes c b).bind fun _ => ih

theorem encodeField_resumes (c : Ctx) {n : Nat} (v : BitVec n) : Resumes (encodeField c v) := encodeBits_resumes c _

theorem sendElement_resumes (c : Ctx) (e : Element) : Resumes (sendElement c e) := by
  cases e with
  | sym x => exact encodeSymbol_resumes c x
  | bit b => exact encodeBit_resumes c b

theorem sendElements_resumes (c : Ctx) (es : List Element) : Resumes (sendElements c es) := by
  induction es with
  | nil => exact Resumes.ok ()
  | cons e es ih => exact (sendElement_resumes c e).bind fun _ => ih

theorem encodeStart_resumes (c : Ctx) (kind : Bool) : Resumes (encodeStart c kind) :=
  (encodeBit_resumes c true).bind fun _ => sendElements_resumes c _

theorem encodeMaster_resumes (c : Ctx) (w : Half) : Resumes (encodeMaster c w) :=
  (encodeStart_resumes c true).bind fun _ => (encodeField_resumes c w).bind fun _ =>
    (encodeField_resumes c _).bind fun _ => encodeSymbol_resumes c .nl

theorem encodeWords_resumes (c : Ctx) (ws : List Half) : Resumes (encodeWords c ws) := by
  induction ws with
  | nil => exact Resumes.ok ()
  | cons w ws ih => exact (encodeField_resumes c w).bind fun _ => ih

theorem encodeChunks_resumes (c : Ctx) (ms : List Nat) (ws : List Half) : Resumes (encodeChunks c ms ws) := by
  induction ms generalizing ws with
  | nil => exact Resumes.ok ()
  | cons m ms ih =>
    exact (encodeWords_resumes c _).bind fun _ => (encodeField_resumes c _).bind fun _ => ih _

theorem encodeSlave_resumes (c : Ctx) (ws : List Half) : Resumes (encodeSlave c ws) :=
  (encodeStart_resumes c false).bind fun _ => (encodeChunks_resumes c _ ws).bind fun _ => encodeSymbol_resumes c .nl

/-- The gap is drawn by the counter the body started with, so that it is the same when the body is run again (R244). -/
theorem emitGap_resumes (c : Ctx) : Resumes (emitGap c) := by
  intro d
  let g := gapLength c.regs.gapMin.toNat c.regs.gapMax.toNat d.gapDraws
  exact (emit_resumes g c.regs.cfg.idleLevel).after
    (fun d => { d with gapDraws := d.gapDraws + 1, dp := { d.dp with gap := g } }) (fun _ _ => rfl) (fun _ => rfl)
    (fun _ => rfl) d

/-! ### Whole bodies -/

/-- A body may end by writing one result register. -/
theorem Resumes.setRes {α : Type} (a : α) (f : Results → Results) : Resumes fun d => .ok a (d.setRes f) :=
  (Resumes.ok a).after (Data.setRes f) (fun _ _ => rfl) (fun _ => rfl) fun _ => rfl

theorem bodyRdTelegram_resumes (c : Ctx) : Resumes (bodyRdTelegram c) :=
  (readMaster_resumes c).bind fun w => Resumes.ite (p := fun _ => c.readSkips (wordFcode w) = true) (fun _ _ => Iff.rfl)
    (Resumes.setRes () _) (readSlave_resumes c _)

theorem bodyEncTelegram_resumes (c : Ctx) : Resumes (bodyEncTelegram c) :=
  (encodeMaster_resumes c _).bind fun _ => (emitGap_resumes c).bind fun _ =>
    Resumes.ite (p := fun _ => c.sendSkips (wordFcode c.regs.txMword) = true) (fun _ _ => Iff.rfl)
      (Resumes.setRes () _) (encodeSlave_resumes c _)

/-- Every body moves the streams forward, and in a later environment it gets at least as far. -/
theorem commandBody_resumes (op : BitVec 4) (c : Ctx) : Resumes (commandBody op c) := by
  generalize hb : commandBody op = b
  unfold commandBody at hb
  split at hb <;> subst hb
  · exact (decodeSymbol_resumes c).bind fun _ => Resumes.setRes () _
  · exact (decodeBit_resumes c).bind fun _ => Resumes.setRes () _
  · exact (sync_resumes c).bind fun _ => Resumes.ok ()
  · exact (readMaster_resumes c).bind fun _ => Resumes.ok ()
  · exact readSlave_resumes c _
  · exact bodyRdTelegram_resumes c
  · exact encodeSymbol_resumes c _
  · exact encodeBit_resumes c _
  · exact encodeMaster_resumes c _
  · exact encodeSlave_resumes c _
  · exact bodyEncTelegram_resumes c
  · exact Resumes.ok ()

/-! ### What a step does to the streams -/

/-- From `d` to `d'` neither stream is moved back: what `Obligations.OnlyResetMovesTheStreamsBack` says of a step. -/
def Onward (d d' : Data) : Prop :=
  d.rx.pos ≤ d'.rx.pos ∧ d.tx.out <+: d'.tx.out ∧ (d.rx.ended = true → d'.rx.ended = true)
    ∧ ∃ new : List Level, d'.rx.ahead = (d.rx.ahead ++ new).drop (d'.rx.pos - d.rx.pos) ∧ (d.rx.ended = true → new = [])

/-- Samples are consumed after the environment has moved on (R71, R79). -/
theorem Onward.of_under {e : Later} {d d' : Data} (he : e.Follows d) (h : Forward (d.under e) d') : Onward d d' := by
  obtain ⟨⟨n, -, hrx⟩, -, hout, -⟩ := h
  have hpos : d'.rx.pos = d.rx.pos + n := by rw [hrx]; rfl
  refine ⟨by omega, hout, fun hended => ?_, e.more, ?_, fun hended => (he hended).2⟩
  · rw [hrx]
    exact (he hended).1
  · rw [hpos, Nat.add_sub_cancel_left, hrx]
    rfl

theorem Onward.of_forward {d d' : Data} (h : Forward d d') : Onward d d' := by
  have hsame : d.under ⟨[], d.rx.ended, d.tx.limit⟩ = d := by simp [Data.under]
  exact Onward.of_under (e := ⟨[], d.rx.ended, d.tx.limit⟩) (fun hended => ⟨hended, rfl⟩) (hsame.symm ▸ h)

theorem Onward.refl (d : Data) : Onward d d := Onward.of_forward (Forward.refl d)

/-- The end of a command and a wait leave the streams as the body does. -/
theorem settle_streams (s : State) (start : Data) (r : Res Unit) :
    (s.settle start r).data.rx = r.left.rx ∧ (s.settle start r).data.tx = r.left.tx := by
  cases r <;> exact ⟨rfl, rfl⟩

/-- A change of the environment takes a core onward, whether its command waits or it is idle (R71, R79, R141). The data as it
stands and the data the command started from get the same later environment, as only a `Forward` lies between them. -/
theorem changeData_resume_onward {s : State} (h : Inv s) {f : Data → Data} {e : Later}
    (hf : ∀ d, Forward d s.data → f d = d.under e) (he : e.Follows s.data) (ha : e.Accepts s.data) :
    Onward s.data (s.changeData f).resume.data := by
  refine Onward.of_under he ?_
  rw [← hf s.data (Forward.refl _)]
  obtain ⟨-, -, -, -, hrunning⟩ := h
  unfold State.resume
  cases hr : s.running with
  | none =>
    have hidle : (s.changeData f).running = none := by simp [hr]
    rw [hidle]
    exact Forward.refl _
  | some r =>
    have hwaits : (s.changeData f).running = some { r with start := f r.start } := by simp [hr]
    rw [hwaits]
    obtain ⟨-, hbody⟩ := (runningOk_iff s r).1 (hrunning r hr)
    obtain ⟨hforward, hgoes⟩ := commandBody_resumes s.regs.op s.ctx r.start
    rw [hbody] at hforward hgoes
    have hfollows : e.Follows r.start := by
      unfold Later.Follows
      rw [← hforward.ended]
      exact he
    have hon : Forward (s.data.under e) (commandBody s.regs.op s.ctx (r.start.under e)).left := hgoes e hfollows ha
    rw [← hf r.start hforward, ← hf s.data (Forward.refl _)] at hon
    obtain ⟨hrx, htx⟩ := settle_streams (s.changeData f) (f r.start) (commandBody s.regs.op s.ctx (f r.start))
    exact hon.trans (Forward.of_eq hrx htx)

theorem present_onward {s : State} (h : Inv s) (xs : List Level) : Onward s.data (s.present xs).data := by
  unfold State.present
  split
  · exact Onward.refl _
  next hended =>
    obtain ⟨-, -, hport, -⟩ := id h
    refine changeData_resume_onward h (e := ⟨xs, s.data.rx.ended, s.data.tx.limit⟩) (fun d hd => ?_)
      (fun hend => absurd hend hended) hport.2
    simp only [Data.present, Data.under, hd.ended, hd.limit]

theorem endInput_onward {s : State} (h : Inv s) : Onward s.data s.endInput.data := by
  obtain ⟨-, -, hport, -⟩ := id h
  refine changeData_resume_onward h (e := ⟨[], true, s.data.tx.limit⟩) (fun d hd => ?_) (fun _ => ⟨rfl, rfl⟩) hport.2
  simp only [Data.endInput, Data.under, hd.limit, List.append_nil]

theorem setLimit_onward {s : State} (h : Inv s) {lim : Option Nat} (hlim : ∀ n, lim = some n → s.data.tx.count ≤ n) :
    Onward s.data (s.setLimit lim).data := by
  refine changeData_resume_onward h (e := ⟨[], s.data.rx.ended, lim⟩) (fun d hd => ?_) (fun hend => ⟨hend, rfl⟩) hlim
  simp only [Data.setLimit, Data.under, hd.ended, List.append_nil]

theorem exec_onward {s t : State} (h : Inv s) {i : Instr} (ht : exec i s = .next t) : Onward s.data t.data := by
  cases hparts : commandParts i with
  | none =>
    obtain ⟨xs, hxs⟩ := exec_line hparts s
    rw [hxs] at ht
    cases ht
    exact present_onward h xs
  | some p =>
    obtain ⟨op, arg⟩ := p
    cases hr : s.running with
    | some r =>
      rw [exec_command hparts, startCommand_busy (by simp [State.busy, hr])] at ht
      cases ht
      exact Onward.refl _
    | none =>
      obtain ⟨-, -, d, hd, hrx, htx, -⟩ := exec_command_leaves hparts hr ht
      have hbody : Forward s.data.started d := by
        rcases hd with rfl | rfl
        · exact Forward.refl _
        · exact (commandBody_resumes op _ _).1
      have hstarted : Forward s.data s.data.started := Forward.of_eq rfl rfl
      exact Onward.of_forward ((hstarted.trans hbody).trans (Forward.of_eq hrx htx))

theorem writePort_data (off : Nat) (v : Word) (s : State) : (s.writePort off v).data = s.data := by
  unfold State.writePort
  split_ifs <;> rfl

theorem hostWrite_onward {s t : State} (h : Inv s) {addr v : Word} (ht : hostWrite addr v s = .next t) :
    Onward s.data t.data := by
  unfold hostWrite at ht
  split at ht
  · cases ht
    exact Onward.refl _
  split at ht
  · split at ht
    · exact exec_onward h ht
    · cases ht
      exact Onward.refl _
  · cases ht
    rw [writePort_data]
    exact Onward.refl _

theorem hostRead_data (addr : Word) (s : State) : (hostRead addr s).data = s.data := by
  unfold hostRead
  split <;> rfl

theorem handle_onward {s t : State} (h : Inv s) {ev : Event} (hev : ev ≠ .reset) (ht : handle ev s = .next t) :
    Onward s.data t.data := by
  cases ev with
  | write addr v => exact hostWrite_onward h ht
  | read addr =>
    cases ht
    rw [hostRead_data]
    exact Onward.refl _
  | line f bits =>
    obtain ⟨i, -, hi⟩ := handle_line_next ht
    exact exec_onward h hi
  | sample v =>
    cases ht
    exact present_onward h _
  | capture b =>
    cases ht
    exact present_onward h _
  | endOfInput =>
    cases ht
    exact endInput_onward h
  | sinkAccepts n =>
    cases ht
    exact setLimit_onward h fun m hm => by
      cases hm
      exact Nat.le_add_right _ _
  | sinkAlways =>
    cases ht
    exact setLimit_onward h fun m hm => nomatch hm
  | reset => exact absurd rfl hev

/-- Settles O55: every event but reset takes the data onward. -/
theorem onlyResetMovesTheStreamsBack : Obligations.OnlyResetMovesTheStreamsBack := by
  intro s t h ht hreset
  show Onward s.data t.data
  cases hp : s.pending with
  | nil =>
    rw [step_of_pending_nil hp] at ht
    cases ht
    exact Onward.refl _
  | cons ev rest =>
    rw [step_of_pending_cons hp] at ht
    have hrest : Inv { s with pending := rest } := h.of_frame rfl rfl rfl fun _ _ _ => ⟨rfl, rfl, rfl⟩
    refine handle_onward (s := { s with pending := rest }) hrest (fun hev => hreset ?_) ht
    rw [hp, hev, List.head?_cons]

end Sys2Proof.Machine
end

