-- ==== Sys2Proof/Proofs/Environment.lean ====
section
/-! PROOFS. When samples arrive and how fast the sink accepts does not matter. A body sees the environment through the stream
primitives alone (`Built`), so that what it has returned or raised stands when the environment changes later; and a command that
waits is run again from its start (log entry 2), which makes the change and the START commute. -/

namespace Sys2Proof.Machine

/-! ### Bodies are built from the stream primitives -/

/-- `g` neither reads nor writes a stream. -/
def OffStreams (g : Data → Data) : Prop :=
  ∀ d rx tx, g { d with rx := rx, tx := tx } = { g d with rx := rx, tx := tx }

theorem OffStreams.rx {g : Data → Data} (hg : OffStreams g) (d : Data) : (g d).rx = d.rx := by
  have h : g d = { g d with rx := d.rx, tx := d.tx } := hg d d.rx d.tx
  rw [h]

theorem OffStreams.tx {g : Data → Data} (hg : OffStreams g) (d : Data) : (g d).tx = d.tx := by
  have h : g d = { g d with rx := d.rx, tx := d.tx } := hg d d.rx d.tx
  rw [h]

theorem OffStreams.under {g : Data → Data} (hg : OffStreams g) (e : Later) (d : Data) : g (d.under e) = (g d).under e := by
  refine (hg d _ _).trans ?_
  simp only [Data.under, hg.rx, hg.tx]

/-- `f` is put together from the stream primitives: what it reads and writes besides them lies off the streams. -/
inductive Built (c : Ctx) : {α : Type} → (Data → Res α) → Prop
  | ok {α : Type} (a : α) : Built c fun d => .ok a d
  | raised {α : Type} (er : ErrorCode) : Built c (α := α) fun d => .raised er d
  | level : Built c (level c)
  | advance (n : Nat) : Built c (advance n)
  | advanceUntil (v : Level) : Built c (advanceUntil c v)
  | emit (n : Nat) (v : Level) : Built c (emit n v)
  | bind {α β : Type} {f : Data → Res α} {g : α → Data → Res β} :
      Built c f → (∀ a, Built c (g a)) → Built c fun d => (f d).bind (g ·)
  | after {α : Type} {f : Data → Res α} (g : Data → Data) : OffStreams g → Built c f → Built c fun d => f (g d)
  | onRaise {α : Type} {f : Data → Res α} (g : Data → Data) : OffStreams g → Built c f → Built c fun d => (f d).onRaise g
  | reading {α γ : Type} {f : γ → Data → Res α} (p : Data → γ) :
      (∀ d rx tx, p { d with rx := rx, tx := tx } = p d) → (∀ x, Built c (f x)) → Built c fun d => f (p d) d

/-- A choice that does not depend on the data. -/
theorem Built.ite {c : Ctx} {α : Type} {f g : Data → Res α} (p : Prop) [Decidable p] (hf : Built c f) (hg : Built c g) :
    Built c fun d => if p then f d else g d := by
  by_cases h : p
  · simpa only [h, if_true] using hf
  · simpa only [h, if_false] using hg

/-- A part may end by a write off the streams. -/
theorem Built.write {c : Ctx} {α : Type} (a : α) (g : Data → Data) (hg : OffStreams g) : Built c fun d => .ok a (g d) :=
  (Built.ok a).after g hg

/-! Decoding -/

theorem decodeSymbol_built (c : Ctx) : Built c (decodeSymbol c) :=
  (Built.advance _).bind fun _ => Built.level.bind fun _ => (Built.advance _).bind fun _ => Built.level.bind fun _ =>
    (Built.advance _).bind fun _ => Built.ok _

theorem decodeBit_built (c : Ctx) : Built c (decodeBit c) :=
  (Built.advance _).bind fun _ => Built.level.bind fun _ => (Built.advanceUntil _).bind fun _ =>
    (Built.advance _).bind fun _ => Built.ok _

theorem readBitsLoop_built (c : Ctx) (n k : Nat) : Built c (readBitsLoop c n k) := by
  induction k with
  | zero => exact Built.ok ()
  | succ k ih => exact (decodeBit_built c).bind fun _ => ih.after _ fun _ _ _ => rfl

theorem readBits_built (c : Ctx) (n : Nat) : Built c (readBits c n) :=
  ((readBitsLoop_built c n n).after (fun d => d.setDp fun p => { p with acc := 0, nbits := 0 }) fun _ _ _ => rfl).bind
    fun _ => Built.reading (f := fun acc d => .ok (BitVec.ofNat n acc) d) (fun d => d.dp.acc) (fun _ _ _ => rfl) fun _ => Built.ok _

theorem readElement_built (c : Ctx) (e : Element) : Built c (readElement c e) := by
  cases e with
  | sym x => exact (decodeSymbol_built c).bind fun _ => Built.ok _
  | bit b => exact (decodeBit_built c).bind fun _ => Built.ok _

theorem matchElements_built (c : Ctx) (es : List Element) (j : Nat) : Built c (matchElements c es j) := by
  induction es generalizing j with
  | nil => exact Built.ok ()
  | cons e es ih =>
    refine (readElement_built c e).bind fun good => Built.ite (good = true) ?_ (Built.raised _)
    exact (ih (j + 1)).after _ fun _ _ _ => rfl

theorem syncDelimiter_built (c : Ctx) : Built c (syncDelimiter c) := by
  refine (decodeSymbol_built c).bind fun x => ?_
  cases kindOfFirst x with
  | none => exact Built.raised _
  | some kind =>
    exact ((matchElements_built c _ 2).after (fun d => (d.setRes fun r => { r with kind := kind }).setRes
      fun r => { r with elem := 1 }) fun _ _ _ => rfl).bind fun _ => Built.write kind _ fun _ _ _ => rfl

theorem sync_built (c : Ctx) : Built c (sync c) := by
  refine Built.onRaise _ (fun _ _ _ => rfl) ?_
  refine ((Built.advanceUntil HIGH).after Data.syncBegin fun _ _ _ => rfl).bind fun _ => ?_
  refine ((Built.advanceUntil LOW).after (Data.setSync .awaitLow) fun _ _ _ => rfl).bind fun _ => ?_
  refine ((Built.advance (2 * c.qs)).after (Data.setSync .atStartBit) fun _ _ _ => rfl).bind fun _ => ?_
  exact (syncDelimiter_built c).after (Data.setSync .inDelimiter) fun _ _ _ => rfl

theorem readEnd_built (c : Ctx) : Built c (readEnd c) :=
  (decodeSymbol_built c).bind fun _ => Built.ite _ (Built.ok ()) (Built.raised _)

theorem readMaster_built (c : Ctx) : Built c (readMaster c) := by
  refine (sync_built c).bind fun kind => Built.ite (kind = false) (Built.raised _) ?_
  refine (readBits_built c 16).bind fun w => ?_
  refine ((readBits_built c 8).after (fun d => d.setRes fun r => { r with mword := w }) fun _ _ _ => rfl).bind fun chk => ?_
  exact (Built.ite (c.checkValid [w] chk = false) (Built.raised _) ((readEnd_built c).bind fun _ => Built.ok w)).after
    (fun d => d.setRes fun r => { r with mchk := chk }) fun _ _ _ => rfl

theorem readWords_built (c : Ctx) (m i : Nat) : Built c (readWords c m i) := by
  induction m generalizing i with
  | zero => exact Built.ok ()
  | succ m ih => exact (readBits_built c 16).bind fun _ => (ih _).after _ fun _ _ _ => rfl

theorem readChunks_built (c : Ctx) (ms : List Nat) (i k : Nat) : Built c (readChunks c ms i k) := by
  induction ms generalizing i k with
  | nil => exact Built.ok ()
  | cons m ms ih =>
    refine ((readWords_built c m i).after (fun d => d.setDp fun p => { p with i := i, k := k, m := m })
      fun _ _ _ => rfl).bind fun _ => ?_
    refine (readBits_built c 8).bind fun chk => ?_
    exact (Built.reading (f := fun ws d => if c.checkValid ws chk = false then .raised .checkSequenceMismatch d
        else readChunks c ms (i + m) (k + 1) d) (fun d => d.res.chunkWords i m) (fun _ _ _ => rfl)
        fun _ => Built.ite _ (Built.raised _) (ih _ _)).after
      (fun d => (d.setRes fun r => r.setSchk k chk).setRes fun r => { r with chunks := BitVec.ofNat 3 (k + 1) })
      fun _ _ _ => rfl

theorem readSlave_built (c : Ctx) (fc : BitVec 4) : Built c (readSlave c fc) :=
  ((sync_built c).after (Data.slaveBegin (c.words fc)) fun _ _ _ => rfl).bind fun kind =>
    Built.ite (kind = true) (Built.raised _) ((readChunks_built c _ 0 0).bind fun _ => readEnd_built c)

/-! Encoding -/

theorem encodeSymbol_built (c : Ctx) (x : Symbol) : Built c (encodeSymbol c x) :=
  (Built.emit _ _).bind fun _ => Built.emit _ _

theorem encodeBit_built (c : Ctx) (b : Bool) : Built c (encodeBit c b) := (Built.emit _ _).bind fun _ => Built.emit _ _

theorem encodeField_built (c : Ctx) {n : Nat} (v : BitVec n) : Built c (encodeField c v) := by
  unfold encodeField
  induction bitsMsbFirst v with
  | nil => exact Built.ok ()
  | cons b bs ih => exact (encodeBit_built c b).bind fun _ => ih

theorem sendElements_built (c : Ctx) (es : List Element) : Built c (sendElements c es) := by
  induction es with
  | nil => exact Built.ok ()
  | cons e es ih =>
    refine Built.bind ?_ fun _ => ih
    cases e with
    | sym x => exact encodeSymbol_built c x
    | bit b => exact encodeBit_built c b

theorem encodeStart_built (c : Ctx) (kind : Bool) : Built c (encodeStart c kind) :=
  (encodeBit_built c true).bind fun _ => sendElements_built c _

theorem encodeMaster_built (c : Ctx) (w : Half) : Built c (encodeMaster c w) :=
  (encodeStart_built c true).bind fun _ => (encodeField_built c w).bind fun _ => (encodeField_built c _).bind fun _ =>
    encodeSymbol_built c .nl

theorem encodeWords_built (c : Ctx) (ws : List Half) : Built c (encodeWords c ws) := by
  induction ws with
  | nil => exact Built.ok ()
  | cons w ws ih => exact (encodeField_built c w).bind fun _ => ih

theorem encodeChunks_built (c : Ctx) (ms : List Nat) (ws : List Half) : Built c (encodeChunks c ms ws) := by
  induction ms generalizing ws with
  | nil => exact Built.ok ()
  | cons m ms ih =>
    exact (encodeWords_built c _).bind fun _ => (encodeField_built c _).bind fun _ => ih _

theorem encodeSlave_built (c : Ctx) (ws : List Half) : Built c (encodeSlave c ws) :=
  (encodeStart_built c false).bind fun _ => (encodeChunks_built c _ ws).bind fun _ => encodeSymbol_built c .nl

theorem emitGap_built (c : Ctx) : Built c (emitGap c) :=
  Built.reading (f := fun g d => emit g c.regs.cfg.idleLevel { d with gapDraws := d.gapDraws + 1, dp := { d.dp with gap := g } })
    (fun d => gapLength c.regs.gapMin.toNat c.regs.gapMax.toNat d.gapDraws) (fun _ _ _ => rfl)
    fun g => (Built.emit g c.regs.cfg.idleLevel).after _ fun _ _ _ => rfl

/-! Whole bodies -/

theorem bodyRdTelegram_built (c : Ctx) : Built c (bodyRdTelegram c) :=
  (readMaster_built c).bind fun _ => Built.ite _ (Built.write () _ fun _ _ _ => rfl) (readSlave_built c _)

theorem bodyEncTelegram_built (c : Ctx) : Built c (bodyEncTelegram c) :=
  (encodeMaster_built c _).bind fun _ => (emitGap_built c).bind fun _ =>
    Built.ite _ (Built.write () _ fun _ _ _ => rfl) (encodeSlave_built c _)

theorem commandBody_built (op : BitVec 4) (c : Ctx) : Built c (commandBody op c) := by
  generalize hb : commandBody op = b
  unfold commandBody at hb
  split at hb <;> subst hb
  · exact (decodeSymbol_built c).bind fun _ => Built.write () _ fun _ _ _ => rfl
  · exact (decodeBit_built c).bind fun _ => Built.write () _ fun _ _ _ => rfl
  · exact (sync_built c).bind fun _ => Built.ok ()
  · exact (readMaster_built c).bind fun _ => Built.ok ()
  · exact readSlave_built c _
  · exact bodyRdTelegram_built c
  · exact encodeSymbol_built c _
  · exact encodeBit_built c _
  · exact encodeMaster_built c _
  · exact encodeSlave_built c _
  · exact bodyEncTelegram_built c
  · exact Built.ok ()

/-! ### The sink's limit bounds what is emitted (R79) -/

/-- From `d` to `d'` the streams go forward, and no sample is emitted past the sink's limit. -/
def Within (d d' : Data) : Prop :=
  Forward d d' ∧ ∀ lim, d.tx.limit = some lim → d'.tx.count ≤ max lim d.tx.count

theorem Within.of_eq {d d' : Data} (hrx : d'.rx = d.rx) (htx : d'.tx = d.tx) : Within d d' :=
  ⟨Forward.of_eq hrx htx, fun lim _ => by rw [htx]; exact le_max_right _ _⟩

theorem Within.trans {a b d : Data} (h1 : Within a b) (h2 : Within b d) : Within a d := by
  obtain ⟨f1, b1⟩ := h1
  obtain ⟨f2, b2⟩ := h2
  refine ⟨f1.trans f2, fun lim hl => ?_⟩
  have hb := b1 lim hl
  have hd := b2 lim (f1.limit.trans hl)
  omega

theorem Within.onRaise {α : Type} {d : Data} {r : Res α} {f : Data → Data} (h : Within d r.left)
    (hf : ∀ d, Within d (f d)) : Within d (r.onRaise f).left := by
  cases r with
  | ok a d' => exact h
  | raised er d' => exact h.trans (hf d')
  | waiting w d' => exact h

theorem Reads.within {d d' : Data} (h : Reads d d') : Within d d' :=
  ⟨h.forward, fun lim _ => by rw [h.1]; exact le_max_right _ _⟩

theorem emit_within (n : Nat) (v : Level) (d : Data) : Within d (emit n v d).left := by
  unfold emit
  split
  next hnone => exact ⟨Forward.accept n v d, fun lim hl => nomatch hnone.symm.trans hl⟩
  next lim hsome =>
    have hlim {lim' : Nat} (hl : d.tx.limit = some lim') : lim' = lim := Option.some.inj (hl.symm.trans hsome)
    split
    next hroom => exact ⟨Forward.accept n v d, fun lim' hl => by
      have := hlim hl
      simp only [Res.left_ok, Data.accept_tx, TxPort.accept_count]; omega⟩
    next => exact ⟨Forward.accept _ v d, fun lim' hl => by
      have := hlim hl
      simp only [Res.left_waiting, Data.accept_tx, TxPort.accept_count]; omega⟩

theorem Built.within {c : Ctx} {α : Type} {f : Data → Res α} (h : Built c f) (d : Data) : Within d (f d).left := by
  induction h generalizing d with
  | ok a => exact Within.of_eq rfl rfl
  | raised er => exact Within.of_eq rfl rfl
  | level => exact (level_reads c d).within
  | advance n => exact (advance_reads n d).within
  | advanceUntil v => exact (advanceUntil_reads c v d).within
  | emit n v => exact emit_within n v d
  | bind _ _ ihf ihg => exact Res.left_bind Within Within.trans (ihf d) fun a d' => ihg a d'
  | after g hg _ ih => exact (Within.of_eq (hg.rx d) (hg.tx d)).trans (ih (g d))
  | onRaise g hg _ ih => exact Within.onRaise (ih d) fun d' => Within.of_eq (hg.rx d') (hg.tx d')
  | reading p _ _ ih => exact ih (p d) d

/-! ### What has returned or raised stands in a later environment (R71, R73) -/

/-- A return and an error of `r` are, but for the change `g` of the data, those of `r'`. -/
def Res.Keeps {α : Type} (g : Data → Data) (r r' : Res α) : Prop :=
  match r with
  | .ok a d => r' = .ok a (g d)
  | .raised er d => r' = .raised er (g d)
  | .waiting _ _ => True

theorem Res.Keeps.congr {α : Type} {g g' : Data → Data} {r r' : Res α} (h : r.Keeps g r') (hg : g r.left = g' r.left) :
    r.Keeps g' r' := by
  cases r with
  | ok a d => exact h.trans (congrArg (Res.ok a) hg)
  | raised er d => exact h.trans (congrArg (Res.raised er) hg)
  | waiting w d => trivial

theorem Res.Keeps.bind {α β : Type} {g : Data → Data} {r r' : Res α} {f : α → Data → Res β} (h : r.Keeps g r')
    (hf : ∀ a d, r.left = d → (f a d).Keeps g (f a (g d))) : (r.bind f).Keeps g (r'.bind f) := by
  cases r with
  | ok a d =>
    rw [show r' = .ok a (g d) from h]
    exact hf a d rfl
  | raised er d =>
    rw [show r' = .raised er (g d) from h]
    rfl
  | waiting w d => trivial

theorem Res.Keeps.onRaise {α : Type} {g f : Data → Data} {r r' : Res α} (h : r.Keeps g r') (hf : ∀ d, f (g d) = g (f d)) :
    (r.onRaise f).Keeps g (r'.onRaise f) := by
  cases r with
  | ok a d =>
    rw [show r' = .ok a (g d) from h]
    rfl
  | raised er d =>
    rw [show r' = .raised er (g d) from h]
    exact congrArg (Res.raised er) (hf d)
  | waiting w d => trivial

theorem Res.GoesOn.keeps {α : Type} {e : Later} {r r' : Res α} (h : r.GoesOn e r') : r.Keeps (·.under e) r' := by
  cases r with
  | ok a d => exact h
  | raised er d => exact h
  | waiting w d => trivial

/-- On a stream that has not ended, running out of samples is waiting for more. -/
theorem RunsOut.keeps {α : Type} {d : Data} {r : Res α} (h : RunsOut d r) (hd : d.rx.ended = false) (g : Data → Data)
    (r' : Res α) : r.Keeps g r' := by
  rcases h with ⟨hended, -⟩ | ⟨-, w, rfl⟩
  · exact nomatch hd.symm.trans hended
  · trivial

theorem level_keeps (c : Ctx) {d : Data} (e : Later) (hd : d.rx.ended = false) :
    (level c d).Keeps (·.under e) (level c (d.under e)) := by
  rcases level_spec c d with ⟨raw, hraw, h⟩ | ⟨-, hout⟩
  · have hlt := (List.getElem?_eq_some_iff.1 hraw).1
    rw [h]
    exact level_present c (by rw [Data.under_rx, List.getElem?_append_left hlt, hraw])
  · exact hout.keeps hd _ _

theorem advance_keeps (n : Nat) {d : Data} (e : Later) (hd : d.rx.ended = false) :
    (advance n d).Keeps (·.under e) (advance n (d.under e)) := by
  rcases advance_spec n d with ⟨hn, h⟩ | ⟨-, hout⟩
  · rw [h, advance_enough (by simp; omega), Data.consume_under hn]
    rfl
  · exact hout.keeps hd _ _

theorem advanceUntil_keeps (c : Ctx) (v : Level) {d : Data} (e : Later) (hd : d.rx.ended = false) :
    (advanceUntil c v d).Keeps (·.under e) (advanceUntil c v (d.under e)) := by
  rcases advanceUntil_spec c v d with ⟨hlt, h⟩ | ⟨-, hout⟩
  · have hsame : samplesBefore c v (d.under e).rx.ahead = samplesBefore c v d.rx.ahead :=
      samplesBefore_append_left c v e.more hlt
    rcases advanceUntil_spec c v (d.under e) with ⟨-, h'⟩ | ⟨heq', -⟩
    · rw [h, h', hsame, Data.consume_under (by omega)]
      rfl
    · rw [hsame, Data.under_rx, List.length_append] at heq'
      omega
  · exact hout.keeps hd _ _

theorem emit_keeps (n : Nat) (v : Level) {d : Data} {e : Later} (hl : e.limit = d.tx.limit) :
    (emit n v d).Keeps (·.under e) (emit n v (d.under e)) := by
  unfold emit
  simp only [Data.under_tx, hl]
  split
  · rfl
  · split
    · rfl
    · trivial

/-- What is built from the stream primitives cannot tell whether samples, or the end of the stream, are there already that it has
not needed yet. -/
theorem Built.keeps {c : Ctx} {α : Type} {f : Data → Res α} (h : Built c f) {d : Data} {e : Later} (hd : d.rx.ended = false)
    (hl : e.limit = d.tx.limit) : (f d).Keeps (·.under e) (f (d.under e)) := by
  induction h generalizing d with
  | ok a => rfl
  | raised er => rfl
  | level => exact level_keeps c e hd
  | advance n => exact advance_keeps n e hd
  | advanceUntil v => exact advanceUntil_keeps c v e hd
  | emit n v => exact emit_keeps n v hl
  | bind hf _ ihf ihg =>
    obtain ⟨hforward, -⟩ := hf.within d
    refine (ihf hd hl).bind fun a d' hd' => ?_
    subst hd'
    exact ihg a (hforward.ended.trans hd) (hl.trans hforward.limit.symm)
  | after g hg _ ih =>
    simp only [hg.under]
    exact ih ((congrArg RxPort.ended (hg.rx d)).trans hd) (hl.trans (congrArg TxPort.limit (hg.tx d)).symm)
  | onRaise g hg _ ih => exact (ih hd hl).onRaise fun d' => hg.under e d'
  | reading p hp _ ih =>
    simp only [show p (d.under e) = p d from hp d _ _]
    exact ih (p d) hd hl

end Sys2Proof.Machine
end

