-- ==== Sys2Proof/Proofs/Timing.lean ====
section
/-! PROOFS. A START commutes with what the environment does next: samples, the end of the stream (R71, R73), and a sink that
accepts everything (R79). -/

namespace Sys2Proof.Machine

/-! ### What an accepted command comes to -/

/-- The data an accepted command comes to: its body's, if the start checks pass, and else what START writes (R140, R149). -/
def State.comesTo (s : State) (op : BitVec 4) (arg : Nat) : Data :=
  if startCheck (s.ctxOf op arg).regs = none then (commandBody op (s.ctxOf op arg) s.data.started).left else s.data.started

/-- The end of a command and a wait leave the streams and the draws as the command has come to. -/
theorem exec_comesTo {i : Instr} {op : BitVec 4} {arg : Nat} {s t : State} (hi : commandParts i = some (op, arg))
    (hidle : s.running = none) (ht : exec i s = .next t) :
    t.data.rx = (s.comesTo op arg).rx ∧ t.data.tx = (s.comesTo op arg).tx
      ∧ t.data.gapDraws = (s.comesTo op arg).gapDraws := by
  rw [exec_command hi] at ht
  cases ht
  unfold State.comesTo
  rw [← begin_ctx]
  split
  next hc =>
    rw [startCommand_runs hidle hc, begin_data]
    cases commandBody op (s.begin op (BitVec.ofNat 4 arg)).ctx s.data.started <;> exact ⟨rfl, rfl, rfl⟩
  next hc =>
    obtain ⟨e, he⟩ := Option.ne_none_iff_exists'.1 hc
    rw [startCommand_fails hidle he]
    exact ⟨rfl, rfl, rfl⟩

theorem comesTo_within (s : State) (op : BitVec 4) (arg : Nat) : Within s.data (s.comesTo op arg) := by
  have hstarted : Within s.data s.data.started := Within.of_eq rfl rfl
  unfold State.comesTo
  split
  · exact hstarted.trans ((commandBody_built op _).within _)
  · exact hstarted

theorem exec_command_within {i : Instr} {op : BitVec 4} {arg : Nat} {s t : State} (hi : commandParts i = some (op, arg))
    (hidle : s.running = none) (ht : exec i s = .next t) : Within s.data t.data := by
  obtain ⟨hrx, htx, -⟩ := exec_comesTo hi hidle ht
  exact (comesTo_within s op arg).trans (Within.of_eq hrx htx)

/-! ### A START and a change of the environment -/

theorem resume_idle {s : State} (h : s.running = none) : s.resume = s := by simp [State.resume, h]

theorem changeData_idle {s : State} (h : s.running = none) (g : Data → Data) :
    s.changeData g = { s with data := g s.data } := by simp [State.changeData, h]

theorem present_eq {s : State} (h : s.data.rx.ended = false) (xs : List Level) :
    s.present xs = (s.changeData (·.present xs)).resume := by simp [State.present, h]

/-- An idle core leaves presented samples to be consumed later (R71). -/
theorem present_idle {s : State} (h : s.running = none) (hended : s.data.rx.ended = false) (xs : List Level) :
    s.present xs = s.changeData (·.present xs) := by
  rw [present_eq hended, resume_idle (by simp [h])]

/-- `g` is a change of the environment: it neither reads nor writes what is the command's own. -/
def OfEnvironment (g : Data → Data) : Prop :=
  ∀ d res dp seen, g { d with res := res, dp := dp, seen := seen } = { g d with res := res, dp := dp, seen := seen }

/-- What START writes commutes with a change of the environment (R140). -/
theorem OfEnvironment.started {g : Data → Data} (hg : OfEnvironment g) (d : Data) : g d.started = (g d).started := by
  have hsame : g d = { g d with res := d.res, dp := d.dp, seen := d.seen } := hg d d.res d.dp d.seen
  have hstart : g d.started = { g d with res := d.res.started, dp := d.dp, seen := [d.res.started] } := hg d _ _ _
  rw [hstart, hsame]
  rfl

/-- So does the end of a command (R142). -/
theorem OfEnvironment.endCommand {g : Data → Data} (hg : OfEnvironment g) (s : State) (e : ErrorCode) (d : Data) :
    ((s.endCommand e d).changeData g).resume = s.endCommand e (g d) := by
  have hend : g { d with dp := Datapath.idle, seen := [] } = { g d with dp := Datapath.idle, seen := [] } := by
    have hsame : g d = { g d with res := d.res, dp := d.dp, seen := d.seen } := hg d d.res d.dp d.seen
    have hdone : g { d with dp := Datapath.idle, seen := [] } = { g d with res := d.res, dp := Datapath.idle, seen := [] } :=
      hg d _ _ _
    rw [hdone, hsame]
  rw [changeData_idle (by simp), resume_idle (by simp), State.endCommand_data, hend]
  rfl

/-- And so does running a body: what it has returned or raised stands, and what waits is run again from its start (log entry 2). -/
theorem OfEnvironment.settle {g : Data → Data} (hg : OfEnvironment g) (s : State) (start : Data)
    (hkeeps : (commandBody s.regs.op s.ctx start).Keeps g (commandBody s.regs.op s.ctx (g start))) :
    ((s.settle start (commandBody s.regs.op s.ctx start)).changeData g).resume
      = s.settle (g start) (commandBody s.regs.op s.ctx (g start)) := by
  cases hb : commandBody s.regs.op s.ctx start with
  | ok u d =>
    rw [hb] at hkeeps
    rw [show commandBody s.regs.op s.ctx (g start) = .ok u (g d) from hkeeps]
    exact hg.endCommand s .none d
  | raised e d =>
    rw [hb] at hkeeps
    rw [show commandBody s.regs.op s.ctx (g start) = .raised e (g d) from hkeeps]
    exact hg.endCommand s e d
  | waiting w d =>
    show State.settle (g start) (commandBody s.regs.op s.ctx (g start)) _ = _
    cases commandBody s.regs.op s.ctx (g start) <;> rfl

/-- A START commutes with a change of the environment under which its body keeps what it has returned or raised. -/
theorem exec_changeData {i : Instr} {op : BitVec 4} {arg : Nat} {s t : State} (hi : commandParts i = some (op, arg))
    (hidle : s.running = none) (ht : exec i s = .next t) {g : Data → Data} (hg : OfEnvironment g)
    (hkeeps : (commandBody op (s.ctxOf op arg) s.data.started).Keeps g
      (commandBody op (s.ctxOf op arg) (g s.data.started))) :
    exec i (s.changeData g) = .next (t.changeData g).resume := by
  have hidle' : (s.changeData g).running = none := by simp [hidle]
  rw [exec_command hi] at ht ⊢
  cases ht
  congr 1
  cases hc : startCheck (s.begin op (BitVec.ofNat 4 arg)).regs with
  | some e =>
    rw [startCommand_fails hidle hc, startCommand_fails hidle' hc, hg.endCommand, begin_data, begin_data,
      State.changeData_data, hg.started, changeData_idle hidle]
    rfl
  | none =>
    rw [startCommand_runs hidle hc, startCommand_runs hidle' hc, begin_data, begin_data, begin_ctx]
    rw [← begin_ctx] at hkeeps
    refine Eq.trans ?_ (hg.settle (s.begin op (BitVec.ofNat 4 arg)) s.data.started hkeeps).symm
    rw [State.changeData_data, hg.started, changeData_idle hidle, begin_ctx]
    cases commandBody op (s.ctxOf op arg) (g s.data).started <;> rfl

/-! ### Samples and the end of the stream (R71, R73) -/

/-- What a body has returned or raised on a stream that has not ended stands when samples or its end come later. -/
theorem commandBody_keeps (op : BitVec 4) (c : Ctx) {d : Data} (hd : d.rx.ended = false) {g : Data → Data} {e : Later}
    (hl : e.limit = d.tx.limit) (hg : ∀ d', Forward d d' → g d' = d'.under e) :
    (commandBody op c d).Keeps g (commandBody op c (g d)) := by
  rw [hg d (Forward.refl d)]
  exact ((commandBody_built op c).keeps hd hl).congr (hg _ ((commandBody_built op c).within d).1).symm

/-- Samples may be presented before a START or after it. -/
theorem exec_present {i : Instr} {op : BitVec 4} {arg : Nat} {s t : State} (hi : commandParts i = some (op, arg))
    (hidle : s.running = none) (hended : s.data.rx.ended = false) (ht : exec i s = .next t) (xs : List Level) :
    exec i (s.present xs) = .next (t.present xs) := by
  have htended : t.data.rx.ended = false := (exec_command_within hi hidle ht).1.ended.trans hended
  rw [present_idle hidle hended, present_eq htended]
  refine exec_changeData hi hidle ht (fun _ _ _ _ => rfl)
    (commandBody_keeps op _ (d := s.data.started) (e := ⟨xs, false, s.data.tx.limit⟩) hended rfl fun d' hd' => ?_)
  have hlimit : d'.tx.limit = s.data.tx.limit := hd'.limit
  simp only [Data.present, Data.under, hd'.ended.trans hended, ← hlimit]

/-- Settles O46: both are changes of the environment with which a START commutes. -/
theorem arrivalTimeDoesNotMatter : Obligations.ArrivalTimeDoesNotMatter := by
  intro i op arg s t hi hidle hended ht
  refine ⟨exec_present hi hidle hended ht, ?_⟩
  have hidle' : (s.changeData (·.endInput)).running = none := by simp [hidle]
  rw [State.endInput, resume_idle hidle']
  refine exec_changeData hi hidle ht (fun _ _ _ _ => rfl)
    (commandBody_keeps op _ (d := s.data.started) (e := ⟨[], true, s.data.tx.limit⟩) hended rfl fun d' hd' => ?_)
  have hlimit : d'.tx.limit = s.data.tx.limit := hd'.limit
  simp only [Data.endInput, Data.under, List.append_nil, ← hlimit]

/-! ### The sink's limit (R79, R301) -/

/-- The environment in which nothing has come and the sink accepts every sample. -/
def Data.freed (d : Data) : Later := ⟨[], d.rx.ended, none⟩

theorem setLimit_none_eq {d d' : Data} (h : Forward d d') : d'.setLimit none = d'.under d.freed := by
  simp only [Data.setLimit, Data.under, Data.freed, ← h.ended, List.append_nil]

/-- A sink that accepts everything lets a body get at least as far as any other sink. -/
theorem commandBody_freed (op : BitVec 4) (c : Ctx) (d : Data) :
    (commandBody op c d).GoesOn d.freed (commandBody op c (d.setLimit none)) := by
  rw [setLimit_none_eq (Forward.refl d)]
  exact (commandBody_resumes op c d).2 d.freed (fun hended => ⟨hended, rfl⟩) fun _ hl => nomatch hl

/-- The sink may be let go on before a START or after it. -/
theorem exec_setLimit_none {i : Instr} {op : BitVec 4} {arg : Nat} {s t : State} (hi : commandParts i = some (op, arg))
    (hidle : s.running = none) (ht : exec i s = .next t) :
    exec i (s.setLimit none) = .next (t.setLimit none) := by
  have hidle' : (s.changeData (·.setLimit none)).running = none := by simp [hidle]
  rw [State.setLimit, resume_idle hidle']
  exact exec_changeData hi hidle ht (fun _ _ _ _ => rfl) ((commandBody_freed op _ _).keeps.congr
    (setLimit_none_eq (commandBody_resumes op _ _).1).symm)

/-- What a body has emitted is the first part of what it emits if the sink accepts everything. -/
theorem Res.GoesOn.out_prefix {α : Type} {e : Later} {r r' : Res α} (h : r.GoesOn e r') :
    r.left.tx.out <+: r'.left.tx.out := by
  cases r with
  | ok a d =>
    rw [show r' = .ok a (d.under e) from h]
    exact List.prefix_rfl
  | raised er d =>
    rw [show r' = .raised er (d.under e) from h]
    exact List.prefix_rfl
  | waiting w d =>
    obtain ⟨-, -, hout, -⟩ : Forward (d.under e) r'.left := h
    exact hout

theorem comesTo_out_prefix (s : State) (op : BitVec 4) (arg : Nat) :
    (s.comesTo op arg).tx.out <+: (({ s with data := s.data.setLimit none } : State).comesTo op arg).tx.out := by
  unfold State.comesTo
  have hsame : startCheck (({ s with data := s.data.setLimit none } : State).ctxOf op arg).regs
      = startCheck (s.ctxOf op arg).regs := rfl
  rw [hsame]
  split
  · exact (commandBody_freed op (s.ctxOf op arg) s.data.started).out_prefix
  · exact List.prefix_rfl

/-- Settles O41: letting the sink go on commutes with the START, and no part of a body emits past the limit. -/
theorem sinkPaceDoesNotMatter : Obligations.SinkPaceDoesNotMatter := by
  intro i op arg s t u hi hidle ht hu
  have hsame : t.setLimit none = u := by
    rw [exec_setLimit_none hi hidle ht] at hu
    exact Host.Outcome.next.inj hu
  refine ⟨hsame, ?_, (exec_command_within hi hidle ht).2⟩
  obtain ⟨-, htx, -⟩ := exec_comesTo hi hidle ht
  rw [State.setLimit, resume_idle (by simp [hidle]), changeData_idle hidle] at hu
  obtain ⟨-, hux, -⟩ := exec_comesTo (s := { s with data := s.data.setLimit none }) hi hidle hu
  rw [htx, hux]
  exact comesTo_out_prefix s op arg

end Sys2Proof.Machine
end

