-- ==== Sys2Proof/Proofs/Line.lean ====
section
/-! PROOFS. The rows of the line layers: which half-bit periods each presents (R104 to R113), and that a frame may arrive row by
row (R71, R112). -/

namespace Sys2Proof.Machine

/-! ### What each row presents -/

/-- The half-bit periods a row of a line layer presents (R104 to R113); a command presents none. -/
def lineHalves (i : Instr) : List Level :=
  match i with
  | .symNl => halvesOfSymbol .nl
  | .symZero => halvesOfSymbol .zero
  | .symOne => halvesOfSymbol .one
  | .symNh => halvesOfSymbol .nh
  | .bit0 => halvesOfBit false
  | .bit1 => halvesOfBit true
  | .startMaster => halvesOfStart true
  | .startSlave => halvesOfStart false
  | .endDelim => halvesOfElement (.sym .nl)
  | .mwordFc0 a => halvesOfField (masterWord 0 (BitVec.ofNat 12 a))
  | .mwordFc1 a => halvesOfField (masterWord 1 (BitVec.ofNat 12 a))
  | .mwordFc2 a => halvesOfField (masterWord 2 (BitVec.ofNat 12 a))
  | .mwordFc3 a => halvesOfField (masterWord 3 (BitVec.ofNat 12 a))
  | .mwordFc4 a => halvesOfField (masterWord 4 (BitVec.ofNat 12 a))
  | .mwordFc5 a => halvesOfField (masterWord 5 (BitVec.ofNat 12 a))
  | .mwordFc6 a => halvesOfField (masterWord 6 (BitVec.ofNat 12 a))
  | .mwordFc7 a => halvesOfField (masterWord 7 (BitVec.ofNat 12 a))
  | .mwordFc8 a => halvesOfField (masterWord 8 (BitVec.ofNat 12 a))
  | .mwordFc9 a => halvesOfField (masterWord 9 (BitVec.ofNat 12 a))
  | .mwordFc10 a => halvesOfField (masterWord 10 (BitVec.ofNat 12 a))
  | .mwordFc11 a => halvesOfField (masterWord 11 (BitVec.ofNat 12 a))
  | .mwordFc12 a => halvesOfField (masterWord 12 (BitVec.ofNat 12 a))
  | .mwordFc13 a => halvesOfField (masterWord 13 (BitVec.ofNat 12 a))
  | .mwordFc14 a => halvesOfField (masterWord 14 (BitVec.ofNat 12 a))
  | .mwordFc15 a => halvesOfField (masterWord 15 (BitVec.ofNat 12 a))
  | .nop _ | .decSymbol _ | .decBit _ | .sync _ | .rdMaster _ | .rdSlave _ | .rdTelegram _ | .illegalOp7 _ | .encSymbol _
  | .encBit _ | .encMaster _ | .encSlave _ | .encTelegram _ | .illegalOpD _ | .illegalOpE _ | .illegalOpF _ => []

/-- A row of a line layer is a step in which the source presents the row's samples (log entry 7). -/
theorem exec_lineHalves {i : Instr} (h : commandParts i = none) (s : State) :
    exec i s = .next (s.present (samplesOfHalves s.ctx.qs (lineHalves i))) := by
  cases i <;> simp only [commandParts, reduceCtorEq] at h <;> rfl

theorem present_ended {s : State} (h : s.data.rx.ended = true) (xs : List Level) : s.present xs = s := by
  simp [State.present, h]

/-- What a row of a line layer does to an idle core, and after the end of the stream (R71). -/
theorem exec_line_presents {i : Instr} (h : commandParts i = none) {hs : List Level} (hhs : lineHalves i = hs) (s : State) :
    (s.running = none → s.data.rx.ended = false →
      exec i s = .next { s with data := { s.data with rx := { s.data.rx with
        ahead := s.data.rx.ahead ++ samplesOfHalves s.ctx.qs hs } } })
    ∧ (s.data.rx.ended = true → exec i s = .next s) := by
  subst hhs
  rw [exec_lineHalves h]
  refine ⟨fun hidle hended => ?_, fun hended => by rw [present_ended hended]⟩
  rw [present_idle hidle hended, changeData_idle hidle]
  rfl

/-- Settles O42: the half-bit periods of each row, read off the tables. -/
theorem lineElementsArePresented : Obligations.LineElementsArePresented := by
  intro s p hp
  simp only [List.mem_cons, List.not_mem_nil, or_false] at hp
  rcases hp with rfl | rfl | rfl | rfl | rfl | rfl | rfl | rfl | rfl <;> exact exec_line_presents rfl rfl s

/-! ### Master words (R113) -/

/-- The master word of a function code and an address as a number. -/
theorem masterWord_toNat (fcode : BitVec 4) {addr : Nat} (h : addr < 4096) :
    (masterWord fcode (BitVec.ofNat 12 addr)).toNat = 4096 * fcode.toNat + addr := by
  have haddr : (BitVec.ofNat 12 addr).toNat = addr := by simp; omega
  rw [masterWord, BitVec.toNat_append, haddr, ← Nat.shiftLeft_add_eq_or_of_lt (by omega), Nat.shiftLeft_eq]
  omega

/-- The samples of a field are those of its bits, the most significant first (R82). -/
theorem samplesOfField_eq (q : Nat) {n : Nat} (v : BitVec n) :
    samplesOfHalves q (halvesOfField v) = (List.range n).flatMap fun j =>
      List.replicate (2 * q) (v.toNat.testBit (n - 1 - j)) ++ List.replicate (2 * q) (!v.toNat.testBit (n - 1 - j)) := by
  simp only [halvesOfField, bitsMsbFirst, samplesOfHalves, List.flatMap_map, List.flatMap_assoc, halvesOfBit]
  simp [BitVec.testBit_toNat]

theorem samplesOfMasterWord (q : Nat) (fcode : BitVec 4) {addr : Nat} (h : addr < 4096) :
    samplesOfHalves q (halvesOfField (masterWord fcode (BitVec.ofNat 12 addr))) = (List.range 16).flatMap fun j =>
      List.replicate (2 * q) ((4096 * fcode.toNat + addr).testBit (15 - j))
        ++ List.replicate (2 * q) (!(4096 * fcode.toNat + addr).testBit (15 - j)) := by
  rw [samplesOfField_eq, masterWord_toNat fcode h]

/-- The row of a function code presents the master word of that function code. -/
theorem masterWordOf_line (fcode : BitVec 4) (addr : Nat) : commandParts (masterWordOf fcode addr) = none
    ∧ lineHalves (masterWordOf fcode addr) = halvesOfField (masterWord fcode (BitVec.ofNat 12 addr)) := by
  obtain ⟨k, hk⟩ := fcode
  interval_cases k <;> exact ⟨rfl, rfl⟩

/-- Settles O43: the row of function code k presents the bits of 4096·k plus its address. -/
theorem masterWordsArePresented : Obligations.MasterWordsArePresented := by
  intro s addr haddr p hp
  have hp' : p ∈ (List.range 16).map fun k => (k, masterWordOf (BitVec.ofNat 4 k) addr) := hp
  obtain ⟨k, hk, rfl⟩ := List.mem_map.1 hp'
  have hcode : (BitVec.ofNat 4 k).toNat = k := by simp at hk ⊢; omega
  obtain ⟨hparts, hhalves⟩ := masterWordOf_line (BitVec.ofNat 4 k) addr
  have h := exec_line_presents hparts hhalves s
  rwa [samplesOfMasterWord s.ctx.qs _ haddr, hcode] at h

theorem bitRow_line (b : Bool) : commandParts (bitRow b) = none ∧ lineHalves (bitRow b) = halvesOfBit b := by
  cases b <;> exact ⟨rfl, rfl⟩

/-! ### Rows that arrive one after the other -/

/-- A command keeps the bit period of CFG.QS. -/
theorem exec_command_qs {i : Instr} {op : BitVec 4} {arg : Nat} {s t : State} (hi : commandParts i = some (op, arg))
    (hidle : s.running = none) (ht : exec i s = .next t) : t.ctx.qs = s.ctx.qs := by
  obtain ⟨hregs, -⟩ := exec_command_leaves hi hidle ht
  simp only [Ctx.qs, State.ctx, hregs]

/-- Rows that arrive one by one after a START come to what the START comes to when all their samples are there before it. -/
theorem execAll_line {i : Instr} {op : BitVec 4} {arg : Nat} (hi : commandParts i = some (op, arg)) (rows : List Instr)
    (hrows : ∀ r ∈ rows, commandParts r = none) {s t : State} (hidle : s.running = none) (hended : s.data.rx.ended = false)
    (ht : exec i s = .next t) :
    execAll rows t = exec i (s.changeData (·.present (samplesOfHalves s.ctx.qs (rows.flatMap lineHalves)))) := by
  induction rows generalizing s t with
  | nil =>
    rw [changeData_idle hidle]
    simp [execAll, Data.present, ht]
  | cons r rows ih =>
    have hrow := exec_lineHalves (hrows r (by simp)) t
    rw [exec_command_qs hi hidle ht] at hrow
    have hnext := exec_present hi hidle hended ht (samplesOfHalves s.ctx.qs (lineHalves r))
    rw [present_idle hidle hended] at hnext
    simp only [execAll, hrow]
    rw [ih (fun x hx => hrows x (by simp [hx])) (s := s.changeData (·.present _)) (by simp [hidle]) hended hnext]
    congr 1
    simp [State.changeData, hidle, Data.present, State.ctx]

/-- The rows of a master frame: start, master word, the bits of the check byte, end delimiter (R112). -/
def masterFrameRows (fcode : BitVec 4) (addr : BitVec 12) (chk : Byte) : List Instr :=
  [.startMaster, masterWordOf fcode addr.toNat] ++ (List.range 8).map (fun j => bitRow (chk.getLsbD (7 - j))) ++ [.endDelim]

theorem masterFrameRows_line (fcode : BitVec 4) (addr : BitVec 12) (chk : Byte) :
    ∀ r ∈ masterFrameRows fcode addr chk, commandParts r = none := by
  intro r hr
  simp only [masterFrameRows, List.mem_append, List.mem_cons, List.not_mem_nil, or_false, List.mem_map] at hr
  rcases hr with ((rfl | rfl) | ⟨j, -, rfl⟩) | rfl
  · rfl
  · exact (masterWordOf_line _ _).1
  · exact (bitRow_line _).1
  · rfl

/-- Put together they present the master frame (R112). -/
theorem masterFrameRows_halves (fcode : BitVec 4) (addr : BitVec 12) (chk : Byte) :
    (masterFrameRows fcode addr chk).flatMap lineHalves = halvesOfMasterFrame (fcode ++ addr) chk := by
  have hword : masterWord fcode (BitVec.ofNat 12 addr.toNat) = fcode ++ addr := by simp [masterWord]
  have hchk : ((List.range 8).map fun j => bitRow (chk.getLsbD (7 - j))).flatMap lineHalves = halvesOfField chk := by
    simp only [List.flatMap_map, (bitRow_line _).2, halvesOfField, bitsMsbFirst]
  simp only [masterFrameRows, List.flatMap_append, List.flatMap_cons, List.flatMap_nil, List.append_nil, hchk,
    (masterWordOf_line _ _).2, hword]
  rfl

/-- A master frame takes 34 bit periods (R112). -/
theorem samplesOfMasterFrame_length (q : Nat) (w : Half) (chk : Byte) :
    (samplesOfHalves q (halvesOfMasterFrame w chk)).length = 136 * q := by
  have hhalves : (halvesOfMasterFrame w chk).length = 68 := by
    simp [halvesOfMasterFrame, halvesOfStart_length, halvesOfField_length, halvesOfSymbol]
  rw [samplesOfHalves_length, hhalves]
  omega

/-- RD_MASTER on exactly a master frame that CheckValid accepts, at raw levels (R72, R195). -/
theorem exec_rdMaster_frame {s : State} (hidle : s.running = none) (hq : 0 < s.ctx.qs) (hinvert : s.regs.cfg.rxInvert = false)
    {w : Half} {chk : Byte} (hahead : s.data.rx.ahead = samplesOfHalves s.ctx.qs (halvesOfMasterFrame w chk))
    (hchk : s.ctx.checkValid [w] chk = true) (arg : Nat) :
    ∃ u, exec (.rdMaster arg) s = .next u ∧ EndedWith s u 0x4 arg .none
      ∧ u.data.rx = { pos := s.data.rx.pos + 136 * s.ctx.qs, ahead := [], ended := s.data.rx.ended }
      ∧ u.data.tx = s.data.tx ∧ u.data.res = { s.data.res.started.synced true with mword := w, mchk := chk } := by
  have hraw : (s.ctxOf 0x4 arg).levelOf = id := by
    funext raw
    simp [Ctx.levelOf, State.ctxOf, hinvert]
  have hsees : s.data.started.sees (s.ctxOf 0x4 arg)
      = List.replicate 0 false ++ samplesOfHalves (s.ctxOf 0x4 arg).qs (halvesOfMasterFrame w chk) ++ [] := by
    rw [Data.sees_started, Data.sees, hraw, hahead]
    simp
  obtain ⟨d, hbody, ⟨hrx, htx, -⟩, hres⟩ := readMaster_wave (c := s.ctxOf 0x4 arg) hq 0 false w chk hsees hchk
  have hcheck : startCheck (s.ctxOf 0x4 arg).regs = none := startCheck_passes rfl hq (fun h => nomatch h) fun h => nomatch h
  have hrun : commandBody 0x4 (s.ctxOf 0x4 arg) s.data.started = .ok () d := by
    show (readMaster _ _).bind _ = _
    rw [hbody, Res.bind_ok]
  obtain ⟨u, hu, hend, hdata⟩ := exec_ok (i := .rdMaster arg) rfl hidle hcheck hrun
  refine ⟨u, hu, hend, ?_, ?_, ?_⟩
  · have hlen : s.data.rx.ahead.length ≤ 0 + 34 * (4 * s.ctx.qs) := by
      rw [hahead, samplesOfMasterFrame_length]
      omega
    rw [hdata]
    show d.rx = _
    rw [hrx]
    simp only [RxPort.consume, Data.started_rx, ctxOf_qs, List.drop_eq_nil_of_le hlen]
    congr 1
    omega
  · rw [hdata]
    exact htx
  · rw [hdata]
    exact hres

/-- Settles O45: RD_MASTER reads the frame when it is there before the START, and so when its rows arrive one by one. -/
theorem masterFrameArrivesElementByElement : Obligations.MasterFrameArrivesElementByElement := by
  intro s arg fcode addr chk hidle hq hinvert hahead hended hchk
  have ht := exec_command (i := .rdMaster arg) rfl s
  have hall := execAll_line rfl _ (masterFrameRows_line fcode addr chk) hidle hended ht
  rw [masterFrameRows_halves, changeData_idle hidle] at hall
  obtain ⟨u, hu, hend, hrx, htx, hres⟩ := exec_rdMaster_frame
    (s := { s with data := s.data.present (samplesOfHalves s.ctx.qs (halvesOfMasterFrame (fcode ++ addr) chk)) })
    hidle hq hinvert (by rw [Data.present_rx, hahead]; rfl) hchk arg
  refine ⟨u, ?_, hend, hrx.trans (congrArg (RxPort.mk _ _) hended), htx, hres⟩
  rw [← hu, ← hall]
  show execAll (.rdMaster arg :: masterFrameRows fcode addr chk) s = _
  rw [execAll, ht]

end Sys2Proof.Machine
end

