-- ==== Sys2Proof/Proofs/SymbolsAndBits.lean ====
section
/-! PROOFS. DEC_SYMBOL and DEC_BIT: where they sample, how much they consume, and what running short of samples comes to (R151,
R154); and which stream each command reaches (R70, R93). -/

namespace Sys2Proof.Machine

/-! ### Commands that read a symbol or a bit -/

/-- A command whose body consumes `n` samples and then writes a result. -/
theorem exec_consumes {i : Instr} {op : BitVec 4} {arg : Nat} {s : State} (hi : commandParts i = some (op, arg))
    (hidle : s.running = none) (hc : startCheck (s.ctxOf op arg).regs = none) {n : Nat} {f : Results → Results}
    (hb : commandBody op (s.ctxOf op arg) s.data.started = .ok () ((s.data.started.consume n).setRes f)) :
    ∃ t, exec i s = .next t ∧ EndedWith s t op arg .none ∧ Consumed n s t ∧ t.data.res = f s.data.res.started := by
  obtain ⟨t, ht, hend, hdata⟩ := exec_ok hi hidle hc hb
  refine ⟨t, ht, hend, ?_, by rw [hdata]; rfl⟩
  rw [Consumed, hdata]
  exact ⟨rfl, rfl, rfl⟩

/-- A command whose body runs out of samples consumes them all; it ends with EndOfSignal if the stream has ended (R76). -/
theorem exec_runsOut_ended {i : Instr} {op : BitVec 4} {arg : Nat} {s : State} (hi : commandParts i = some (op, arg))
    (hidle : s.running = none) (hc : startCheck (s.ctxOf op arg).regs = none)
    (hout : RunsOut s.data.started (commandBody op (s.ctxOf op arg) s.data.started)) (hended : s.data.rx.ended = true) :
    ∃ t, exec i s = .next t ∧ EndedWith s t op arg .endOfSignal ∧ Consumed s.data.rx.ahead.length s t
      ∧ t.data.res = s.data.res.started := by
  rcases hout with ⟨-, hb⟩ | ⟨hgoing, -⟩
  · obtain ⟨t, ht, hend, hdata⟩ := exec_raised hi hidle hc hb
    refine ⟨t, ht, hend, ?_, by rw [hdata]; rfl⟩
    rw [Consumed, hdata]
    exact ⟨rfl, rfl, rfl⟩
  · exact nomatch hended.symm.trans hgoing

/-- It waits if the stream has not ended (R71; log entry 14). -/
theorem exec_runsOut_waits {i : Instr} {op : BitVec 4} {arg : Nat} {s : State} (hi : commandParts i = some (op, arg))
    (hidle : s.running = none) (hc : startCheck (s.ctxOf op arg).regs = none)
    (hout : RunsOut s.data.started (commandBody op (s.ctxOf op arg) s.data.started)) (hgoing : s.data.rx.ended = false) :
    ∃ t, exec i s = .next t ∧ WaitsWith s t op arg ∧ Consumed s.data.rx.ahead.length s t
      ∧ t.data.res = s.data.res.started := by
  rcases hout with ⟨hended, -⟩ | ⟨-, w, hb⟩
  · exact nomatch hended.symm.trans hgoing
  · obtain ⟨t, ht, hwaits, -, hdata⟩ := exec_waiting hi hidle hc hb
    refine ⟨t, ht, hwaits, ?_, by rw [hdata]; rfl⟩
    rw [Consumed, hdata]
    exact ⟨rfl, rfl, rfl⟩

/-- Settles O20: `decodeSymbol_spec` for the body of DEC_SYMBOL, on each side of 4·QS samples. -/
theorem decSymbolRuns : Obligations.DecSymbolRuns := by
  intro s arg hidle hq
  have hc : startCheck (s.ctxOf 0x1 arg).regs = none := startCheck_passes rfl hq (fun h => nomatch h) fun h => nomatch h
  have hbody : commandBody 0x1 (s.ctxOf 0x1 arg) s.data.started
      = (decodeSymbol (s.ctxOf 0x1 arg) s.data.started).bind fun x d => .ok () (d.setRes fun r => { r with sym := x }) := rfl
  rcases decodeSymbol_spec (s.ctxOf 0x1 arg) s.data.started hq with ⟨hlen, a, b, ha, hb, hread⟩ | ⟨hlen, hout⟩
  · rw [hread, Res.bind_ok] at hbody
    obtain ⟨t, ht, hleaves⟩ := exec_consumes (i := .decSymbol arg) rfl hidle hc hbody
    have hlen' : ¬s.data.rx.ahead.length < 4 * s.ctx.qs := Nat.not_lt.2 hlen
    exact ⟨fun _ => ⟨t, a, b, ht, ha, hb, hleaves⟩, fun h => absurd h hlen', fun h => absurd h hlen'⟩
  · have hout' : RunsOut s.data.started (commandBody 0x1 (s.ctxOf 0x1 arg) s.data.started) := hout.bind _
    exact ⟨fun h => absurd hlen (Nat.not_lt.2 h), fun _ => exec_runsOut_ended (i := .decSymbol arg) rfl hidle hc hout',
      fun _ => exec_runsOut_waits (i := .decSymbol arg) rfl hidle hc hout'⟩

/-! ### The edge of a bit (R154) -/

/-- The least index from QS on with the other level is the edge. -/
theorem Data.edge_eq {c : Ctx} {d : Data} {v : Level} {e : Nat} (hle : c.qs ≤ e) (he : (d.sees c)[e]? = some (!v))
    (hmin : ∀ i, c.qs ≤ i → i < e → (d.sees c)[i]? = some v) : d.edge c v = e := by
  have hbefore : samplesBefore c (!v) (d.rx.ahead.drop c.qs) = e - c.qs := by
    refine samplesBefore_sees c (!v) _ ?_ fun i hi => ?_
    · rw [List.map_drop, List.getElem?_drop, Nat.add_sub_cancel' hle]
      exact he
    · rw [List.map_drop, List.getElem?_drop, Bool.not_not]
      exact hmin _ (by omega) (by omega)
  rw [Data.edge, hbefore]
  omega

/-- An edge that is there is the least index from QS on with the other level. -/
theorem Data.edge_spec {c : Ctx} {d : Data} {v : Level} (h : d.edge c v < d.rx.ahead.length) :
    c.qs ≤ d.edge c v ∧ (d.sees c)[d.edge c v]? = some (!v)
      ∧ ∀ i, c.qs ≤ i → i < d.edge c v → (d.sees c)[i]? = some v := by
  have hlt : samplesBefore c (!v) (d.rx.ahead.drop c.qs) < (d.rx.ahead.drop c.qs).length := by
    rw [List.length_drop]
    unfold Data.edge at h
    omega
  refine ⟨Nat.le_add_right _ _, ?_, fun i hle hi => ?_⟩
  · obtain ⟨raw, hraw, hv⟩ := samplesBefore_hit c (!v) _ hlt
    rw [List.getElem?_drop] at hraw
    rw [Data.sees, List.getElem?_map, Data.edge, hraw, Option.map_some, hv]
  · unfold Data.edge at hi
    obtain ⟨raw, hraw, hv⟩ := samplesBefore_min c (!v) (d.rx.ahead.drop c.qs) (i := i - c.qs) (by omega)
    rw [List.getElem?_drop, Nat.add_sub_cancel' hle] at hraw
    rw [Data.sees, List.getElem?_map, hraw, Option.map_some]
    exact congrArg some (by simpa using hv)

/-- `edgeAt` is where DecodeBit finds its edge. -/
theorem edgeAt_iff (s : State) (op : BitVec 4) (arg e : Nat) :
    s.edgeAt e ↔ e < s.data.rx.ahead.length
      ∧ ∃ v, s.levels[s.ctx.qs]? = some v ∧ s.data.started.edge (s.ctxOf op arg) v = e := by
  constructor
  · rintro ⟨hle, v, hv, he, hmin⟩
    refine ⟨?_, v, hv, Data.edge_eq (c := s.ctxOf op arg) hle he hmin⟩
    have hlt := (List.getElem?_eq_some_iff.1 he).1
    simpa [State.levels] using hlt
  · rintro ⟨hlt, v, hv, rfl⟩
    obtain ⟨hle, he, hmin⟩ := Data.edge_spec (d := s.data.started) hlt
    exact ⟨hle, v, hv, he, hmin⟩

/-- Settles O21: `decodeBit_spec` for the body of DEC_BIT, whether or not the edge and 2·QS samples from it on are there. -/
theorem decBitRuns : Obligations.DecBitRuns := by
  intro s arg hidle hq
  have hc : startCheck (s.ctxOf 0x2 arg).regs = none := startCheck_passes rfl hq (fun h => nomatch h) fun h => nomatch h
  have hbody : commandBody 0x2 (s.ctxOf 0x2 arg) s.data.started
      = (decodeBit (s.ctxOf 0x2 arg) s.data.started).bind fun b d => .ok () (d.setRes fun r => { r with bit := b }) := rfl
  rcases decodeBit_spec (s.ctxOf 0x2 arg) s.data.started hq with ⟨v, hv, hlen, hread⟩ | ⟨hshort, hout⟩
  · rw [hread, Res.bind_ok] at hbody
    obtain ⟨t, ht, hend, hcons, hres⟩ := exec_consumes (i := .decBit arg) rfl hidle hc hbody
    have hedge : s.edgeAt (s.data.started.edge (s.ctxOf 0x2 arg) v) :=
      (edgeAt_iff s 0x2 arg _).2 ⟨Nat.lt_of_lt_of_le (Nat.lt_add_of_pos_right (Nat.mul_pos (by decide) hq)) hlen, v, hv, rfl⟩
    have hfound (h : ∀ e, s.edgeAt e → s.data.rx.ahead.length < e + 2 * s.ctx.qs) : False :=
      absurd (h _ hedge) (Nat.not_lt.2 hlen)
    refine ⟨fun e he _ => ?_, fun h => (hfound h).elim, fun h => (hfound h).elim⟩
    obtain ⟨-, v', hv', rfl⟩ := (edgeAt_iff s 0x2 arg e).1 he
    obtain rfl : v' = v := Option.some.inj (hv'.symm.trans hv)
    exact ⟨t, v', ht, hv', hend, hcons, hres⟩
  · have hout' : RunsOut s.data.started (commandBody 0x2 (s.ctxOf 0x2 arg) s.data.started) := hout.bind _
    refine ⟨fun e he hlen => ?_, fun _ => exec_runsOut_ended (i := .decBit arg) rfl hidle hc hout',
      fun _ => exec_runsOut_waits (i := .decBit arg) rfl hidle hc hout'⟩
    obtain ⟨-, v, hv, rfl⟩ := (edgeAt_iff s 0x2 arg e).1 he
    exact absurd hlen (Nat.not_le.2 (hshort v hv))

/-! ### Which stream a command reaches (R70, R93) -/

/-- From `d` to `d'` only samples are emitted, whatever becomes of the results. -/
def Emits (d d' : Data) : Prop := d'.rx = d.rx ∧ ∃ xs, d'.tx = (d.sent xs).tx

theorem Writes.emits {d d' : Data} (h : Writes d d') : Emits d d' := by
  obtain ⟨hrx, -, -, htx⟩ := h
  exact ⟨hrx, htx⟩

theorem Emits.refl (d : Data) : Emits d d := (Writes.refl d).emits

theorem Emits.trans {a b c : Data} (h1 : Emits a b) (h2 : Emits b c) : Emits a c := by
  obtain ⟨r1, xs, t1⟩ := h1
  obtain ⟨r2, ys, t2⟩ := h2
  refine ⟨r2.trans r1, xs ++ ys, ?_⟩
  rw [t2]
  simp only [Data.sent, t1, List.length_append, List.append_assoc, Nat.add_assoc]

theorem bodyEncTelegram_emits (c : Ctx) (d : Data) : Emits d (bodyEncTelegram c d).left := by
  refine Res.left_bind Emits Emits.trans (encodeMaster_writes c _ d).emits fun _ d =>
    Res.left_bind Emits Emits.trans (emitGap_writes c d).emits fun _ d => ?_
  split
  · exact Emits.refl d
  · exact (encodeSlave_writes c _ d).emits

/-- The body of a decode command only consumes (R70(a), R101). -/
theorem decodeBody_reads {op : BitVec 4} (hop : op ∈ [0x1#4, 0x2#4, 0x3#4, 0x4#4, 0x5#4, 0x6#4]) (c : Ctx) (d : Data) :
    Reads d (commandBody op c d).left := by
  simp only [List.mem_cons, List.not_mem_nil, or_false] at hop
  rcases hop with rfl | rfl | rfl | rfl | rfl | rfl
  · exact (decodeSymbol_reads c d).bind fun _ _ => Reads.of_eq rfl rfl rfl
  · exact (decodeBit_reads c d).bind fun _ _ => Reads.of_eq rfl rfl rfl
  · exact (sync_reads c d).bind fun _ d => Reads.refl d
  · exact (readMaster_reads c d).bind fun _ d => Reads.refl d
  · exact readSlave_reads c _ d
  · exact bodyRdTelegram_reads c d

/-- The body of an encode command only emits (R70(b), R101). -/
theorem encodeBody_emits {op : BitVec 4} (hop : op ∈ [0x8#4, 0x9#4, 0xA#4, 0xB#4, 0xC#4]) (c : Ctx) (d : Data) :
    Emits d (commandBody op c d).left := by
  simp only [List.mem_cons, List.not_mem_nil, or_false] at hop
  rcases hop with rfl | rfl | rfl | rfl | rfl
  · exact (encodeSymbol_writes c _ d).emits
  · exact (encodeBit_writes c _ d).emits
  · exact (encodeMaster_writes c _ d).emits
  · exact (encodeSlave_writes c _ d).emits
  · exact bodyEncTelegram_emits c d

/-- Whatever START and the body each do to the data, a command does. -/
theorem comesTo_of_body {R : Data → Data → Prop} {s : State} {op : BitVec 4} {arg : Nat} (hstart : R s.data s.data.started)
    (htrans : ∀ {a b c}, R a b → R b c → R a c)
    (hbody : R s.data.started (commandBody op (s.ctxOf op arg) s.data.started).left) : R s.data (s.comesTo op arg) := by
  unfold State.comesTo
  split
  · exact htrans hstart hbody
  · exact hstart

theorem exec_decode_consumes {i : Instr} {op : BitVec 4} {arg : Nat} {s t : State} (hi : commandParts i = some (op, arg))
    (hop : op ∈ [0x1#4, 0x2#4, 0x3#4, 0x4#4, 0x5#4, 0x6#4]) (hidle : s.running = none) (ht : exec i s = .next t) :
    ∃ n ≤ s.data.rx.ahead.length, Consumed n s t := by
  obtain ⟨hrx, htx, hdraws⟩ := exec_comesTo hi hidle ht
  obtain ⟨htx', hdraws', n, hn, hrx'⟩ : Reads s.data (s.comesTo op arg) :=
    comesTo_of_body (Reads.of_eq rfl rfl rfl) Reads.trans (decodeBody_reads hop _ _)
  exact ⟨n, hn, hrx.trans hrx', htx.trans htx', hdraws.trans hdraws'⟩

theorem exec_encode_emits {i : Instr} {op : BitVec 4} {arg : Nat} {s t : State} (hi : commandParts i = some (op, arg))
    (hop : op ∈ [0x8#4, 0x9#4, 0xA#4, 0xB#4, 0xC#4]) (hidle : s.running = none) (ht : exec i s = .next t) :
    ∃ xs, Emitted xs s t := by
  obtain ⟨hrx, htx, -⟩ := exec_comesTo hi hidle ht
  obtain ⟨hrx', xs, htx'⟩ : Emits s.data (s.comesTo op arg) :=
    comesTo_of_body ⟨rfl, [], by simp⟩ Emits.trans (encodeBody_emits hop _ _)
  exact ⟨xs, hrx.trans hrx', htx.trans htx'⟩

/-- NOP and the illegal opcodes have the empty body (R144, R146). -/
theorem exec_empty_consumes {i : Instr} {op : BitVec 4} {arg : Nat} {s t : State} (hi : commandParts i = some (op, arg))
    (hbody : commandBody op = bodyNop) (hidle : s.running = none) (ht : exec i s = .next t) : Consumed 0 s t := by
  obtain ⟨hrx, htx, hdraws⟩ := exec_comesTo hi hidle ht
  obtain ⟨hrx', htx', hdraws'⟩ : Moved 0 s.data (s.comesTo op arg) := by
    unfold State.comesTo
    rw [hbody]
    split <;> exact Moved.zero _
  exact ⟨hrx.trans hrx', htx.trans htx', hdraws.trans hdraws'⟩

/-- Settles O48: a command does to the streams what its body does, and there are three kinds of body. -/
theorem commandsReachOnlyTheirStream : Obligations.CommandsReachOnlyTheirStream := by
  intro s t arg hidle
  refine ⟨fun i hi ht => ?_, fun i hi ht => ?_, fun i hi ht => ?_⟩ <;>
    simp only [List.mem_cons, List.not_mem_nil, or_false] at hi
  · rcases hi with rfl | rfl | rfl | rfl | rfl | rfl <;> exact exec_decode_consumes rfl (by decide) hidle ht
  · rcases hi with rfl | rfl | rfl | rfl | rfl <;> exact exec_encode_emits rfl (by decide) hidle ht
  · rcases hi with rfl | rfl | rfl | rfl | rfl <;> exact exec_empty_consumes rfl rfl hidle ht

end Sys2Proof.Machine
end

