-- ==== Sys2Proof/Proofs/PortReads.lean ====
section
/-! PROOFS. Every access and every step but one answers a next state (R84, R269), a read of an idle core changes nothing (R85, R88),
and what the port reads right after reset (R290, R291). -/

namespace Sys2Proof.Machine

/-! ### Every event has a next state -/

theorem exec_next (i : Instr) (s : State) : ∃ t, exec i s = .next t := by
  cases h : commandParts i with
  | none => exact ⟨_, exec_lineHalves h s⟩
  | some p => exact ⟨_, exec_command h s⟩

theorem hostWrite_next (addr v : Word) (s : State) : ∃ t, hostWrite addr v s = .next t := by
  unfold hostWrite
  split
  · exact ⟨s, rfl⟩
  split
  · split
    · exact exec_next _ s
    · exact ⟨s, rfl⟩
  · exact ⟨_, rfl⟩

/-- A line event runs a row of its layer, or is refused because its bits are no row's (log entry 16). -/
theorem handle_line_cases (f : Format) (w : Word) (s : State) : (∃ t, handle (.line f w) s = .next t)
    ∨ (f = .command ∨ ∀ i, decode f w ≠ .ok i) ∧ handle (.line f w) s = .refused (.notALineElement f w) := by
  by_cases hf : f = .command
  · subst hf
    exact .inr ⟨.inl rfl, rfl⟩
  cases hw : decode f w with
  | ok i =>
    rw [handle_line_of_decode hf hw]
    exact .inl (exec_next i s)
  | error r =>
    refine .inr ⟨.inr fun i => nofun, ?_⟩
    cases f with
    | command => exact absurd rfl hf
    | lineSymbol | lineBit | lineDelimiter | masterWord => simp only [handle, hw]

theorem handle_cases (e : Event) (s : State) : (∃ t, handle e s = .next t)
    ∨ ∃ f w, e = .line f w ∧ (f = .command ∨ ∀ i, decode f w ≠ .ok i) ∧ handle e s = .refused (.notALineElement f w) := by
  cases e with
  | write addr v => exact .inl (hostWrite_next addr v s)
  | line f w => exact (handle_line_cases f w s).imp id fun h => ⟨f, w, rfl, h⟩
  | read | sample | capture | endOfInput | sinkAccepts | sinkAlways | reset => exact .inl ⟨_, rfl⟩

/-- Settles O13: a step handles the event that comes next, if there is one. -/
theorem nothingStopsTheCore : Obligations.NothingStopsTheCore := by
  refine ⟨exec_next, hostWrite_next, fun addr s => ⟨_, rfl⟩, fun s => ?_⟩
  cases hp : s.pending with
  | nil => exact .inl ⟨s, step_of_pending_nil hp⟩
  | cons e rest =>
    rw [step_of_pending_cons hp]
    rcases handle_cases e { s with pending := rest } with h | ⟨f, w, rfl, hbits, h⟩
    · exact .inl h
    · exact .inr ⟨f, w, rest, rfl, hbits, h⟩

/-! ### Reads of an idle core (R85, R88) -/

/-- A read of an idle core draws no value (R88). -/
theorem viewSeen_idle {s : State} (h : s.running = none) : s.viewSeen = s.viewNow := by simp [State.viewSeen, h]

/-- Settles O17: the read of an idle core draws nothing, and no access outside the port reaches it. -/
theorem idleReadsHaveNoEffect : Obligations.IdleReadsHaveNoEffect := by
  intro s addr hidle
  refine ⟨fun off hoff => ?_, fun hout => ⟨by simp [hostRead, hout], fun v => by simp [hostWrite, hout]⟩⟩
  simp [hostRead, hoff, State.readPort, viewSeen_idle hidle, busy_eq_false hidle, alignOffset]

/-! ### Reset (R290, R291) -/

/-- But for CFG and the table every register reads 0 right after reset (R291). -/
theorem register_reset_mapped : ∀ off ∈ mappedOffsets, off ≠ 0x004 → off < 0x100 →
    State.reset.register State.reset.viewNow off = 0x00000000 := by decide

/-- And so does every offset that holds no register (R48). -/
theorem register_reset {off : Nat} (haligned : off % 4 = 0) (hcfg : off ≠ 0x004) (hfct : ¬(0x100 ≤ off ∧ off < 0x140)) :
    State.reset.register State.reset.viewNow off = 0x00000000 := by
  by_cases hmapped : off ∈ mappedOffsets
  · have hrange := (mem_mappedOffsets haligned).1 hmapped
    exact register_reset_mapped off hmapped hcfg (by omega)
  · exact register_reserved haligned hmapped _ _

/-- Settles O50: CFG, the table, the outputs and the counters are read off the reset state. -/
theorem resetRegisterValues : Obligations.ResetRegisterValues := by
  refine ⟨fun off _ hcfg hfct => register_reset (alignOffset_mod_four off) hcfg ?_, rfl, by decide, rfl, rfl, rfl, rfl, rfl,
    rfl, rfl⟩
  unfold alignOffset
  omega

end Sys2Proof.Machine
end

