-- ==== Sys2Proof/Proofs/Encoding.lean ====
section
/-! PROOFS. The encoding layers of spec/30_encoding.md: encoding and decoding are inverse to each other (R100 to R113), a write to
CTRL reads START, OP and ARG alone (R100), and the codes of symbols (R104). -/

namespace Sys2Proof.Machine

/-! ### Symbols (R104) -/

/-- A code is that of the symbol it names. -/
@[simp] theorem symbolCode_symbolOfCode : ∀ v : BitVec 2, symbolCode (symbolOfCode v) = v := by decide

/-- Levels are those of the symbol they make. -/
@[simp] theorem symbolHalves_symbolOfHalves (a b : Level) : symbolHalves (symbolOfHalves a b) = (a, b) := by
  cases a <;> cases b <;> rfl

/-- Settles O5: a symbol's code is by definition its two levels, so reading the code back is reading the levels back. -/
theorem symbolCodesAreABijection : Obligations.SymbolCodesAreABijection :=
  ⟨rfl, rfl, rfl, rfl, fun x => ⟨rfl, symbolOfHalves_halves x, symbolOfHalves_halves x⟩, symbolCode_symbolOfCode,
    symbolHalves_symbolOfHalves⟩

/-! ### Commands (R100 to R103) -/

theorem wordStart_commandWord (op : BitVec 4) (arg : Nat) : wordStart (commandWord op arg) = true := by
  rw [wordStart, commandWord, BitVec.getLsbD_append]
  rfl

theorem wordOp_commandWord (op : BitVec 4) (arg : Nat) : wordOp (commandWord op arg) = op := by
  rw [wordOp, commandWord, BitVec.extractLsb'_append_eq_of_le (by decide)]
  exact BitVec.extractLsb'_append_eq_right

theorem wordArg_commandWord (op : BitVec 4) (arg : Nat) : wordArg (commandWord op arg) = BitVec.ofNat 4 arg := by
  rw [wordArg, commandWord, BitVec.extractLsb'_append_eq_of_le (by decide), BitVec.extractLsb'_append_eq_of_le (by decide),
    BitVec.extractLsb'_append_eq_of_le (by decide)]
  exact BitVec.extractLsb'_append_eq_right

/-- The command an opcode names has that opcode and operand. -/
@[simp] theorem commandParts_commandOf (op : BitVec 4) (arg : Nat) : commandParts (commandOf op arg) = some (op, arg) := by
  obtain ⟨k, hk⟩ := op
  interval_cases k <;> rfl

/-- A CTRL word with START = 1 names the command of its OP and ARG (R100). -/
theorem decode_of_wordStart {w : Word} (h : wordStart w = true) :
    decode .command w = .ok (commandOf (wordOp w) (wordArg w).toNat) := if_pos h

/-- A command word decodes to the command of its opcode, with an operand that fits ARG (R100, R101). -/
theorem decode_commandWord (op : BitVec 4) {arg : Nat} (h : argFits arg = true) :
    decode .command (commandWord op arg) = .ok (commandOf op arg) := by
  have harg : (BitVec.ofNat 4 arg).toNat = arg := Nat.mod_eq_of_lt (of_decide_eq_true h)
  rw [decode_of_wordStart (wordStart_commandWord op arg), wordOp_commandWord, wordArg_commandWord, harg]

/-! ### Master words (R113) -/

theorem wordFcode_toNat (w : Half) : (wordFcode w).toNat = w.toNat / 4096 := by
  have hw := w.isLt
  rw [wordFcode, BitVec.extractLsb'_toNat, Nat.shiftRight_eq_div_pow]
  omega

theorem wordAddr_toNat (w : Half) : (wordAddr w).toNat = w.toNat % 4096 := by
  rw [wordAddr, BitVec.extractLsb'_toNat, Nat.shiftRight_zero]

/-- A word is made of its two fields. -/
theorem masterWord_fields (w : Half) : masterWord (wordFcode w) (wordAddr w) = w := by
  apply BitVec.eq_of_toNat_eq
  have h := masterWord_toNat (wordFcode w) (wordAddr w).isLt
  rw [BitVec.ofNat_toNat, BitVec.setWidth_eq] at h
  rw [h, wordFcode_toNat, wordAddr_toNat]
  omega

theorem wordFcode_masterWord (fcode : BitVec 4) (addr : BitVec 12) : wordFcode (masterWord fcode addr) = fcode :=
  BitVec.extractLsb'_append_eq_left

theorem wordAddr_masterWord (fcode : BitVec 4) (addr : BitVec 12) : wordAddr (masterWord fcode addr) = addr :=
  BitVec.extractLsb'_append_eq_right

/-- The row of a function code: its layer, when it is well formed, and its bits. -/
theorem masterWordOf_row (fcode : BitVec 4) (addr : Nat) : (masterWordOf fcode addr).format = .masterWord
    ∧ (masterWordOf fcode addr).wf = addrFits addr ∧ encode (masterWordOf fcode addr) = masterWordBits fcode addr := by
  obtain ⟨k, hk⟩ := fcode
  interval_cases k <;> exact ⟨rfl, rfl, rfl⟩

/-- Every 16-bit value is a master word (R113). -/
theorem decode_masterWord (w : Half) :
    decode .masterWord (w.setWidth 32) = .ok (masterWordOf (wordFcode w) (wordAddr w).toNat) := by
  have hw : (w.setWidth 32).toNat < 65536 := by
    rw [BitVec.toNat_setWidth]
    omega
  rw [decode, decodeMasterWord, if_pos hw, BitVec.setWidth_setWidth_of_le w (by decide), BitVec.setWidth_eq]

/-- The bits of a master word decode to its row, with an address that fits its field. -/
theorem decode_masterWordBits (fcode : BitVec 4) {addr : Nat} (h : addrFits addr = true) :
    decode .masterWord (masterWordBits fcode addr) = .ok (masterWordOf fcode addr) := by
  have haddr : (BitVec.ofNat 12 addr).toNat = addr := Nat.mod_eq_of_lt (of_decide_eq_true h)
  rw [masterWordBits, decode_masterWord, wordFcode_masterWord, wordAddr_masterWord, haddr]

/-! ### Encoding and decoding are inverse -/

/-- Decoding undoes encoding. -/
theorem decode_encode {i : Instr} (h : i.wf = true) : decode i.format (encode i) = .ok i := by
  cases i with
  | nop | decSymbol | decBit | sync | rdMaster | rdSlave | rdTelegram | encSymbol | encBit | encMaster | encSlave
  | encTelegram | illegalOp7 | illegalOpD | illegalOpE | illegalOpF => exact decode_commandWord _ h
  | symNl | symZero | symOne | symNh | bit0 | bit1 | startMaster | startSlave | endDelim => rfl
  | mwordFc0 | mwordFc1 | mwordFc2 | mwordFc3 | mwordFc4 | mwordFc5 | mwordFc6 | mwordFc7 | mwordFc8 | mwordFc9 | mwordFc10
  | mwordFc11 | mwordFc12 | mwordFc13 | mwordFc14 | mwordFc15 => exact decode_masterWordBits _ h

/-- The word is the encoding of the well-formed row `i` of layer `f`. -/
def Encodes (f : Format) (w : Word) (i : Instr) : Prop := i.wf = true ∧ i.format = f ∧ encode i = w

theorem encodes_of_decodeLineSymbol {w : Word} {i : Instr} (h : decodeLineSymbol w = .ok i) : Encodes .lineSymbol w i := by
  unfold decodeLineSymbol at h
  split at h <;> cases h
  all_goals
    rename_i hw
    exact ⟨rfl, rfl, BitVec.eq_of_toNat_eq hw.symm⟩

theorem encodes_of_decodeLineBit {w : Word} {i : Instr} (h : decodeLineBit w = .ok i) : Encodes .lineBit w i := by
  unfold decodeLineBit at h
  split at h <;> cases h
  all_goals
    rename_i hw
    exact ⟨rfl, rfl, BitVec.eq_of_toNat_eq hw.symm⟩

theorem encodes_of_decodeLineDelimiter {w : Word} {i : Instr} (h : decodeLineDelimiter w = .ok i) :
    Encodes .lineDelimiter w i := by
  unfold decodeLineDelimiter at h
  split_ifs at h with hmaster hslave hend <;> cases h
  · exact ⟨rfl, rfl, hmaster.symm⟩
  · exact ⟨rfl, rfl, hslave.symm⟩
  · exact ⟨rfl, rfl, hend.symm⟩

theorem encodes_masterWord (w : Half) :
    Encodes .masterWord (w.setWidth 32) (masterWordOf (wordFcode w) (wordAddr w).toNat) := by
  obtain ⟨hformat, hwf, hbits⟩ := masterWordOf_row (wordFcode w) (wordAddr w).toNat
  refine ⟨hwf.trans (decide_eq_true (wordAddr w).isLt), hformat, hbits.trans ?_⟩
  rw [masterWordBits, BitVec.ofNat_toNat, BitVec.setWidth_eq, masterWord_fields]

theorem encodes_of_decodeMasterWord {w : Word} {i : Instr} (h : decodeMasterWord w = .ok i) : Encodes .masterWord w i := by
  unfold decodeMasterWord at h
  split_ifs at h with hw
  cases h
  have hwidth : (w.setWidth 16).setWidth 32 = w := by
    apply BitVec.eq_of_toNat_eq
    simp
    omega
  have henc := encodes_masterWord (w.setWidth 16)
  rwa [hwidth] at henc

/-- In the layers of the line, encoding undoes decoding. -/
theorem encodes_of_decode {f : Format} {w : Word} {i : Instr} (hf : f ≠ .command) (h : decode f w = .ok i) : Encodes f w i := by
  cases f with
  | command => exact absurd rfl hf
  | lineSymbol => exact encodes_of_decodeLineSymbol h
  | lineBit => exact encodes_of_decodeLineBit h
  | lineDelimiter => exact encodes_of_decodeLineDelimiter h
  | masterWord => exact encodes_of_decodeMasterWord h

/-- Reading a word from its four bytes is reading the word (R83). -/
theorem decodeBytes_bytesOfWord (f : Format) (w : Word) : decodeBytes f (bytesOfWord 4 w) = decode f w := by
  have hfew : ¬4 < formatBytes f := by cases f <;> decide
  simp only [decodeBytes, bytesOfWord_length, hfew, wordOfBytes_bytesOfWord, lt_irrefl, if_false]

/-- Settles O1: `decode_encode`, and the four bytes of a word are the word. -/
theorem encodedInstructionsDecodeBack : Obligations.EncodedInstructionsDecodeBack := fun _ hwf =>
  ⟨decode_encode hwf, (decodeBytes_bytesOfWord _ _).trans (decode_encode hwf)⟩

/-- Settles O2: in the layers of the line encoding and decoding undo each other. -/
theorem lineDecodingIsExact : Obligations.LineDecodingIsExact := by
  intro f w i hf
  refine ⟨encodes_of_decode hf, ?_⟩
  rintro ⟨hwf, rfl, rfl⟩
  exact decode_encode hwf

/-- Settles O6: the two fields by division and remainder, and the row that `decode_masterWord` reads. -/
theorem masterWordFields : Obligations.MasterWordFields := by
  intro w
  obtain ⟨hwf, -, hbits⟩ := encodes_masterWord w
  exact ⟨wordFcode_toNat w, wordAddr_toNat w, masterWord_fields w, _, decode_masterWord w, hwf, hbits⟩

/-! ### Writes to CTRL (R100) -/

@[simp] theorem wordStart_and_ctrlMask (w : Word) : wordStart (w &&& Laws.layerMask .command) = wordStart w := by
  rw [wordStart, BitVec.getLsbD_and]
  exact Bool.and_true _

@[simp] theorem wordOp_and_ctrlMask (w : Word) : wordOp (w &&& Laws.layerMask .command) = wordOp w := by
  have hones : (Laws.layerMask .command).extractLsb' 4 4 = BitVec.allOnes 4 := by decide
  rw [wordOp, BitVec.extractLsb'_and, hones, BitVec.and_allOnes, wordOp]

@[simp] theorem wordArg_and_ctrlMask (w : Word) : wordArg (w &&& Laws.layerMask .command) = wordArg w := by
  have hones : (Laws.layerMask .command).extractLsb' 12 4 = BitVec.allOnes 4 := by decide
  rw [wordArg, BitVec.extractLsb'_and, hones, BitVec.and_allOnes, wordArg]

/-- A write to CTRL sees START, OP and ARG alone, whether it is a START or not (R100, R140). -/
theorem hostWrite_and_ctrlMask {s : State} {addr : Word} {off : Nat} (hoff : s.portOffset addr = some off)
    (hctrl : alignOffset off = 0x000) (w : Word) :
    hostWrite addr (w &&& Laws.layerMask .command) s = hostWrite addr w s := by
  have hstart : isStart off (w &&& Laws.layerMask .command) = isStart off w := by simp [isStart]
  have hdecode : decode .command (w &&& Laws.layerMask .command) = decode .command w := by simp [decode, decodeCommand]
  have hwrite : s.writePort off (w &&& Laws.layerMask .command) = s.writePort off w := by
    simp [State.writePort, Regs.write, hctrl]
  simp only [hostWrite, hoff, hstart, hdecode, hwrite]

/-- Settles O3: a START runs what CTRL decodes to, and words with the same masked bits are one masked word. -/
theorem ctrlWriteStartsTheNamedCommand : Obligations.CtrlWriteStartsTheNamedCommand := by
  intro s addr w off hoff hctrl
  refine ⟨fun hstart => ⟨commandOf (wordOp w) (wordArg w).toNat, commandParts_commandOf _ _,
    hostWrite_of_decode hoff hctrl (decode_of_wordStart hstart)⟩, fun w' hmask => ?_⟩
  calc hostWrite addr w' s
    _ = hostWrite addr (w' &&& Laws.layerMask .command) s := (hostWrite_and_ctrlMask hoff hctrl w').symm
    _ = hostWrite addr (w &&& Laws.layerMask .command) s := congrArg (hostWrite addr · s) hmask
    _ = hostWrite addr w s := hostWrite_and_ctrlMask hoff hctrl w

end Sys2Proof.Machine
end

