-- ==== Sys2Proof/Proofs/FramesSent.lean ====
section
/-! PROOFS. ENC_MASTER and ENC_SLAVE: the frame each sends and its length (R112, R114, R237 to R240). -/

namespace Sys2Proof.Machine

/-! ### The length of a slave frame (R114) -/

/-- A chunk's words take 32 half-bit periods each, and its check byte 16. -/
theorem halvesOfChunk_length (ch : List Half × Byte) : (halvesOfChunk ch).length = 32 * ch.1.length + 16 := by
  simp [halvesOfChunk, List.length_flatMap, halvesOfField_length, Nat.mul_comm]

theorem halvesOfSymbol_length (x : Symbol) : (halvesOfSymbol x).length = 2 := rfl

theorem halvesOfChunks_length (chs : List (List Half × Byte)) : (chs.flatMap halvesOfChunk).length = 2 * chunkPeriods chs := by
  induction chs with
  | nil => rfl
  | cons ch chs ih =>
    rw [List.flatMap_cons, List.length_append, ih, halvesOfChunk_length]
    simp only [chunkPeriods, List.map_cons, List.sum_cons, List.length_cons]
    omega

/-- Chunking keeps the words, and makes ⌈n/4⌉ chunks of them (R221). -/
theorem chunkPeriods_checkedChunks (c : Ctx) (ws : List Half) :
    chunkPeriods (c.checkedChunks ws) = 16 * ws.length + 8 * chunkCount ws.length := by
  have hlengths : (c.checkedChunks ws).map (fun ch => ch.1.length) = chunkSizes ws.length := by
    rw [← chunksOf_lengths, Ctx.checkedChunks, List.map_map]
    rfl
  have hcount : (c.checkedChunks ws).length = chunkCount ws.length := by
    rw [← chunkSizes_length, ← hlengths, List.length_map]
  rw [chunkPeriods, hlengths, chunkSizes_sum, hcount]

/-- A slave frame of n words takes 10 + 16·n + 8·⌈n/4⌉ bit periods (R114). -/
theorem samplesOfSlaveFrame_length (q : Nat) (c : Ctx) (ws : List Half) :
    (samplesOfHalves q (halvesOfSlaveFrame (c.checkedChunks ws))).length = slaveFrameLength ws.length * (4 * q) := by
  have hhalves : (halvesOfSlaveFrame (c.checkedChunks ws)).length = 2 * slaveFrameLength ws.length := by
    rw [halvesOfSlaveFrame, List.length_append, List.length_append, halvesOfStart_length, halvesOfChunks_length,
      chunkPeriods_checkedChunks, slaveFrameLength, halvesOfSymbol_length]
    omega
  rw [samplesOfHalves_length, hhalves]
  ring

/-! ### Commands that send -/

/-- A command whose body sends `xs` emits them and does nothing else when the sink always accepts. -/
theorem exec_sends {i : Instr} {op : BitVec 4} {arg : Nat} {s : State} (hi : commandParts i = some (op, arg))
    (hidle : s.running = none) (hc : startCheck (s.ctxOf op arg).regs = none) (hsink : s.data.tx.limit = none) {xs : List Level}
    (hsends : Sends (commandBody op (s.ctxOf op arg)) xs) :
    ∃ t, exec i s = .next t ∧ EndedWith s t op arg .none ∧ Emitted xs s t
      ∧ t.data.gapDraws = s.data.gapDraws ∧ t.data.res = s.data.res.started := by
  obtain ⟨t, ht, hend, hdata⟩ := exec_ok hi hidle hc (hsends s.data.started hsink)
  refine ⟨t, ht, hend, ?_, by rw [hdata]; rfl, by rw [hdata]; rfl⟩
  rw [Emitted, hdata]
  exact ⟨rfl, rfl⟩

/-- Settles O37: the body of ENC_MASTER is `encodeMaster`, and a master frame takes 136·QS samples. -/
theorem encMasterEmitsAMasterFrame : Obligations.EncMasterEmitsAMasterFrame := by
  intro s arg hidle hq hsink
  have hc : startCheck (s.ctxOf 0xA arg).regs = none := startCheck_passes rfl hq (fun h => nomatch h) fun h => nomatch h
  obtain ⟨t, ht, hend, hemitted, hdraws, hres⟩ :=
    exec_sends (i := .encMaster arg) rfl hidle hc hsink (encodeMaster_sends (s.ctxOf 0xA arg) s.regs.txMword)
  exact ⟨t, _, ht, hend, hemitted, rfl, samplesOfMasterFrame_length _ _ _, hdraws, hres⟩

/-- Settles O38: the body of ENC_SLAVE is `encodeSlave` of the first n words of TX_SWORD, which holds 16. -/
theorem encSlaveEmitsASlaveFrame : Obligations.EncSlaveEmitsASlaveFrame := by
  intro s arg n hidle hq hsink hn hn16
  subst hn
  have hc : startCheck (s.ctxOf 0xB arg).regs = none := startCheck_passes rfl hq (fun _ => hn16) fun h => nomatch h
  obtain ⟨t, ht, hend, hemitted, hdraws, hres⟩ := exec_sends (i := .encSlave arg) rfl hidle hc hsink
    (encodeSlave_sends (s.ctxOf 0xB arg) (s.regs.txSword.toList.take s.regs.txNw.toNat))
  have hwords : (s.regs.txSword.toList.take s.regs.txNw.toNat).length = s.regs.txNw.toNat := by simp [hn16]
  refine ⟨t, _, ht, hend, hemitted, rfl, ?_, hdraws, hres⟩
  rw [ctxOf_qs, samplesOfSlaveFrame_length, hwords]
  rfl

end Sys2Proof.Machine
end

/-! PROOFS. The life of a command: a START is refused while a command runs (R143), ends at once when a start check fails (R144, R145,
R149) and else ends or waits (R140 to R142); NOP passes the checks in every configuration (R146). -/

namespace Sys2Proof.Machine

/-! ### While a command runs (R143) -/

/-- Settles O10: a command row is a START, and a running command makes every START a refusal. -/
theorem busyCommandsAreRejected : Obligations.BusyCommandsAreRejected := by
  intro i op arg s hi hbusy
  rw [exec_command hi, startCommand_busy hbusy]
  rfl

/-- A START by a write to CTRL is refused (R143, R268). -/
theorem hostWrite_start_busy {s : State} {addr v : Word} {off : Nat} (hbusy : s.busy = true)
    (hoff : s.portOffset addr = some off) (hctrl : alignOffset off = 0x000) (hstart : v.getLsbD 0 = true) :
    hostWrite addr v s = .next { s with cmdRejected := true, writeIgnored := true } := by
  rw [hostWrite_of_decode hoff hctrl (decode_of_wordStart hstart)]
  exact busyCommandsAreRejected _ _ _ s (commandParts_commandOf _ _) hbusy

/-- A running command protects the RW registers (R143). -/
theorem writePort_busy {s : State} {off : Nat} {m : Word} (hbusy : s.busy = true)
    (hm : writableMask (alignOffset off) = some m) (v : Word) : s.writePort off v = { s with writeIgnored := true } := by
  have hwritable : writableOffset (alignOffset off) = true := (writableOffset_iff (alignOffset_mod_four off)).2 ⟨m, hm⟩
  have hstatus : alignOffset off ≠ 0x008 := fun h => by
    rw [h] at hwritable
    exact absurd hwritable (by decide)
  simp [State.writePort, hstatus, hwritable, hbusy]

/-- Settles O11: a write to an RW register is a refused START or meets the protection; one to STATUS meets neither. -/
theorem busyWritesAreIgnored : Obligations.BusyWritesAreIgnored := by
  intro s addr v off hbusy hoff
  refine ⟨fun hm => ?_, fun hstatus => ?_⟩
  · obtain ⟨m, hm⟩ := Option.isSome_iff_exists.1 hm
    by_cases hstart : alignOffset off = 0x000 ∧ v.getLsbD 0 = true
    · obtain ⟨hctrl, hbit⟩ := hstart
      rw [hostWrite_start_busy hbusy hoff hctrl hbit]
      simp [hctrl, hbit]
    · have hflag : (alignOffset off == 0x000 && v.getLsbD 0) = false := by simpa using hstart
      rw [hostWrite_of_not_start hoff fun hctrl => by simpa [hctrl] using hstart, writePort_busy hbusy hm, hflag,
        Bool.or_false]
  · rw [hostWrite_of_not_start hoff (by omega), writePort_status hstatus]
    rfl

/-! ### The start checks (R144, R145, R149) -/

theorem startCheck_illegalOp {r : Regs} (h : illegalOp r.op = true) : startCheck r = some .illegalCommand := if_pos h

/-- A legal opcode but NOP's fails on each of the three illegal configurations (R145). -/
theorem startCheck_illegalConfig {r : Regs} (hlegal : illegalOp r.op = false) (hnop : r.op ≠ 0x0)
    (hcfg : r.cfg.qs = 0 ∨ (r.op = 0xB ∧ 16 < r.txNw.toNat) ∨ (r.op = 0xC ∧ r.gapMax.toNat < r.gapMin.toNat)) :
    startCheck r = some .illegalConfig := by
  unfold startCheck
  rw [if_neg (by simp [hlegal])]
  split_ifs with hqs hcount hgap
  · rfl
  · rfl
  · rfl
  · rcases hcfg with h | h | h
    · exact absurd ⟨hnop, h⟩ hqs
    · exact absurd h hcount
    · exact absurd h hgap

/-- NOP has no configuration to check, QS = 0 included (R146). -/
theorem startCheck_nop {r : Regs} (h : r.op = 0x0) : startCheck r = none := by simp [startCheck, illegalOp, h]

/-- An accepted command that fails a start check ends at once; it moves neither stream and writes nothing of its own (R142, R144). -/
theorem exec_fails {i : Instr} {op : BitVec 4} {arg : Nat} {s : State} {e : ErrorCode} (hi : commandParts i = some (op, arg))
    (hidle : s.running = none) (hc : startCheck (s.ctxOf op arg).regs = some e) :
    ∃ t, exec i s = .next t ∧ EndedWith s t op arg e ∧ Consumed 0 s t ∧ t.data.res = s.data.res.started := by
  obtain ⟨hend, -, -⟩ := endCommand_spec (s := s) op arg e s.data.started
  rw [exec_command hi, startCommand_fails hidle hc]
  exact ⟨_, rfl, hend, ⟨rfl, rfl, rfl⟩, rfl⟩

/-- Settles O8: the first start check fails, whatever the configuration. -/
theorem illegalOpcodesEndTheCommand : Obligations.IllegalOpcodesEndTheCommand := by
  intro s arg hidle p hp
  have hrow : commandParts p.1 = some (p.2, arg) ∧ illegalOp p.2 = true := by
    simp only [List.mem_cons, List.not_mem_nil, or_false] at hp
    rcases hp with rfl | rfl | rfl | rfl <;> exact ⟨rfl, rfl⟩
  exact exec_fails hrow.1 hidle (startCheck_illegalOp hrow.2)

/-- Settles O9: the opcode is legal and not NOP's, so the configuration fails its check. -/
theorem illegalConfigurationEndsTheCommand : Obligations.IllegalConfigurationEndsTheCommand := by
  intro i op arg s hi hidle hop hcfg
  simp only [List.mem_cons, List.not_mem_nil, or_false, not_or] at hop
  obtain ⟨hnop, h7, hD, hE, hF⟩ := hop
  have hlegal : illegalOp op = false := by simp [illegalOp, h7, hD, hE, hF]
  exact exec_fails hi hidle (startCheck_illegalConfig hlegal hnop hcfg)

/-! ### Accepted commands (R140 to R142, R146) -/

/-- Settles O7: NOP passes the start checks and its body returns at once; after reset this leaves DONE alone set. -/
theorem nopCompletes : Obligations.NopCompletes := by
  refine ⟨fun s arg hidle => ?_, _, rfl, by decide⟩
  have hbody : commandBody 0x0 (s.ctxOf 0x0 arg) s.data.started = .ok () s.data.started := rfl
  obtain ⟨t, ht, hend, hdata⟩ := exec_ok (i := .nop arg) rfl hidle (startCheck_nop rfl) hbody
  refine ⟨t, ht, hend, ?_, by rw [hdata]; rfl⟩
  rw [Consumed, hdata]
  exact ⟨rfl, rfl, rfl⟩

/-- Settles O12: a failed start check, a return and an error end the command; otherwise its body waits. -/
theorem everyAcceptedCommandEndsOrWaits : Obligations.EveryAcceptedCommandEndsOrWaits := by
  intro i op arg s hi hidle
  cases hc : startCheck (s.ctxOf op arg).regs with
  | some e =>
    obtain ⟨t, ht, hend, -⟩ := exec_fails hi hidle hc
    exact ⟨t, ht, .inl ⟨e, hend⟩⟩
  | none =>
    rcases exec_runs hi hidle hc with ⟨_, _, t, -, ht, hend, -⟩ | ⟨e, _, t, -, ht, hend, -⟩ | ⟨_, _, t, -, ht, hwaits, -⟩
    · exact ⟨t, ht, .inl ⟨.none, hend⟩⟩
    · exact ⟨t, ht, .inl ⟨e, hend⟩⟩
    · exact ⟨t, ht, .inr hwaits⟩

end Sys2Proof.Machine

/-! PROOFS. Symbols and bits round-trip: the decoder reads back what the encoder emits and stops at its last sample (R161). -/

namespace Sys2Proof.Machine

/-- Encoding and decoding meet in the waveform: where `enc` sends the two half-bit periods `halves`, and `dec` returns `a` after one
bit period wherever these lie ahead of it, `dec` reads `a` back from what `enc` emits. -/
theorem Sends.readBack {α : Type} {c : Ctx} {enc : Data → Res Unit} {dec : Data → Res α} {halves : List Level} {a : α} {d : Data}
    (hsends : Sends enc (samplesOfHalves c.qs halves)) (hsink : d.tx.limit = none) (hperiod : halves.length = 2)
    (hdec : ∀ (e : Data) (rest : List Level), e.sees c = samplesOfHalves c.qs halves ++ rest →
      dec e = .ok a (e.consume (4 * c.qs))) :
    ∃ xs d', enc d = .ok () d' ∧ d'.tx.out = d.tx.out ++ xs ∧ xs.length = 4 * c.qs
      ∧ ∀ (e : Data) (rest : List Level), e.rx.ahead.map c.levelOf = xs ++ rest → dec e = .ok a (e.consume (4 * c.qs)) := by
  have hlength : (samplesOfHalves c.qs halves).length = 4 * c.qs := by
    rw [samplesOfHalves_length, hperiod]
    omega
  exact ⟨_, _, hsends d hsink, Data.sent_out _ d, hlength, hdec⟩

/-- Settles O22: encoder and decoder agree on the waveform of every symbol and of every bit. -/
theorem decodingInvertsEncoding : Obligations.DecodingInvertsEncoding := by
  intro c d hq hsink
  constructor
  case left =>
    intro x
    exact (encodeSymbol_sends c x).readBack hsink (halvesOfSymbol_length x) fun _ _ => decodeSymbol_wave hq
  case right =>
    intro b
    exact (encodeBit_sends c b).readBack hsink rfl fun _ _ => decodeBit_wave hq

end Sys2Proof.Machine

/-! PROOFS. The synchronizer: SYNC on a correctly timed start, there before the START or fed to a waiting core (R172, R180,
R181); the first delimiter element that does not match (R174, R176); and what a SYNC records of how it ended (R178, R179). -/

namespace Sys2Proof.Machine

/-! ### Commands that move the input stream -/

/-- The start checks have nothing against a decode command under a legal QS (R145, R149). -/
theorem startCheck_decode {s : State} {op : BitVec 4} (hop : op ∈ [0x1#4, 0x2#4, 0x3#4, 0x4#4, 0x5#4, 0x6#4])
    (hq : 0 < s.ctx.qs) (arg : Nat) : startCheck (s.ctxOf op arg).regs = none := by
  have hlegal : illegalOp op = false ∧ op ≠ 0xB ∧ op ≠ 0xC := by revert op; decide
  obtain ⟨hop, hslave, htelegram⟩ := hlegal
  exact startCheck_passes hop hq (fun h => absurd h hslave) fun h => absurd h htelegram

/-- The end of a command that has consumed `n` samples leaves them consumed and its result registers as they were (R142). -/
theorem Moved.consumed {n : Nat} {s t : State} {d : Data} (hmoved : Moved n s.data.started d)
    (hdata : t.data = { d with dp := Datapath.idle, seen := [] }) : Consumed n s t ∧ t.data.res = d.res := by
  rw [Consumed, hdata]
  exact ⟨hmoved, rfl⟩

/-! ### A correctly timed start (R172, R180, R181) -/

/-- Settles O23: `sync_wave` for the body of SYNC. -/
theorem syncReadsATimedStart : Obligations.SyncReadsATimedStart := by
  intro s arg k v kind rest hidle hq hlevels
  obtain ⟨d, hsync, hmoved, -, hres⟩ := sync_wave (c := s.ctxOf 0x3 arg) (d := s.data.started) hq kind k v hlevels
  have hbody : commandBody 0x3 (s.ctxOf 0x3 arg) s.data.started = .ok () d := by
    show (sync _ _).bind _ = _
    rw [hsync, Res.bind_ok]
  have hsamples : k + 9 * (4 * s.ctx.qs) = k + 36 * s.ctx.qs := by omega
  rw [ctxOf_qs, hsamples] at hmoved
  obtain ⟨t, ht, hend, hdata⟩ := exec_ok (i := .sync arg) rfl hidle (startCheck_decode (by decide) hq arg) hbody
  obtain ⟨hcons, htres⟩ := hmoved.consumed hdata
  exact ⟨t, ht, hend, hcons, htres.trans hres⟩

/-- A SYNC with nothing on a line that goes on waits for its first sample (R71, R171). -/
theorem exec_sync_waits {s : State} (hidle : s.running = none) (hq : 0 < s.ctx.qs) (hahead : s.data.rx.ahead = [])
    (hended : s.data.rx.ended = false) (arg : Nat) : ∃ t, exec (.sync arg) s = .next t ∧ WaitsWith s t 0x3 arg := by
  have hawait : advanceUntil (s.ctxOf 0x3 arg) HIGH s.data.started.syncBegin = .waiting .look s.data.started.syncBegin := by
    simp [advanceUntil, samplesBefore, hahead, hended]
  have hbody : commandBody 0x3 (s.ctxOf 0x3 arg) s.data.started = .waiting .look s.data.started.syncBegin := by
    show (sync _ _).bind _ = _
    rw [sync, hawait]
    rfl
  obtain ⟨t, ht, hwaits, -⟩ := exec_waiting (i := .sync arg) rfl hidle (startCheck_decode (by decide) hq arg) hbody
  exact ⟨t, ht, hwaits⟩

/-- Without RX_INVERT the core sees the raw samples (R72). -/
theorem levels_raw {s : State} (hinvert : s.regs.cfg.rxInvert = false) : s.levels = s.data.rx.ahead := by
  have hraw : s.ctx.levelOf = id := by
    funext raw
    simp [Ctx.levelOf, State.ctx, hinvert]
  rw [State.levels, hraw, List.map_id]

/-- SYNC on exactly the start of a role, whose row comes after the START: as if it were there before (R71, R180). -/
theorem sync_fed_start {s : State} (hidle : s.running = none) (hq : 0 < s.ctx.qs) (hinvert : s.regs.cfg.rxInvert = false)
    (hahead : s.data.rx.ahead = []) (hended : s.data.rx.ended = false) (arg : Nat) {row : Instr} {kind : Bool}
    (hrow : commandParts row = none) (hhalves : lineHalves row = halvesOfStart kind) :
    ∃ t u, exec (.sync arg) s = .next t ∧ WaitsWith s t 0x3 arg ∧ exec row t = .next u ∧ EndedWith s u 0x3 arg .none
      ∧ u.data.rx = { pos := s.data.rx.pos + 36 * s.ctx.qs, ahead := [], ended := false }
      ∧ u.data.tx = s.data.tx ∧ u.data.res = s.data.res.started.synced kind := by
  obtain ⟨t, ht, hwaits⟩ := exec_sync_waits hidle hq hahead hended arg
  let wave := samplesOfHalves s.ctx.qs (halvesOfStart kind)
  let fed : State := { s with data := s.data.present wave }
  have hfed : fed.data.rx.ahead = wave := by simp [fed, hahead]
  have hlevels : fed.levels = List.replicate 0 LOW ++ samplesOfHalves fed.ctx.qs (halvesOfStart kind) ++ [] := by
    rw [levels_raw (s := fed) hinvert, hfed, List.append_nil]
    rfl
  obtain ⟨u, hu, hend, ⟨hrx, htx, -⟩, hres⟩ := syncReadsATimedStart fed arg 0 LOW kind [] hidle hq hlevels
  have hnext := exec_present (i := .sync arg) rfl hidle hended ht wave
  rw [present_idle hidle hended, changeData_idle hidle] at hnext
  have hsame : exec (.sync arg) fed = exec row t := by
    rw [exec_lineHalves hrow, hhalves, exec_command_qs (i := .sync arg) rfl hidle ht]
    exact hnext
  refine ⟨t, u, ht, hwaits, hsame ▸ hu, hend, ?_, htx, hres⟩
  have hlength : wave.length ≤ 36 * s.ctx.qs := by
    rw [samplesOfHalves_length, halvesOfStart_length]
    omega
  rw [hrx]
  show RxPort.consume (0 + 36 * s.ctx.qs) fed.data.rx = _
  rw [Nat.zero_add, RxPort.consume, hfed, List.drop_eq_nil_of_le hlength]
  exact congrArg (RxPort.mk _ _) hended

/-- Settles O44: either row presents the start of its role. -/
theorem syncFedAStartSelectsItsRole : Obligations.SyncFedAStartSelectsItsRole := by
  intro s arg hidle hq hinvert hahead hended p hp
  simp only [List.mem_cons, List.not_mem_nil, or_false] at hp
  rcases hp with rfl | rfl
  case inl => exact sync_fed_start hidle hq hinvert hahead hended arg rfl rfl
  case inr => exact sync_fed_start hidle hq hinvert hahead hended arg rfl rfl

/-! ### From idle to the first delimiter element (R171 to R173) -/

/-- AdvanceUntil passes exactly the samples of the other level (R75). -/
theorem advanceUntil_run {c : Ctx} {v : Level} {k : Nat} {d : Data} {rest : List Level}
    (h : d.sees c = List.replicate k (!v) ++ v :: rest) : advanceUntil c v d = .ok () (d.consume k) := by
  refine advanceUntil_sees (by simp [h]) fun i hi => ?_
  rw [h, List.getElem?_append_left (by simpa using hi), List.getElem?_replicate, if_pos hi]

/-- After samples at one level, Sync's two waits end at the falling edge of the first pulse (R171, R172). -/
theorem sync_waits_pass {c : Ctx} (k p : Nat) (v : Level) {d : Data} {rest : List Level}
    (h : d.sees c = List.replicate k v ++ (List.replicate (p + 1) HIGH ++ LOW :: rest)) :
    ∃ m n, m + n = k + (p + 1) ∧ advanceUntil c HIGH d.syncBegin = .ok () (d.syncBegin.consume m)
      ∧ advanceUntil c LOW ((d.syncBegin.consume m).setSync .awaitLow)
        = .ok () (((d.syncBegin.consume m).setSync .awaitLow).consume n) := by
  cases v with
  | false =>
    have hlow : ((d.syncBegin.consume k).setSync .awaitLow).sees c = List.replicate (p + 1) HIGH ++ LOW :: rest := by
      rw [Data.sees_setSync, Data.sees_consume, Data.sees_syncBegin, h, List.drop_left' List.length_replicate]
    exact ⟨k, p + 1, rfl, advanceUntil_run (v := HIGH) h, advanceUntil_run (v := LOW) hlow⟩
  | true =>
    have hpulse : d.sees c = List.replicate (k + p + 1) HIGH ++ LOW :: rest := by
      rw [h, ← List.append_assoc]
      exact congrArg (· ++ LOW :: rest) List.replicate_append_replicate
    have hlow : ((d.syncBegin.consume 0).setSync .awaitLow).sees c = List.replicate (k + p + 1) HIGH ++ LOW :: rest := by
      rw [Data.sees_setSync, Data.consume_zero, Data.sees_syncBegin, hpulse]
    exact ⟨0, k + p + 1, by omega, advanceUntil_run (v := HIGH) (k := 0) hpulse, advanceUntil_run (v := LOW) hlow⟩

/-- After samples at one level and a start bit, Sync is at the first delimiter element (R173). -/
theorem sync_reaches_delimiter {c : Ctx} (hq : 0 < c.qs) (k : Nat) (v : Level) {d : Data} {rest : List Level}
    (h : d.sees c = List.replicate k v ++ (samplesOfHalves c.qs (halvesOfBit true) ++ rest)) :
    ∃ d', sync c d = (syncDelimiter c d').onRaise (·.setSync .error) ∧ Moved (k + 4 * c.qs) d d'
      ∧ d'.res = { d.res with roleValid := false, syncState := .inDelimiter, kind := false, elem := 0 } := by
  obtain ⟨p, hp⟩ : ∃ p, 2 * c.qs = p + 1 := ⟨2 * c.qs - 1, by omega⟩
  have hpulse : d.sees c = List.replicate k v ++ (List.replicate (p + 1) HIGH ++ LOW :: (List.replicate p LOW ++ rest)) := by
    rw [h, halvesOfBit, samplesOfHalves_pair, hp, List.append_assoc]
    rfl
  have hlen : k + 4 * c.qs ≤ d.rx.ahead.length := by
    rw [← Data.sees_length c, h]
    simp [halvesOfBit]
    omega
  obtain ⟨m, n, hmn, hup, hdown⟩ := sync_waits_pass k p v hpulse
  let d1 := (d.syncBegin.consume m).setSync .awaitLow
  let d2 := (d1.consume n).setSync .atStartBit
  let d3 := (d2.consume (2 * c.qs)).setSync .inDelimiter
  have hstart : advance (2 * c.qs) d2 = .ok () (d2.consume (2 * c.qs)) := by
    refine advance_enough ?_
    simp [d2, d1]
    omega
  refine ⟨d3, ?_, ?_, rfl⟩
  · rw [sync, hup, Res.bind_ok, hdown, Res.bind_ok, show ((d1.consume n).setSync .atStartBit) = d2 from rfl, hstart,
      Res.bind_ok]
  · have hmoved : Moved (m + n + 2 * c.qs) d d3 := ((Moved.consume m d).trans (Moved.consume n _)).trans (Moved.consume _ _)
    have hsum : m + n + 2 * c.qs = k + 4 * c.qs := by omega
    rwa [hsum] at hmoved

/-! ### The first element that does not match (R174 to R176) -/

/-- An element whose waveform is there is read, and found not to be the one wanted (R106, R176). -/
theorem readElement_misses {c : Ctx} (hq : 0 < c.qs) {want got : Element} (hmiss : Element.misses want got = true)
    {d : Data} {rest : List Level} (h : d.sees c = samplesOfHalves c.qs (halvesOfElement got) ++ rest) :
    readElement c want d = .ok false (d.consume (4 * c.qs)) := by
  cases want with
  | sym x =>
    cases got with
    | sym y =>
      have hne : (y == x) = false := beq_eq_false_iff_ne.2 fun h => by simp [Element.misses, h] at hmiss
      rw [readElement, decodeSymbol_wave hq h, Res.bind_ok, hne]
    | bit b => exact nomatch hmiss
  | bit a =>
    cases got with
    | sym y => exact nomatch hmiss
    | bit b =>
      have hne : (b == a) = false := beq_eq_false_iff_ne.2 fun h => by simp [Element.misses, h] at hmiss
      rw [readElement, decodeBit_wave hq h, Res.bind_ok, hne]

/-- Elements are matched one part of a list after the other. -/
theorem matchElements_append (c : Ctx) (es fs : List Element) (j : Nat) (d : Data) :
    matchElements c (es ++ fs) j d = (matchElements c es j d).bind fun _ d => matchElements c fs (j + es.length) d := by
  induction es generalizing j d with
  | nil => rfl
  | cons e es ih =>
    simp only [List.cons_append, matchElements, List.length_cons]
    cases readElement c e d with
    | ok good d =>
      cases good with
      | false => rfl
      | true =>
        simp only [Res.bind_ok, if_true, ih]
        rw [Nat.add_assoc, Nat.add_comm 1]
    | raised e d => rfl
    | waiting w d => rfl

/-- The first element that does not match raises the error once it is read; ELEM counts those before it (R176). -/
theorem matchElements_misses {c : Ctx} (hq : 0 < c.qs) (es fs : List Element) {want got : Element}
    (hmiss : Element.misses want got = true) (j : Nat) {d : Data} {rest : List Level} (helem : d.res.elem = BitVec.ofNat 4 j)
    (h : d.sees c = samplesOfHalves c.qs (es.flatMap halvesOfElement ++ halvesOfElement got) ++ rest) :
    ∃ d', matchElements c (es ++ want :: fs) (j + 1) d = .raised .invalidStartDelimiter d'
      ∧ Moved ((es.length + 1) * (4 * c.qs)) d d' ∧ d'.res = { d.res with elem := BitVec.ofNat 4 (j + es.length) } := by
  rw [samplesOfHalves_append, List.append_assoc] at h
  obtain ⟨d1, hmatch, hmoved, -, hres⟩ := matchElements_wave hq es (j + 1) h
  have hlen : (samplesOfHalves c.qs (es.flatMap halvesOfElement)).length = es.length * (4 * c.qs) := by
    simp [halvesOfElement_length, List.length_flatMap]
    ring
  have hread := readElement_misses hq hmiss (hmoved.sees_append h hlen)
  refine ⟨d1.consume (4 * c.qs), ?_, ?_, ?_⟩
  · rw [matchElements_append, hmatch, Res.bind_ok, matchElements, hread, Res.bind_ok]
    rfl
  · rw [Nat.succ_mul]
    exact hmoved.trans (Moved.consume _ _)
  · rw [Data.consume_res, hres]
    cases es with
    | nil =>
      rw [if_pos rfl, helem]
      rfl
    | cons e es =>
      have hlast : j + 1 + (e :: es).length - 1 = j + (e :: es).length := by omega
      rw [if_neg (List.cons_ne_nil e es), hlast]

/-- A delimiter begins with the symbol that commits to its role (R110, R174). -/
theorem delimiterOf_first (kind : Bool) :
    ∃ x, delimiterOf kind = .sym x :: (delimiterOf kind).tail ∧ kindOfFirst x = some kind := by
  cases kind with
  | false => exact ⟨.one, rfl, rfl⟩
  | true => exact ⟨.nh, rfl, rfl⟩

/-- `got` stands in place `j` of a delimiter whose elements before it are those of `kind`'s, and does not match there: in the first
place it begins neither role (R174), in a later one it is another symbol, or another bit, than `kind`'s (R176). -/
def MissesAt (kind : Bool) (j : Nat) (got : Element) : Prop :=
  (∃ want, (delimiterOf kind)[j]? = some want ∧ Element.misses want got = true)
    ∧ (j = 0 → got = .sym .zero ∨ got = .sym .nl)

/-- Sync ends at the first delimiter element that does not match; KIND is written by the first one that does (R174, R176). -/
theorem syncDelimiter_misses {c : Ctx} (hq : 0 < c.qs) {kind : Bool} {j : Nat} {got : Element} (hmiss : MissesAt kind j got)
    {d : Data} {rest : List Level} (hkind : d.res.kind = false) (helem : d.res.elem = 0)
    (h : d.sees c = samplesOfHalves c.qs (((delimiterOf kind).take j).flatMap halvesOfElement ++ halvesOfElement got) ++ rest) :
    ∃ d', syncDelimiter c d = .raised .invalidStartDelimiter d' ∧ Moved ((j + 1) * (4 * c.qs)) d d'
      ∧ d'.res = { d.res with kind := decide (0 < j) && kind, elem := BitVec.ofNat 4 j } := by
  obtain ⟨⟨want, hwant, hother⟩, hfirst⟩ := hmiss
  cases j with
  | zero =>
    obtain ⟨x, rfl, hx⟩ : ∃ x, got = .sym x ∧ kindOfFirst x = none := by
      rcases hfirst rfl with rfl | rfl
      · exact ⟨.zero, rfl, rfl⟩
      · exact ⟨.nl, rfl, rfl⟩
    refine ⟨d.consume (4 * c.qs), ?_, ?_, ?_⟩
    · rw [syncDelimiter, decodeSymbol_wave hq (x := x) h, Res.bind_ok]
      simp only [hx]
    · rw [Nat.zero_add, Nat.one_mul]
      exact Moved.consume _ _
    · show d.res = { d.res with kind := false, elem := 0 }
      rw [← hkind, ← helem]
  | succ j =>
    obtain ⟨x, hcons, hx⟩ := delimiterOf_first kind
    rw [hcons, List.getElem?_cons_succ] at hwant
    obtain ⟨hj, hget⟩ := List.getElem?_eq_some_iff.1 hwant
    have hsplit : (delimiterOf kind).tail = (delimiterOf kind).tail.take j ++ want :: (delimiterOf kind).tail.drop (j + 1) := by
      rw [← hget, ← List.drop_eq_getElem_cons hj, List.take_append_drop]
    have hlength : ((delimiterOf kind).tail.take j).length = j := List.length_take_of_le (Nat.le_of_lt hj)
    rw [hcons, List.take_succ_cons, List.flatMap_cons, List.append_assoc, samplesOfHalves_append, List.append_assoc] at h
    let d1 := ((d.consume (4 * c.qs)).setRes fun r => { r with kind := kind }).setRes fun r => { r with elem := 1 }
    have hmoved : Moved (4 * c.qs) d d1 := ⟨rfl, rfl, rfl⟩
    obtain ⟨d', hmatch, hmoved', hres⟩ := matchElements_misses hq ((delimiterOf kind).tail.take j)
      ((delimiterOf kind).tail.drop (j + 1)) hother 1 (d := d1) rfl (hmoved.sees_append h (samplesOfElement_length _ _))
    rw [← hsplit] at hmatch
    rw [hlength] at hmoved' hres
    refine ⟨d', ?_, ?_, ?_⟩
    · simp only [syncDelimiter, decodeSymbol_wave hq (x := x) h, Res.bind_ok, hx]
      rw [hmatch, Res.bind_raised]
    · rw [Nat.succ_mul, Nat.add_comm]
      exact hmoved.trans hmoved'
    · rw [hres]
      simp [d1, Nat.add_comm]

/-- Sync on a start that goes wrong at element `j` (R176, R178). -/
theorem sync_misses {c : Ctx} (hq : 0 < c.qs) (k : Nat) (v : Level) {kind : Bool} {j : Nat} {got : Element}
    (hmiss : MissesAt kind j got) {d : Data} {rest : List Level}
    (h : d.sees c = List.replicate k v ++ samplesOfHalves c.qs
      (halvesOfBit true ++ ((delimiterOf kind).take j).flatMap halvesOfElement ++ halvesOfElement got) ++ rest) :
    ∃ d', sync c d = .raised .invalidStartDelimiter d' ∧ Moved (k + (j + 2) * (4 * c.qs)) d d'
      ∧ d'.res = { d.res with
          syncState := .error, kind := decide (0 < j) && kind, elem := BitVec.ofNat 4 j, roleValid := false } := by
  rw [List.append_assoc (halvesOfBit true), samplesOfHalves_append, List.append_assoc, List.append_assoc] at h
  obtain ⟨d1, hsync, hmoved, hres⟩ := sync_reaches_delimiter hq k v h
  rw [← List.append_assoc] at h
  have hlead : (List.replicate k v ++ samplesOfHalves c.qs (halvesOfBit true)).length = k + 4 * c.qs := by
    simp [halvesOfBit]
    omega
  obtain ⟨d2, hraised, hmoved', hres'⟩ := syncDelimiter_misses hq hmiss (by rw [hres]) (by rw [hres])
    (hmoved.sees_append h hlead)
  refine ⟨d2.setSync .error, by rw [hsync, hraised, Res.onRaise_raised], ?_, ?_⟩
  · have hsum : k + 4 * c.qs + (j + 1) * (4 * c.qs) = k + (j + 2) * (4 * c.qs) := by ring
    rw [← hsum]
    exact hmoved.trans hmoved'
  · rw [Data.setSync_res, hres', hres]

/-- ReadMaster begins with Sync and passes its error on (R193). -/
theorem readMaster_of_sync_raised {c : Ctx} {d d' : Data} {e : ErrorCode} (h : sync c d = .raised e d') :
    readMaster c d = .raised e d' := by rw [readMaster, h, Res.bind_raised]

/-- A command whose body begins with Sync, but for writes of result registers, and passes Sync's error on, ends at the first delimiter
element that does not match (R178, R266(c)). -/
theorem exec_sync_misses {i : Instr} {op : BitVec 4} {arg : Nat} {s : State} (hi : commandParts i = some (op, arg))
    (hidle : s.running = none) (hc : startCheck (s.ctxOf op arg).regs = none) (hq : 0 < s.ctx.qs) (d0 : Data)
    (hbegin : Moved 0 s.data.started d0)
    (hpasses : ∀ e d, sync (s.ctxOf op arg) d0 = .raised e d →
      commandBody op (s.ctxOf op arg) s.data.started = .raised e d)
    {k : Nat} {v : Level} {kind : Bool} {j : Nat} {got : Element} {rest : List Level} (hmiss : MissesAt kind j got)
    (h : s.levels = List.replicate k v ++ samplesOfHalves s.ctx.qs
      (halvesOfBit true ++ ((delimiterOf kind).take j).flatMap halvesOfElement ++ halvesOfElement got) ++ rest) :
    ∃ t, exec i s = .next t ∧ EndedWith s t op arg .invalidStartDelimiter ∧ Consumed (k + (j + 2) * (4 * s.ctx.qs)) s t
      ∧ t.data.res = { d0.res with
          syncState := .error, kind := decide (0 < j) && kind, elem := BitVec.ofNat 4 j, roleValid := false } := by
  have hsees : d0.sees (s.ctxOf op arg) = s.levels := hbegin.sees _
  obtain ⟨d, hraised, hmoved, hres⟩ := sync_misses (c := s.ctxOf op arg) hq k v hmiss (hsees.trans h)
  have hmoved' := hbegin.trans hmoved
  rw [Nat.zero_add] at hmoved'
  obtain ⟨t, ht, hend, hdata⟩ := exec_raised hi hidle hc (hpasses _ d hraised)
  obtain ⟨hcons, htres⟩ := hmoved'.consumed hdata
  exact ⟨t, ht, hend, hcons, htres.trans hres⟩

/-- Settles O24: each of the four bodies begins with Sync, RD_SLAVE's after the write of RX_SCNT (R201). -/
theorem syncStopsAtTheFirstMismatch : Obligations.SyncStopsAtTheFirstMismatch := by
  intro s arg k j v kind want got rest hidle hq hwant hother hfirst hlevels p hp
  have hmiss : MissesAt kind j got := ⟨⟨want, hwant, hother⟩, hfirst⟩
  simp only [List.mem_cons, List.not_mem_nil, or_false] at hp
  rcases hp with rfl | rfl | rfl | rfl
  case inl =>
    refine exec_sync_misses (i := .sync arg) rfl hidle (startCheck_decode (by decide) hq arg) hq s.data.started
      (Moved.zero _) (fun e d h => ?_) hmiss hlevels
    show (sync _ _).bind _ = _
    rw [h, Res.bind_raised]
  case inr.inl =>
    refine exec_sync_misses (i := .rdMaster arg) rfl hidle (startCheck_decode (by decide) hq arg) hq s.data.started
      (Moved.zero _) (fun e d h => ?_) hmiss hlevels
    show (readMaster _ _).bind _ = _
    rw [readMaster_of_sync_raised h, Res.bind_raised]
  case inr.inr.inl =>
    refine exec_sync_misses (i := .rdSlave arg) rfl hidle (startCheck_decode (by decide) hq arg) hq
      (s.data.started.slaveBegin (s.ctx.words (BitVec.ofNat 4 arg))) (Moved.zero _) (fun e d h => ?_) hmiss hlevels
    show (sync _ _).bind _ = _
    exact congrArg (Res.bind · _) h
  case inr.inr.inr =>
    refine exec_sync_misses (i := .rdTelegram arg) rfl hidle (startCheck_decode (by decide) hq arg) hq s.data.started
      (Moved.zero _) (fun e d h => ?_) hmiss hlevels
    show (readMaster _ _).bind _ = _
    rw [readMaster_of_sync_raised h, Res.bind_raised]

/-! ### How a SYNC ended (R170, R178, R179) -/

/-- Sync is under way: ROLE is not valid and still `role`, and SYNC_STATE is neither Synced nor Error (R170, R178). -/
def Results.Seeking (role : Bool) (r : Results) : Prop :=
  r.roleValid = false ∧ r.role = role ∧ r.syncState ≠ .synced ∧ r.syncState ≠ .error

/-- A part of Sync returns with the value and the result registers in `Q`, or raises an error or waits while Sync is under way. -/
def Res.Seeks {α : Type} (role : Bool) (Q : α → Results → Prop) : Res α → Prop
  | .ok a d => Q a d.res
  | .raised e d => e ≠ .none ∧ d.res.Seeking role
  | .waiting _ d => d.res.Seeking role

theorem Res.Seeks.bind {α β : Type} {role : Bool} {Q : α → Results → Prop} {Q' : β → Results → Prop} {r : Res α}
    {f : α → Data → Res β} (hr : r.Seeks role Q) (hf : ∀ a d, Q a d.res → (f a d).Seeks role Q') :
    (r.bind f).Seeks role Q' := by
  cases r with
  | ok a d => exact hf a d hr
  | raised e d => exact hr
  | waiting w d => exact hr

theorem RunsOut.seeks {α : Type} {role : Bool} {Q : α → Results → Prop} {d : Data} {r : Res α} (h : RunsOut d r)
    (hd : d.res.Seeking role) : r.Seeks role Q := by
  rcases h with ⟨-, rfl⟩ | ⟨-, w, rfl⟩
  · exact ⟨by decide, hd⟩
  · exact hd

theorem advance_seeks {role : Bool} (n : Nat) {d : Data} (h : d.res.Seeking role) :
    (advance n d).Seeks role fun _ r => r = d.res := by
  rcases advance_spec n d with ⟨-, e⟩ | ⟨-, hout⟩
  · rw [e]; exact rfl
  · exact hout.seeks h

theorem advanceUntil_seeks {role : Bool} (c : Ctx) (v : Level) {d : Data} (h : d.res.Seeking role) :
    (advanceUntil c v d).Seeks role fun _ r => r = d.res := by
  rcases advanceUntil_spec c v d with ⟨-, e⟩ | ⟨-, hout⟩
  · rw [e]; exact rfl
  · exact hout.seeks h

theorem decodeSymbol_seeks {role : Bool} {c : Ctx} (hq : 0 < c.qs) {d : Data} (h : d.res.Seeking role) :
    (decodeSymbol c d).Seeks role fun _ r => r = d.res := by
  rcases decodeSymbol_spec c d hq with ⟨-, a, b, -, -, e⟩ | ⟨-, hout⟩
  · rw [e]; exact rfl
  · exact hout.seeks h

theorem decodeBit_seeks {role : Bool} {c : Ctx} (hq : 0 < c.qs) {d : Data} (h : d.res.Seeking role) :
    (decodeBit c d).Seeks role fun _ r => r = d.res := by
  rcases decodeBit_spec c d hq with ⟨v, -, -, e⟩ | ⟨-, hout⟩
  · rw [e]; exact rfl
  · exact hout.seeks h

theorem readElement_seeks {role : Bool} {c : Ctx} (hq : 0 < c.qs) (e : Element) {d : Data} (h : d.res.Seeking role) :
    (readElement c e d).Seeks role fun _ r => r = d.res := by
  cases e with
  | sym x => exact (decodeSymbol_seeks hq h).bind fun _ _ hr => hr
  | bit b => exact (decodeBit_seeks hq h).bind fun _ _ hr => hr

/-- Of a delimiter all of whose elements match nothing is recorded but that ELEM is 8 (R176). -/
theorem matchElements_seeks {role : Bool} {c : Ctx} (hq : 0 < c.qs) (es : List Element) (j : Nat) {d : Data}
    (hlen : j + es.length = 8) (helem : d.res.elem = BitVec.ofNat 4 j) (h : d.res.Seeking role) :
    (matchElements c es (j + 1) d).Seeks role fun _ r => r = { d.res with elem := 8 } := by
  induction es generalizing j d with
  | nil =>
    obtain rfl : j = 8 := hlen
    have helem8 : d.res.elem = 8 := helem
    show d.res = { d.res with elem := 8 }
    rw [← helem8]
  | cons e es ih =>
    rw [List.length_cons] at hlen
    refine (readElement_seeks hq e h).bind fun good d' hd' => ?_
    have h' : d'.res.Seeking role := hd' ▸ h
    cases good with
    | false => exact ⟨by decide, h'⟩
    | true =>
      have hrest := ih (j + 1) (d := d'.setRes fun r => { r with elem := BitVec.ofNat 4 (j + 1) }) (by omega) rfl h'
      rw [← hd']
      exact hrest

/-- The role Sync returns is the one ROLE and KIND hold, ROLE is valid, and all eight elements have matched (R177 to R179). -/
def Results.Found (kind : Bool) (r : Results) : Prop :=
  r.syncState = .synced ∧ r.roleValid = true ∧ r.role = kind ∧ r.kind = kind ∧ r.elem = 8

theorem syncDelimiter_seeks {role : Bool} {c : Ctx} (hq : 0 < c.qs) {d : Data} (h : d.res.Seeking role) :
    (syncDelimiter c d).Seeks role Results.Found := by
  refine (decodeSymbol_seeks hq h).bind fun x d' hd' => ?_
  have h' : d'.res.Seeking role := hd' ▸ h
  cases kindOfFirst x with
  | none => exact ⟨by decide, h'⟩
  | some kind =>
    have hlen : 1 + (delimiterOf kind).tail.length = 8 := by rw [List.length_tail, delimiterOf_length]
    let d1 := (d'.setRes fun r => { r with kind := kind }).setRes fun r => { r with elem := 1 }
    refine (matchElements_seeks hq _ 1 (d := d1) hlen rfl h').bind fun _ d2 hd2 => ?_
    have hkind : d2.res.kind = kind := by rw [hd2]; rfl
    have helem : d2.res.elem = 8 := by rw [hd2]
    exact ⟨rfl, rfl, rfl, hkind, helem⟩

/-- While Sync is under way SYNC_STATE may be any state but Synced and Error (R170). -/
theorem Results.Seeking.setSync {role : Bool} {r : Results} (h : r.Seeking role) {x : SyncState} (hsynced : x ≠ .synced)
    (herror : x ≠ .error) : { r with syncState := x }.Seeking role := by
  obtain ⟨hvalid, hrole, -, -⟩ := h
  exact ⟨hvalid, hrole, hsynced, herror⟩

/-- Up to the write of Error on a raise (R178), Sync finds a role or is under way. -/
theorem sync_seeks {c : Ctx} (hq : 0 < c.qs) (d : Data) :
    ∃ r : Res Bool, sync c d = r.onRaise (·.setSync .error) ∧ r.Seeks d.res.role Results.Found := by
  refine ⟨_, rfl, ?_⟩
  have hbegin : d.syncBegin.res.Seeking d.res.role := ⟨rfl, rfl, SyncState.noConfusion, SyncState.noConfusion⟩
  refine (advanceUntil_seeks c HIGH hbegin).bind fun _ d1 h1 => ?_
  have hhigh : d1.res.Seeking d.res.role := h1 ▸ hbegin
  refine (advanceUntil_seeks c LOW (d := d1.setSync .awaitLow) (hhigh.setSync (by decide) (by decide))).bind fun _ d2 h2 => ?_
  have hlow : d2.res.Seeking d.res.role := h2 ▸ hhigh.setSync (by decide) (by decide)
  refine (advance_seeks (2 * c.qs) (d := d2.setSync .atStartBit) (hlow.setSync (by decide) (by decide))).bind
    fun _ d3 h3 => ?_
  have hstart : d3.res.Seeking d.res.role := h3 ▸ hlow.setSync (by decide) (by decide)
  exact syncDelimiter_seeks hq (hstart.setSync (by decide) (by decide))

/-- Settles O25: SYNC ends, or waits, as Sync does (`sync_seeks`), and an error has the code Sync raised. -/
theorem syncOutcomeIsRecorded : Obligations.SyncOutcomeIsRecorded := by
  intro s t arg hidle hq ht
  have hc := startCheck_decode (s := s) (op := 0x3) (by decide) hq arg
  obtain ⟨r, hsync, hseeks⟩ := sync_seeks (c := s.ctxOf 0x3 arg) hq s.data.started
  have hbody : commandBody 0x3 (s.ctxOf 0x3 arg) s.data.started
      = (r.onRaise (·.setSync .error)).bind fun _ d => .ok () d := by
    show (sync _ _).bind _ = _
    rw [hsync]
  have hsame {t' : State} (ht' : exec (.sync arg) s = .next t') : t' = t := Host.Outcome.next.inj (ht'.symm.trans ht)
  cases r with
  | ok kind d =>
    obtain ⟨t', ht', ⟨-, hbusy, -, herr, -⟩, hdata⟩ := exec_ok (i := .sync arg) rfl hidle hc hbody
    obtain rfl := hsame ht'
    obtain ⟨hsynced, hvalid, hrole, hkind, helem⟩ : d.res.Found kind := hseeks
    refine ⟨fun _ h => absurd herr h, fun _ _ => ?_, fun h => nomatch hbusy.symm.trans h⟩
    rw [hdata]
    exact ⟨hsynced, hvalid, hrole.trans hkind.symm, helem⟩
  | raised e d =>
    obtain ⟨t', ht', ⟨-, hbusy, -, herr, -⟩, hdata⟩ := exec_raised (i := .sync arg) rfl hidle hc hbody
    obtain rfl := hsame ht'
    obtain ⟨hcode, hvalid, hrole, -, -⟩ : e ≠ .none ∧ d.res.Seeking s.data.res.role := hseeks
    refine ⟨fun _ _ => ?_, fun _ h => absurd (herr.symm.trans h) hcode, fun h => nomatch hbusy.symm.trans h⟩
    rw [hdata]
    exact ⟨rfl, hvalid, hrole⟩
  | waiting w d =>
    obtain ⟨t', ht', -, hrun, hdata⟩ := exec_waiting (i := .sync arg) rfl hidle hc hbody
    obtain rfl := hsame ht'
    obtain ⟨hvalid, hrole, hsynced, herror⟩ : d.res.Seeking s.data.res.role := hseeks
    refine ⟨fun h => (nomatch hrun.symm.trans h), fun h => (nomatch hrun.symm.trans h), fun _ => ?_⟩
    rw [hdata]
    exact ⟨hvalid, hrole, hsynced, herror⟩

end Sys2Proof.Machine

/-! PROOFS. What R190 says of the function-code table; and RD_MASTER on a correctly timed line: it reads a master frame (R195) or ends
with the error of the first thing wrong (R194). -/

namespace Sys2Proof.Machine

/-! ### The function-code table (R190) -/

/-- Settles O57: R190 bounds every entry (`Ctx.entry_ok`), and each of the sizes it allows is a multiple of 16 bits. -/
theorem functionCodeTableInvariants : Obligations.FunctionCodeTableInvariants := by
  refine ⟨by decide, fun c fc hfct => ?_⟩
  have hok := Ctx.entry_ok hfct fc
  simp only [FctEntry.ok, Bool.and_eq_true, Bool.or_eq_true, beq_iff_eq, Bool.not_eq_true', beq_eq_false_iff_ne] at hok
  obtain ⟨hsize, hreserved⟩ := hok
  have hwords : 16 * c.words fc = (c.entry fc).size.toNat ∧ c.words fc ∈ [0, 1, 2, 4, 8, 16] := by
    unfold Ctx.words
    rcases hsize with ((((hs | hs) | hs) | hs) | hs) | hs <;> rw [hs] <;> decide
  exact ⟨hwords.1, hwords.2, fun h => hreserved.resolve_left (absurd h)⟩

/-! ### Commands that read -/

/-- A decode command whose body returns after consuming `n` samples. -/
theorem exec_reads_ok {i : Instr} {op : BitVec 4} {arg : Nat} {s : State} (hi : commandParts i = some (op, arg))
    (hop : op ∈ [0x1#4, 0x2#4, 0x3#4, 0x4#4, 0x5#4, 0x6#4]) (hidle : s.running = none) (hq : 0 < s.ctx.qs) {n : Nat} {d : Data}
    {r : Results} (hbody : commandBody op (s.ctxOf op arg) s.data.started = .ok () d) (hmoved : Moved n s.data.started d)
    (hres : d.res = r) : ∃ t, exec i s = .next t ∧ EndedWith s t op arg .none ∧ Consumed n s t ∧ t.data.res = r := by
  obtain ⟨t, ht, hend, hdata⟩ := exec_ok hi hidle (startCheck_decode hop hq arg) hbody
  exact ⟨t, ht, hend, hres ▸ hmoved.consumed hdata⟩

/-- A decode command whose body raises an error after consuming `n` samples. -/
theorem exec_reads_raised {i : Instr} {op : BitVec 4} {arg : Nat} {s : State} (hi : commandParts i = some (op, arg))
    (hop : op ∈ [0x1#4, 0x2#4, 0x3#4, 0x4#4, 0x5#4, 0x6#4]) (hidle : s.running = none) (hq : 0 < s.ctx.qs) {n : Nat} {d : Data}
    {e : ErrorCode} {r : Results} (hbody : commandBody op (s.ctxOf op arg) s.data.started = .raised e d)
    (hmoved : Moved n s.data.started d) (hres : d.res = r) :
    ∃ t, exec i s = .next t ∧ EndedWith s t op arg e ∧ Consumed n s t ∧ t.data.res = r := by
  obtain ⟨t, ht, hend, hdata⟩ := exec_raised hi hidle (startCheck_decode hop hq arg) hbody
  exact ⟨t, ht, hend, hres ▸ hmoved.consumed hdata⟩

theorem Moved.of_eq {m n : Nat} {d d' : Data} (h : Moved m d d') (hmn : m = n) : Moved n d d' := hmn ▸ h

/-- What consumes as many samples as there are leaves none. -/
theorem Moved.exhausts {n : Nat} {d d' : Data} (h : Moved n d d') {c : Ctx} (hn : (d.sees c).length ≤ n) :
    d'.rx.ahead = [] := by
  rw [Data.sees_length] at hn
  rw [h.1, RxPort.consume_ahead, List.drop_eq_nil_of_le hn]

/-! ### The master frame (R193 to R195) -/

/-- RD_MASTER's body is ReadMaster but for the value returned (R196). -/
theorem commandBody_rdMaster (c : Ctx) (d : Data) :
    commandBody 0x4 c d = (readMaster c d).bind fun _ d => .ok () d := rfl

/-- Settles O27: `readMaster_wave` for the body of RD_MASTER. -/
theorem rdMasterReadsAMasterFrame : Obligations.RdMasterReadsAMasterFrame := by
  intro s arg k v w chk rest hidle hq hlevels hchk
  obtain ⟨d, hread, hmoved, hres⟩ := readMaster_wave (c := s.ctxOf 0x4 arg) (d := s.data.started) hq k v w chk hlevels hchk
  have hbody : commandBody 0x4 (s.ctxOf 0x4 arg) s.data.started = .ok () d := by
    rw [commandBody_rdMaster, hread, Res.bind_ok]
  exact exec_reads_ok (i := .rdMaster arg) rfl (by decide) hidle hq hbody (hmoved.of_eq (by rw [ctxOf_qs]; omega)) hres

/-- A slave start delimiter ends ReadMaster (R193). -/
theorem readMaster_wrong_role {c : Ctx} (hq : 0 < c.qs) (k : Nat) (v : Level) {d : Data} {rest : List Level}
    (h : d.sees c = List.replicate k v ++ samplesOfHalves c.qs (halvesOfStart false) ++ rest) :
    ∃ d', readMaster c d = .raised .unexpectedRole d' ∧ Moved (k + 9 * (4 * c.qs)) d d' ∧ d'.res = d.res.synced false := by
  obtain ⟨d', hsync, hmoved, -, hres⟩ := sync_wave hq false k v h
  exact ⟨d', by rw [readMaster, hsync, Res.bind_ok, if_pos rfl], hmoved, hres⟩

/-- ReadMaster up to the check byte: it has stored word and byte, and CheckValid decides how it goes on (R193, R194, R222). -/
theorem readMaster_to_check {c : Ctx} (hq : 0 < c.qs) (k : Nat) (v : Level) (w : Half) (chk : Byte) {d : Data}
    {rest : List Level} (h : d.sees c = List.replicate k v
      ++ samplesOfHalves c.qs (halvesOfStart true ++ halvesOfField w ++ halvesOfField chk) ++ rest) :
    ∃ d', readMaster c d = (if c.checkValid [w] chk = false then .raised .checkSequenceMismatch d'
          else (readEnd c d').bind fun _ d => .ok w d)
      ∧ Moved (k + 33 * (4 * c.qs)) d d' ∧ d'.res = { d.res.synced true with mword := w, mchk := chk } := by
  simp only [samplesOfHalves_append, List.append_assoc] at h
  rw [← List.append_assoc] at h
  obtain ⟨d1, hsync, m1, -, r1⟩ := sync_wave hq true k v h
  have s1 := m1.sees_append h (lead_length _ _ _ _)
  let d2 := ((d1.consume (16 * (4 * c.qs))).setDp fun p => { p with acc := w.toNat, nbits := 16 }).setRes
    fun r => { r with mword := w }
  have m2 : Moved (16 * (4 * c.qs)) d1 d2 := ⟨rfl, rfl, rfl⟩
  have s2 := m2.sees_append s1 (samplesOfField_length _ w)
  let d3 := ((d2.consume (8 * (4 * c.qs))).setDp fun p => { p with acc := chk.toNat, nbits := 8 }).setRes
    fun r => { r with mchk := chk }
  have m3 : Moved (8 * (4 * c.qs)) d2 d3 := ⟨rfl, rfl, rfl⟩
  refine ⟨d3, ?_, ((m1.trans m2).trans m3).of_eq (by omega), by simp [d3, d2, r1]⟩
  rw [readMaster, hsync, Res.bind_ok, if_neg (by decide), readBits_wave hq w s1, Res.bind_ok]
  have hchk := readBits_wave hq chk s2
  rw [hchk, Res.bind_ok]

/-- An end symbol other than NL ends a frame read (R111, R193, R198). -/
theorem readEnd_misses {c : Ctx} (hq : 0 < c.qs) {x : Symbol} (hx : x ≠ .nl) {d : Data} {rest : List Level}
    (h : d.sees c = samplesOfHalves c.qs (halvesOfSymbol x) ++ rest) :
    readEnd c d = .raised .invalidEndDelimiter (d.consume (4 * c.qs)) := by
  rw [readEnd, decodeSymbol_wave hq h, Res.bind_ok, if_neg hx]

theorem samplesOfMasterFields_length (q k : Nat) (v : Level) (w : Half) (chk : Byte) :
    (List.replicate k v ++ samplesOfHalves q (halvesOfStart true ++ halvesOfField w ++ halvesOfField chk)).length
      = k + 33 * (4 * q) := by
  simp only [List.length_append, List.length_replicate, samplesOfHalves_length, halvesOfStart_length, halvesOfField_length]
  omega

/-- Settles O28: the role, the check byte and the end symbol are read in this order, and each ends ReadMaster when it is wrong. -/
theorem rdMasterErrors : Obligations.RdMasterErrors := by
  intro s arg k v w chk rest hidle hq
  have run {e : ErrorCode} {n : Nat} {d : Data} {r : Results}
      (hread : readMaster (s.ctxOf 0x4 arg) s.data.started = .raised e d) (hmoved : Moved n s.data.started d)
      (hres : d.res = r) :
      ∃ t, exec (.rdMaster arg) s = .next t ∧ EndedWith s t 0x4 arg e ∧ Consumed n s t ∧ t.data.res = r :=
    exec_reads_raised (i := .rdMaster arg) rfl (by decide) hidle hq
      (by rw [commandBody_rdMaster, hread, Res.bind_raised]) hmoved hres
  refine ⟨fun hlevels => ?role, fun hlevels hbad => ?check, fun x hx hlevels hgood => ?ending⟩
  case role =>
    obtain ⟨d, hread, hmoved, hres⟩ :=
      readMaster_wrong_role (c := s.ctxOf 0x4 arg) (d := s.data.started) hq k v hlevels
    exact run hread (hmoved.of_eq (by rw [ctxOf_qs]; omega)) hres
  case check =>
    obtain ⟨d, hread, hmoved, hres⟩ :=
      readMaster_to_check (c := s.ctxOf 0x4 arg) (d := s.data.started) hq k v w chk hlevels
    rw [ctxOf_checkValid, if_pos hbad] at hread
    exact run hread (hmoved.of_eq (by rw [ctxOf_qs]; omega)) hres
  case ending =>
    rw [samplesOfHalves_append, List.append_assoc, List.append_assoc, ← List.append_assoc] at hlevels
    obtain ⟨d, hread, hmoved, hres⟩ :=
      readMaster_to_check (c := s.ctxOf 0x4 arg) (d := s.data.started) hq k v w chk hlevels
    have hend := readEnd_misses (c := s.ctxOf 0x4 arg) hq hx
      (hmoved.sees_append hlevels (samplesOfMasterFields_length _ _ _ _ _))
    rw [ctxOf_checkValid, if_neg (by simp [hgood]), hend, Res.bind_raised] at hread
    exact run hread ((hmoved.trans (Moved.consume _ d)).of_eq (by rw [ctxOf_qs]; omega)) hres

end Sys2Proof.Machine

/-! PROOFS. RD_SLAVE and RD_TELEGRAM on a correctly timed line: they read a slave frame (R203) and a telegram (R207), and RD_SLAVE
ends with the error of the first thing wrong (R199). -/

namespace Sys2Proof.Machine

/-! ### The slave frame (R198 to R203) -/

/-- The result registers when the chunks `chs` of a slave frame of `n` words have been read (R198, R201). -/
def Results.stored (n : Nat) (chs : List (List Half × Byte)) (r : Results) : Results :=
  { r.synced false with
    count := BitVec.ofNat 5 (chs.flatMap (·.1)).length, expected := BitVec.ofNat 5 n, chunks := BitVec.ofNat 3 chs.length
    sword := storeAll 0 (chs.flatMap (·.1)) r.sword, schk := storeAll 0 (chs.map (·.2)) r.schk }

/-- What a register array holds once a list has been stored from its start on. -/
theorem storeAll_zero_getElem? {α : Type} {n : Nat} (xs : List α) (v : Vector α n) {j : Nat} (hj : j < n) :
    (storeAll 0 xs v)[j]? = if j < xs.length then xs[j]? else v[j]? := by
  rw [storeAll_getElem?]
  simp only [hj, Nat.zero_le, Nat.zero_add, Nat.sub_zero, true_and]

/-- In RX_SWORD and RX_SCHK the words and check bytes read stand in order, and what is beyond them keeps its value (R201). -/
theorem Results.stored_registers {n : Nat} {chs : List (List Half × Byte)} {r r' : Results} (h : r' = r.stored n chs) :
    r' = { r.synced false with
        count := BitVec.ofNat 5 (chs.flatMap (·.1)).length, expected := BitVec.ofNat 5 n
        chunks := BitVec.ofNat 3 chs.length, sword := r'.sword, schk := r'.schk }
      ∧ (∀ j < 16, r'.sword[j]? = if j < (chs.flatMap (·.1)).length then (chs.flatMap (·.1))[j]? else r.sword[j]?)
      ∧ ∀ j < 4, r'.schk[j]? = if j < chs.length then (chs.map (·.2))[j]? else r.schk[j]? := by
  subst h
  refine ⟨rfl, fun j hj => storeAll_zero_getElem? _ _ hj, fun j hj => ?_⟩
  rw [← List.length_map (·.2)]
  exact storeAll_zero_getElem? _ _ hj

theorem chunkWords_length (chs : List (List Half × Byte)) :
    (chs.flatMap (·.1)).length = (chs.map fun ch => ch.1.length).sum := List.length_flatMap

/-- The chunks of a whole frame of `n` words hold `n` words, and there are ⌈n/4⌉ of them (R221). -/
theorem chunks_of_sizes {n : Nat} {chs : List (List Half × Byte)} (h : (chs.map fun ch => ch.1.length) = chunkSizes n) :
    (chs.flatMap (·.1)).length = n ∧ chs.length = chunkCount n ∧ chunkPeriods chs = 16 * n + 8 * chunkCount n := by
  have hsum : (chs.map fun ch => ch.1.length).sum = n := by rw [h, chunkSizes_sum]
  have hcount : chs.length = chunkCount n := by rw [← chunkSizes_length, ← h, List.length_map]
  exact ⟨by rw [chunkWords_length, hsum], hcount, by rw [chunkPeriods, hsum, hcount]⟩

/-- Chunks whose lengths begin those of a frame of `n` words are not empty, and hold at most `n` words (R221). -/
theorem chunks_of_prefix {n : Nat} {chs : List (List Half × Byte)}
    (h : (chs.map fun ch => ch.1.length) <+: chunkSizes n) :
    (∀ ch ∈ chs, ch.1 ≠ []) ∧ (chs.map fun ch => ch.1.length).sum ≤ n := by
  constructor
  case left =>
    intro ch hch hnil
    have hmem : ch.1.length ∈ chunkSizes n := h.subset (List.mem_map_of_mem hch)
    have hpos := (chunkSizes_small hmem).1
    rw [hnil] at hpos
    exact absurd hpos (by decide)
  case right =>
    obtain ⟨ms, hms⟩ := h
    have hsum := chunkSizes_sum n
    rw [← hms, List.sum_append] at hsum
    omega

/-- RD_SLAVE's body reads the slave frame of the function code in CTRL.ARG (R200). -/
theorem commandBody_rdSlave (s : State) (arg : Nat) (d : Data) :
    commandBody 0x5 (s.ctxOf 0x5 arg) d = readSlave (s.ctxOf 0x5 arg) (BitVec.ofNat 4 arg) d := rfl

/-- `readSlave_wave` with the result registers as `Results.stored`. -/
theorem readSlave_stores {c : Ctx} (hq : 0 < c.qs) {fc : BitVec 4} {n : Nat} (hn : n = c.words fc) (hfit : n ≤ 16) (k : Nat)
    (v : Level) {chs : List (List Half × Byte)} (hsizes : (chs.map fun ch => ch.1.length) = chunkSizes n)
    (hc : ∀ ch ∈ chs, c.checkValid ch.1 ch.2 = true) {d : Data} {rest : List Level}
    (h : d.sees c = List.replicate k v ++ samplesOfHalves c.qs (halvesOfSlaveFrame chs) ++ rest) :
    ∃ d', readSlave c fc d = .ok () d' ∧ Moved (k + slaveFrameLength n * (4 * c.qs)) d d' ∧ d'.res = d.res.stored n chs := by
  subst hn
  obtain ⟨d', hread, hmoved, hres⟩ := readSlave_wave hq fc k v chs h hsizes hfit hc
  obtain ⟨hwords, hcount, -⟩ := chunks_of_sizes hsizes
  exact ⟨d', hread, hmoved, by rw [hres, Results.stored, hwords, hcount]⟩

/-- Settles O29: `readSlave_stores` for the body of RD_SLAVE. -/
theorem rdSlaveReadsASlaveFrame : Obligations.RdSlaveReadsASlaveFrame := by
  intro s arg k n v chs rest hidle hq hn hfit hsizes hvalid hlevels
  obtain ⟨d, hread, hmoved, hres⟩ := readSlave_stores (c := s.ctxOf 0x5 arg) (d := s.data.started) hq hn hfit k v hsizes
    hvalid hlevels
  obtain ⟨t, ht, hend, hcons, htres⟩ := exec_reads_ok (i := .rdSlave arg) rfl (by decide) hidle hq hread hmoved hres
  have hregisters := Results.stored_registers htres
  obtain ⟨hwords, hcount, -⟩ := chunks_of_sizes hsizes
  rw [hwords, hcount] at hregisters
  rw [hcount]
  exact ⟨t, ht, hend, hcons, hregisters⟩

/-- A master start delimiter ends ReadSlave, which has set RX_SCNT before (R198, R201). -/
theorem readSlave_wrong_role {c : Ctx} (hq : 0 < c.qs) (fc : BitVec 4) (k : Nat) (v : Level) {d : Data} {rest : List Level}
    (h : d.sees c = List.replicate k v ++ samplesOfHalves c.qs (halvesOfStart true) ++ rest) :
    ∃ d', readSlave c fc d = .raised .unexpectedRole d' ∧ Moved (k + 9 * (4 * c.qs)) d d'
      ∧ d'.res = { d.res.synced true with count := 0, expected := BitVec.ofNat 5 (c.words fc), chunks := 0 } := by
  obtain ⟨d', hsync, hmoved, -, hres⟩ := sync_wave (d := d.slaveBegin (c.words fc)) hq true k v h
  exact ⟨d', by rw [readSlave, hsync, Res.bind_ok, if_pos rfl], hmoved, hres⟩

/-- The chunks of a slave frame are read one part of them after the other. -/
theorem readChunks_append (c : Ctx) (ms ns : List Nat) (i k : Nat) (d : Data) :
    readChunks c (ms ++ ns) i k d
      = (readChunks c ms i k d).bind fun _ d => readChunks c ns (i + ms.sum) (k + ms.length) d := by
  induction ms generalizing i k d with
  | nil => rfl
  | cons m ms ih =>
    simp only [List.cons_append, readChunks, List.sum_cons, List.length_cons]
    cases readWords c m i (d.setDp fun p => { p with i := i, k := k, m := m }) with
    | raised e d => rfl
    | waiting w d => rfl
    | ok _ d =>
      simp only [Res.bind_ok]
      cases readBits c 8 d with
      | raised e d => rfl
      | waiting w d => rfl
      | ok chk d =>
        simp only [Res.bind_ok]
        split
        · rfl
        · rw [ih, Nat.add_assoc, Nat.add_assoc, Nat.add_comm 1]

/-- One chunk: its words and its check byte are stored, and CheckValid decides how ReadSlave goes on (R198, R222). -/
theorem readChunks_to_check {c : Ctx} (hq : 0 < c.qs) (ch : List Half × Byte) (ms : List Nat) (i k : Nat)
    (hne : ch.1 ≠ []) (hfit : i + ch.1.length ≤ 16) {d : Data} {rest : List Level}
    (h : d.sees c = samplesOfHalves c.qs (halvesOfChunk ch) ++ rest) :
    ∃ d', readChunks c (ch.1.length :: ms) i k d = (if c.checkValid ch.1 ch.2 = false
          then .raised .checkSequenceMismatch d' else readChunks c ms (i + ch.1.length) (k + 1) d')
      ∧ Moved ((16 * ch.1.length + 8) * (4 * c.qs)) d d'
      ∧ d'.res = { d.res with
          sword := storeAll i ch.1 d.res.sword, schk := storeAll k [ch.2] d.res.schk
          count := BitVec.ofNat 5 (i + ch.1.length), chunks := BitVec.ofNat 3 (k + 1) } := by
  rw [halvesOfChunk, samplesOfHalves_append, List.append_assoc] at h
  obtain ⟨d1, hwords, m1, r1⟩ := readWords_wave hq ch.1 i (d := d.setDp fun p => { p with i := i, k := k, m := ch.1.length }) h
  rw [if_neg hne] at r1
  have s1 := m1.sees_append h (samplesOfWords_length _ _)
  let d2 := (((d1.consume (8 * (4 * c.qs))).setDp fun p => { p with acc := ch.2.toNat, nbits := 8 }).setRes
    fun r => r.setSchk k ch.2).setRes fun r => { r with chunks := BitVec.ofNat 3 (k + 1) }
  have m2 : Moved (8 * (4 * c.qs)) d1 d2 := ⟨rfl, rfl, rfl⟩
  have hstored : d2.res.chunkWords i ch.1.length = ch.1 :=
    chunkWords_store (v := d.res.sword) _ i ch.1 hfit (by simp [d2, r1])
  refine ⟨d2, ?_, Moved.of_eq (m1.trans m2) (by ring), by simp [d2, r1, Results.setSchk, storeAll]⟩
  rw [readChunks, hwords, Res.bind_ok, readBits_wave hq ch.2 s1, Res.bind_ok]
  show (if c.checkValid (d2.res.chunkWords i ch.1.length) ch.2 = false then _ else _) = _
  rw [hstored]

/-- ReadSlave after a slave start delimiter and the accepted chunks `good`: what it has stored, and that it reads on (R198). -/
theorem readSlave_to_chunk {c : Ctx} (hq : 0 < c.qs) {fc : BitVec 4} (hfit : c.words fc ≤ 16) (k : Nat) (v : Level)
    {good : List (List Half × Byte)} {ms : List Nat}
    (hsizes : (good.map fun ch => ch.1.length) ++ ms = chunkSizes (c.words fc))
    (hvalid : ∀ ch ∈ good, c.checkValid ch.1 ch.2 = true) {d : Data} {rest : List Level}
    (h : d.sees c = List.replicate k v
      ++ samplesOfHalves c.qs (halvesOfStart false ++ good.flatMap halvesOfChunk) ++ rest) :
    ∃ d', readSlave c fc d = ((readChunks c ms (good.flatMap (·.1)).length good.length d').bind fun _ d => readEnd c d)
      ∧ Moved (k + (9 + chunkPeriods good) * (4 * c.qs)) d d' ∧ d'.sees c = rest
      ∧ d'.res = d.res.stored (c.words fc) good := by
  rw [samplesOfHalves_append, ← List.append_assoc, List.append_assoc] at h
  obtain ⟨d1, hsync, m1, -, r1⟩ := sync_wave (d := d.slaveBegin (c.words fc)) hq false k v h
  have s1 := m1.sees_append h (lead_length _ _ _ _)
  obtain ⟨hne, hsum⟩ := chunks_of_prefix ⟨ms, hsizes⟩
  obtain ⟨d2, hchunks, m2, r2⟩ := readChunks_wave hq good 0 0 s1 hne (by omega) hvalid
  have s2 := m2.sees_append s1 (by rw [samplesOfHalves_length, halvesOfChunks_length]; ring)
  refine ⟨d2, ?_, Moved.of_eq (m1.trans m2) (by ring), s2, ?_⟩
  · rw [readSlave, hsync, Res.bind_ok, if_neg (by decide), ← hsizes, readChunks_append, hchunks, Res.bind_ok, chunkWords_length,
      List.length_map, Nat.zero_add, Nat.zero_add]
  · rw [r2, r1, Results.stored, chunkWords_length]
    cases good with
    | nil => rfl
    | cons ch good => simp [Results.synced]

/-- One more chunk stored after those of `chs` (R201). -/
theorem Results.stored_concat (n : Nat) (chs : List (List Half × Byte)) (ch : List Half × Byte) (r : Results) :
    r.stored n (chs ++ [ch]) = { r.stored n chs with
      sword := storeAll (chs.flatMap (·.1)).length ch.1 (r.stored n chs).sword
      schk := storeAll chs.length [ch.2] (r.stored n chs).schk
      count := BitVec.ofNat 5 ((chs.flatMap (·.1)).length + ch.1.length), chunks := BitVec.ofNat 3 (chs.length + 1) } := by
  simp [Results.stored, storeAll_append]

/-- ReadSlave ends right after the first check byte CheckValid rejects, with the chunk stored (R198, R199, R222). -/
theorem readSlave_rejects {c : Ctx} (hq : 0 < c.qs) {fc : BitVec 4} (hfit : c.words fc ≤ 16) (k : Nat) (v : Level)
    {good : List (List Half × Byte)} {bad : List Half × Byte}
    (hsizes : ((good ++ [bad]).map fun ch => ch.1.length) <+: chunkSizes (c.words fc))
    (hvalid : ∀ ch ∈ good, c.checkValid ch.1 ch.2 = true) (hbad : c.checkValid bad.1 bad.2 = false) {d : Data}
    {rest : List Level} (h : d.sees c = List.replicate k v
      ++ samplesOfHalves c.qs (halvesOfStart false ++ (good ++ [bad]).flatMap halvesOfChunk) ++ rest) :
    ∃ d', readSlave c fc d = .raised .checkSequenceMismatch d'
      ∧ Moved (k + (9 + chunkPeriods (good ++ [bad])) * (4 * c.qs)) d d'
      ∧ d'.res = d.res.stored (c.words fc) (good ++ [bad]) := by
  obtain ⟨hne, hsum⟩ := chunks_of_prefix hsizes
  obtain ⟨ms, hms⟩ := hsizes
  rw [List.flatMap_append, ← List.append_assoc, samplesOfHalves_append, ← List.append_assoc, List.append_assoc] at h
  obtain ⟨d1, hread, m1, s1, r1⟩ := readSlave_to_chunk hq hfit k v (good := good) (ms := bad.1.length :: ms)
    (by rw [← hms]; simp) hvalid h
  have hroom : (good.flatMap (·.1)).length + bad.1.length ≤ 16 := by
    rw [chunkWords_length]
    simp only [List.map_append, List.map_cons, List.map_nil, List.sum_append, List.sum_cons, List.sum_nil] at hsum
    omega
  obtain ⟨d2, hchunk, m2, r2⟩ := readChunks_to_check hq bad ms _ good.length (hne bad (by simp)) hroom
    (s1.trans (by rw [List.flatMap_singleton]))
  rw [if_pos hbad] at hchunk
  refine ⟨d2, by rw [hread, hchunk, Res.bind_raised], Moved.of_eq (m1.trans m2) ?_, ?_⟩
  · simp only [chunkPeriods, List.map_append, List.map_cons, List.map_nil, List.sum_append, List.sum_cons, List.sum_nil,
      List.length_append, List.length_cons, List.length_nil]
    ring
  · rw [r2, r1, Results.stored_concat]

/-- ReadSlave ends with an end symbol other than NL, everything stored (R198, R199). -/
theorem readSlave_wrong_end {c : Ctx} (hq : 0 < c.qs) {fc : BitVec 4} (hfit : c.words fc ≤ 16) (k : Nat) (v : Level)
    {chs : List (List Half × Byte)} (hsizes : (chs.map fun ch => ch.1.length) = chunkSizes (c.words fc))
    (hvalid : ∀ ch ∈ chs, c.checkValid ch.1 ch.2 = true) {x : Symbol} (hx : x ≠ .nl) {d : Data} {rest : List Level}
    (h : d.sees c = List.replicate k v
      ++ samplesOfHalves c.qs (halvesOfStart false ++ chs.flatMap halvesOfChunk ++ halvesOfSymbol x) ++ rest) :
    ∃ d', readSlave c fc d = .raised .invalidEndDelimiter d' ∧ Moved (k + slaveFrameLength (c.words fc) * (4 * c.qs)) d d'
      ∧ d'.res = d.res.stored (c.words fc) chs := by
  rw [samplesOfHalves_append, ← List.append_assoc, List.append_assoc] at h
  obtain ⟨d1, hread, m1, s1, r1⟩ := readSlave_to_chunk hq hfit k v (ms := []) (by rw [List.append_nil, hsizes]) hvalid h
  obtain ⟨-, -, hperiods⟩ := chunks_of_sizes hsizes
  refine ⟨d1.consume (4 * c.qs), ?_, Moved.of_eq (m1.trans (Moved.consume _ d1)) ?_, r1⟩
  · rw [hread, readChunks, Res.bind_ok, readEnd_misses hq hx s1]
  · rw [hperiods, slaveFrameLength]
    ring

/-- Settles O30: the role, each check byte and the end symbol are read in this order, and each ends ReadSlave when it is wrong. -/
theorem rdSlaveErrors : Obligations.RdSlaveErrors := by
  intro s arg k n v good rest hidle hq hn hfit hvalid
  subst hn
  refine ⟨fun hlevels => ?role, fun bad hsizes hbad hlevels => ?check, fun x hx hsizes hlevels => ?ending⟩
  case role =>
    obtain ⟨d, hread, hmoved, hres⟩ :=
      readSlave_wrong_role (c := s.ctxOf 0x5 arg) (d := s.data.started) hq (BitVec.ofNat 4 arg) k v hlevels
    exact exec_reads_raised (i := .rdSlave arg) rfl (by decide) hidle hq hread
      (hmoved.of_eq (by rw [ctxOf_qs]; omega)) hres
  case check =>
    obtain ⟨d, hread, hmoved, hres⟩ := readSlave_rejects (c := s.ctxOf 0x5 arg) (d := s.data.started)
      (fc := BitVec.ofNat 4 arg) hq hfit k v (hsizes ▸ List.take_prefix _ _) hvalid hbad hlevels
    obtain ⟨t, ht, hend, hcons, htres⟩ := exec_reads_raised (i := .rdSlave arg) rfl (by decide) hidle hq hread hmoved hres
    have hregisters := Results.stored_registers htres
    have hcount : (good ++ [bad]).length = good.length + 1 := by simp
    rw [hcount] at hregisters
    refine ⟨t, ht, hend, ?_, hregisters⟩
    rw [List.length_append, halvesOfStart_length, halvesOfChunks_length]
    have hsamples : (18 + 2 * chunkPeriods (good ++ [bad])) * (2 * s.ctx.qs)
        = (9 + chunkPeriods (good ++ [bad])) * (4 * s.ctx.qs) := by ring
    rw [hsamples]
    exact hcons
  case ending =>
    obtain ⟨d, hread, hmoved, hres⟩ := readSlave_wrong_end (c := s.ctxOf 0x5 arg) (d := s.data.started)
      (fc := BitVec.ofNat 4 arg) hq hfit k v hsizes hvalid hx hlevels
    obtain ⟨t, ht, hend, hcons, htres⟩ := exec_reads_raised (i := .rdSlave arg) rfl (by decide) hidle hq hread hmoved hres
    have hregisters := Results.stored_registers htres
    obtain ⟨hwords, hcount, -⟩ := chunks_of_sizes hsizes
    rw [ctxOf_words, hwords, hcount] at hregisters
    rw [hcount]
    exact ⟨t, ht, hend, hcons, hregisters⟩

/-! ### The telegram (R204 to R208) -/

/-- RD_TELEGRAM's body after a good master frame (R204, R205). -/
theorem commandBody_rdTelegram {c : Ctx} {d d' : Data} {w : Half} (h : readMaster c d = .ok w d') :
    commandBody 0x6 c d = if c.readSkips (wordFcode w) then .ok () (d'.setRes fun r => { r with skipped := true })
      else readSlave c (wordFcode w) d' := by
  show (readMaster c d).bind _ = _
  rw [h, Res.bind_ok]

theorem readSkips_iff (c : Ctx) (fc : BitVec 4) :
    c.readSkips fc = true ↔ c.regs.cfg.slavePolicy = true ∧ (c.entry fc).size = 0 := by
  simp [Ctx.readSkips]

theorem samplesOfLeadAndMaster_length (q k : Nat) (v : Level) (w : Half) (chk : Byte) :
    (List.replicate k v ++ samplesOfHalves q (halvesOfMasterFrame w chk)).length = k + 34 * (4 * q) := by
  rw [List.length_append, List.length_replicate, samplesOfMasterFrame_length]
  omega

/-- RD_TELEGRAM's body on a telegram without slave frame (R205). -/
theorem bodyRdTelegram_wave_skips {c : Ctx} (hq : 0 < c.qs) (k : Nat) (v : Level) {w : Half} {chk : Byte}
    (hchk : c.checkValid [w] chk = true) (hskips : c.readSkips (wordFcode w) = true) {d : Data} {rest : List Level}
    (h : d.sees c = List.replicate k v ++ samplesOfHalves c.qs (halvesOfMasterFrame w chk) ++ rest) :
    ∃ d', commandBody 0x6 c d = .ok () d' ∧ Moved (k + 136 * c.qs) d d'
      ∧ d'.res = { d.res.synced true with mword := w, mchk := chk, skipped := true } := by
  obtain ⟨d1, hmaster, m1, r1⟩ := readMaster_wave hq k v w chk h hchk
  refine ⟨d1.setRes fun r => { r with skipped := true }, ?_, Moved.of_eq (d' := d1) m1 (by omega), ?_⟩
  · rw [commandBody_rdTelegram hmaster, if_pos hskips]
  · rw [Data.setRes_res, r1]

/-- RD_TELEGRAM's body on a master frame, a gap at one level and a slave frame (R204, R207). -/
theorem bodyRdTelegram_wave {c : Ctx} (hq : 0 < c.qs) (k g : Nat) (v u : Level) {w : Half} {chk : Byte}
    (hchk : c.checkValid [w] chk = true) (hreads : ¬c.readSkips (wordFcode w) = true) {n : Nat}
    (hn : n = c.words (wordFcode w)) (hfit : n ≤ 16) {chs : List (List Half × Byte)}
    (hsizes : (chs.map fun ch => ch.1.length) = chunkSizes n) (hvalid : ∀ ch ∈ chs, c.checkValid ch.1 ch.2 = true)
    {d : Data} {rest : List Level}
    (h : d.sees c = List.replicate k v ++ samplesOfHalves c.qs (halvesOfMasterFrame w chk) ++ List.replicate g u
      ++ samplesOfHalves c.qs (halvesOfSlaveFrame chs) ++ rest) :
    ∃ d', commandBody 0x6 c d = .ok () d' ∧ Moved (k + 136 * c.qs + g + slaveFrameLength n * (4 * c.qs)) d d'
      ∧ d'.res = ({ d.res with mword := w, mchk := chk } : Results).stored n chs := by
  rw [List.append_assoc, List.append_assoc] at h
  obtain ⟨d1, hmaster, m1, r1⟩ := readMaster_wave hq k v w chk h hchk
  have s1 := m1.sees_append h (samplesOfLeadAndMaster_length _ _ _ _ _)
  rw [← List.append_assoc] at s1
  obtain ⟨d2, hslave, m2, r2⟩ := readSlave_stores hq hn hfit g u hsizes hvalid s1
  refine ⟨d2, ?_, Moved.of_eq (m1.trans m2) (by ring), ?_⟩
  · rw [commandBody_rdTelegram hmaster, if_neg hreads, hslave]
  · rw [r2, r1]
    rfl

/-- Settles O31: the body of RD_TELEGRAM with and without a slave frame. -/
theorem rdTelegramReadsATelegram : Obligations.RdTelegramReadsATelegram := by
  intro s arg k g n v u w chk chs rest hidle hq hn hfit hchk
  refine ⟨fun hskips hlevels => ?skipped, fun hreads hsizes hvalid hlevels => ?read⟩
  case skipped =>
    obtain ⟨d, hbody, hmoved, hres⟩ := bodyRdTelegram_wave_skips (c := s.ctxOf 0x6 arg) (d := s.data.started) hq k v hchk
      ((readSkips_iff _ _).2 hskips) hlevels
    exact exec_reads_ok (i := .rdTelegram arg) rfl (by decide) hidle hq hbody hmoved hres
  case read =>
    obtain ⟨d, hbody, hmoved, hres⟩ := bodyRdTelegram_wave (c := s.ctxOf 0x6 arg) (d := s.data.started) hq k g v u hchk
      (mt (readSkips_iff _ _).1 hreads) hn hfit hsizes hvalid hlevels
    obtain ⟨t, ht, hend, hcons, htres⟩ := exec_reads_ok (i := .rdTelegram arg) rfl (by decide) hidle hq hbody hmoved hres
    have hregisters := Results.stored_registers htres
    obtain ⟨hwords, hcount, -⟩ := chunks_of_sizes hsizes
    rw [hwords, hcount] at hregisters
    rw [hcount]
    exact ⟨t, ht, hend, hcons, hregisters⟩

end Sys2Proof.Machine

/-! PROOFS. The round trip: RD_TELEGRAM reads back what ENC_TELEGRAM emits (R208). -/

namespace Sys2Proof.Machine

/-! ### What ENC_TELEGRAM emits (R243 to R245) -/

/-- The drawn gap goes out at CFG.IDLE_LEVEL (R243, R244). -/
theorem emitGap_sends (c : Ctx) {d : Data} (hsink : d.tx.limit = none) :
    ∃ g d', emitGap c d = .ok () d' ∧ d'.tx = (d.sent (List.replicate g c.regs.cfg.idleLevel)).tx ∧ d'.res = d.res := by
  let g := gapLength c.regs.gapMin.toNat c.regs.gapMax.toNat d.gapDraws
  let drawn : Data := { d with gapDraws := d.gapDraws + 1, dp := { d.dp with gap := g } }
  exact ⟨g, _, emit_sends g c.regs.cfg.idleLevel drawn hsink, rfl, rfl⟩

/-- ENC_TELEGRAM's body emits master frame and gap, and the slave frame or, if SLAVE_POLICY leaves it out, nothing more. -/
theorem bodyEncTelegram_sends (c : Ctx) {d : Data} (hsink : d.tx.limit = none) {fc : BitVec 4}
    (hfc : wordFcode c.regs.txMword = fc) :
    ∃ g d', commandBody 0xC c d = .ok () d'
      ∧ d'.tx.out = d.tx.out
          ++ (samplesOfHalves c.qs (halvesOfMasterFrame c.regs.txMword (c.checkGen [c.regs.txMword]))
            ++ List.replicate g c.regs.cfg.idleLevel
            ++ (if c.sendSkips fc then [] else samplesOfHalves c.qs (halvesOfSlaveFrame (c.checkedChunks (c.txWords (c.words fc))))))
      ∧ d'.res.skipped = (c.sendSkips fc || d.res.skipped) := by
  subst hfc
  have hmaster := encodeMaster_sends c c.regs.txMword d hsink
  obtain ⟨g, d2, hgap, htx, hres⟩ := emitGap_sends c (d := d.sent _) hsink
  have hbody : commandBody 0xC c d = if c.sendSkips (wordFcode c.regs.txMword)
      then .ok () (d2.setRes fun r => { r with skipped := true })
      else encodeSlave c (c.txWords (c.words (wordFcode c.regs.txMword))) d2 := by
    show (encodeMaster _ _ _).bind _ = _
    rw [hmaster, Res.bind_ok, hgap, Res.bind_ok]
  cases hskips : c.sendSkips (wordFcode c.regs.txMword) with
  | true =>
    rw [hskips, if_pos rfl] at hbody
    refine ⟨g, _, hbody, ?_, rfl⟩
    rw [Data.setRes_tx, htx, if_pos rfl]
    simp
  | false =>
    rw [hskips, if_neg (by decide), encodeSlave_sends c _ d2 (by rw [htx]; exact hsink)] at hbody
    refine ⟨g, _, hbody, ?_, ?_⟩
    · rw [Data.sent_out, htx, if_neg (by decide)]
      simp
    · rw [Data.sent_res, hres]
      rfl

/-! ### The chunks sent (R221, R224) -/

theorem checkedChunks_words (c : Ctx) (ws : List Half) : (c.checkedChunks ws).flatMap (·.1) = ws := by
  rw [Ctx.checkedChunks, List.flatMap_map, List.flatMap_id', chunksOf_flatten]

theorem checkedChunks_sizes (c : Ctx) (ws : List Half) :
    ((c.checkedChunks ws).map fun ch => ch.1.length) = chunkSizes ws.length := by
  rw [← chunksOf_lengths, Ctx.checkedChunks, List.map_map]
  rfl

theorem checkedChunks_check {c : Ctx} {ws : List Half} {ch : List Half × Byte} (h : ch ∈ c.checkedChunks ws) :
    ch.2 = c.checkGen ch.1 := by
  obtain ⟨x, -, rfl⟩ := List.mem_map.1 h
  rfl

/-- The words of a slave frame are the first registers of TX_SWORD, which holds 16 (R240). -/
theorem txWords_length (c : Ctx) {n : Nat} (h : n ≤ 16) : (c.txWords n).length = n := by simp [Ctx.txWords, h]

theorem txWords_getElem? (c : Ctx) {n j : Nat} (h : j < n) : (c.txWords n)[j]? = c.regs.txSword[j]? := by
  simp [Ctx.txWords, h]

/-! ### The round trip (R208) -/

/-- Under a table that satisfies R190 the encoder leaves out a slave frame exactly where the parser expects none (R205, R245). -/
theorem sendSkips_eq_readSkips {c : Ctx} (hfct : c.params.fctOk = true) (fc : BitVec 4) : c.sendSkips fc = c.readSkips fc := by
  obtain ⟨hsize, -, -⟩ := functionCodeTableInvariants.2 c fc hfct
  have hzero : c.words fc = 0 ↔ (c.entry fc).size = 0 := by
    rw [← BitVec.toNat_inj, ← hsize]
    simp
  simp only [Ctx.sendSkips, Ctx.readSkips, beq_eq_decide, hzero]

/-- What ENC_TELEGRAM adds to the output record, for some gap, and whether it sets SKIPPED (R243 to R245). -/
theorem exec_encTelegram_sends {s t : State} {a : Nat} {xs : List Level} (hidle : s.running = none) (hq : 0 < s.ctx.qs)
    (hgap : s.regs.gapMin.toNat ≤ s.regs.gapMax.toNat) (hsink : s.data.tx.limit = none)
    (ht : exec (.encTelegram a) s = .next t) (hout : t.data.tx.out = s.data.tx.out ++ xs) {fc : BitVec 4}
    (hfc : wordFcode s.regs.txMword = fc) :
    ∃ g, xs = samplesOfHalves s.ctx.qs (halvesOfMasterFrame s.regs.txMword (s.ctx.checkGen [s.regs.txMword]))
            ++ List.replicate g s.regs.cfg.idleLevel
            ++ (if s.ctx.sendSkips fc then []
              else samplesOfHalves s.ctx.qs (halvesOfSlaveFrame (s.ctx.checkedChunks (s.ctx.txWords (s.ctx.words fc)))))
      ∧ t.data.res.skipped = s.ctx.sendSkips fc := by
  obtain ⟨g, d, hbody, hxs, hskipped⟩ := bodyEncTelegram_sends (s.ctxOf 0xC a) (d := s.data.started) hsink hfc
  obtain ⟨t', ht', -, hdata⟩ := exec_ok (i := .encTelegram a) rfl hidle
    (startCheck_passes rfl hq (fun h => nomatch h) fun _ => hgap) hbody
  obtain rfl : t' = t := Host.Outcome.next.inj (ht'.symm.trans ht)
  exact ⟨g, List.append_cancel_left (hout.symm.trans ((congrArg (·.tx.out) hdata).trans hxs)),
    ((congrArg (·.res.skipped) hdata).trans hskipped).trans (Bool.or_false _)⟩

/-- Settles O33: ENC_TELEGRAM's samples are the telegram that `bodyRdTelegram_wave` reads, or, with the slave frame left out, the
master frame that `bodyRdTelegram_wave_skips` reads. -/
theorem telegramRoundTrip : Obligations.TelegramRoundTrip := by
  intro s t r a b k xs hidle hidle' hq hgap hsink hfct hcfg hparams hpair ht hout hlevels
  have hqs : (r.ctxOf 0x6 b).qs = s.ctx.qs := congrArg (·.qs.toNat) hcfg
  have hq' : 0 < (r.ctxOf 0x6 b).qs := hqs ▸ hq
  obtain ⟨g, hxs, hskipped⟩ := exec_encTelegram_sends hidle hq hgap hsink ht hout rfl
  have hskips : (r.ctxOf 0x6 b).readSkips (wordFcode s.regs.txMword) = t.data.res.skipped := by
    rw [hskipped, sendSkips_eq_readSkips hfct]
    simp only [Ctx.readSkips, Ctx.entry, State.ctxOf, State.ctx, hcfg, hparams]
  have hwords : s.ctx.words (wordFcode s.regs.txMword) = (r.ctxOf 0x6 b).words (wordFcode s.regs.txMword) := by
    simp only [Ctx.words, Ctx.entry, State.ctxOf, State.ctx, hparams]
  have hfit : s.ctx.words (wordFcode s.regs.txMword) ≤ 16 := Ctx.words_le hfct _
  rw [hxs, ← hskipped, ← List.append_assoc, ← List.append_assoc, ← hqs] at hlevels
  cases hskip : t.data.res.skipped with
  | true =>
    rw [hskip, if_pos rfl, List.append_nil] at hlevels
    obtain ⟨d, hbody, hmoved, hres⟩ := bodyRdTelegram_wave_skips (d := r.data.started) hq' k LOW (hpair _)
      (hskips.trans hskip) hlevels
    obtain ⟨u, hu, hend, -, hures⟩ := exec_reads_ok (i := .rdTelegram b) rfl (by decide) hidle' hq' hbody hmoved hres
    exact ⟨u, hu, hend, by rw [hures], by rw [hures], fun h => nomatch h⟩
  | false =>
    rw [hskip, if_neg (by decide)] at hlevels
    have hlength := txWords_length s.ctx hfit
    have hsizes := checkedChunks_sizes s.ctx (s.ctx.txWords (s.ctx.words (wordFcode s.regs.txMword)))
    rw [hlength] at hsizes
    obtain ⟨d, hbody, hmoved, hres⟩ := bodyRdTelegram_wave (d := r.data.started) (rest := []) hq' k g LOW _ (hpair _)
      (by rw [hskips, hskip]; decide) hwords hfit hsizes (fun ch hch => checkedChunks_check hch ▸ hpair ch.1)
      (hlevels.trans (List.append_nil _).symm)
    obtain ⟨u, hu, hend, hcons, hures⟩ := exec_reads_ok (i := .rdTelegram b) rfl (by decide) hidle' hq' hbody hmoved hres
    have hall : r.levels.length ≤ k + 136 * (r.ctxOf 0x6 b).qs + g
        + slaveFrameLength (s.ctx.words (wordFcode s.regs.txMword)) * (4 * (r.ctxOf 0x6 b).qs) := by
      rw [hlevels, List.length_append, samplesOfSlaveFrame_length, hlength, List.length_append, List.length_append,
        samplesOfMasterFrame_length, List.length_replicate, List.length_replicate]
    obtain ⟨-, hsword, -⟩ := Results.stored_registers hures
    rw [checkedChunks_words, hlength] at hsword
    refine ⟨u, hu, hend, by rw [hures]; rfl, by rw [hures]; rfl, fun _ => ⟨Moved.exhausts (c := r.ctx) hcons hall, ?_, fun j hj => ?_⟩⟩
    · rw [hures]
      show (BitVec.ofNat 5 _).toNat = _
      rw [checkedChunks_words, hlength, BitVec.toNat_ofNat]
      omega
    · rw [hsword j (by omega), if_pos hj, txWords_getElem? _ hj]
      rfl

end Sys2Proof.Machine

/-! PROOFS. Frame reads run side by side, on data that decoding cannot tell apart: the same read in another command (R204), and on a
stream that ends where the other goes on (R209). The next two parts use this. -/

namespace Sys2Proof.Machine

/-! ### Data that decoding cannot tell apart -/

/-- Related data hold the same samples, the second at the end of its stream if the first is, and stay related when both consume. -/
structure StreamLike (R : Data → Data → Prop) : Prop where
  ahead : ∀ {d d' : Data}, R d d' → d'.rx.ahead = d.rx.ahead
  ended : ∀ {d d' : Data}, R d d' → d.rx.ended = true → d'.rx.ended = true
  consume : ∀ {d d' : Data} (n : Nat), R d d' → R (d.consume n) (d'.consume n)

/-- Related data also hold the same result registers, and stay related when both are written in the same way. -/
structure Likeness (R : Data → Data → Prop) : Prop extends StreamLike R where
  res : ∀ {d d' : Data}, R d d' → d'.res = d.res
  setRes : ∀ {d d' : Data} (f : Results → Results), R d d' → R (d.setRes f) (d'.setRes f)
  setDp : ∀ {d d' : Data} (f : Datapath → Datapath), R d d' → R (d.setDp f) (d'.setDp f)

/-- Equal data. -/
theorem Likeness.eq : Likeness Eq where
  ahead h := h ▸ rfl
  ended h := h ▸ id
  consume _ h := h ▸ rfl
  res h := h ▸ rfl
  setRes _ h := h ▸ rfl
  setDp _ h := h ▸ rfl

/-- `d'` is `d` at the end of its stream. -/
def Closed (d d' : Data) : Prop := d' = d.endInput

theorem Likeness.closed : Likeness Closed where
  ahead h := h ▸ rfl
  ended h _ := h ▸ rfl
  consume _ h := h ▸ rfl
  res h := h ▸ rfl
  setRes _ h := h ▸ rfl
  setDp _ h := h ▸ rfl

/-- `d` and `d'` have the same streams, result registers and draws: what another command started now finds (R46, R140). -/
def SameCore (d d' : Data) : Prop := d'.rx = d.rx ∧ d'.tx = d.tx ∧ d'.res = d.res ∧ d'.gapDraws = d.gapDraws

theorem Likeness.sameCore : Likeness SameCore where
  ahead h := congrArg RxPort.ahead h.1
  ended h he := (congrArg RxPort.ended h.1).trans he
  consume n h := ⟨congrArg (RxPort.consume n) h.1, h.2⟩
  res h := h.2.2.1
  setRes f h := ⟨h.1, h.2.1, congrArg f h.2.2.1, h.2.2.2⟩
  setDp _ h := h

/-- Related data whose bit accumulators agree (R158). -/
def WithAcc (R : Data → Data → Prop) (d d' : Data) : Prop := R d d' ∧ d'.dp.acc = d.dp.acc

theorem StreamLike.withAcc {R : Data → Data → Prop} (hR : StreamLike R) : StreamLike (WithAcc R) where
  ahead h := hR.ahead h.1
  ended h := hR.ended h.1
  consume n h := ⟨hR.consume n h.1, h.2⟩

/-! ### Results that decoding cannot tell apart -/

/-- `r'` returns or raises what `r` does; where `r` waits, `r'` waits too, or its stream alone has ended and it has consumed every
sample and raised EndOfSignal (R71, R76). No error has code 0 (R260). -/
def Res.Alike {α : Type} (R : Data → Data → Prop) (r r' : Res α) : Prop :=
  match r with
  | .ok a d => ∃ d', r' = .ok a d' ∧ R d d'
  | .raised e d => e ≠ .none ∧ ∃ d', r' = .raised e d' ∧ R d d'
  | .waiting _ d => ∃ d', R d d' ∧ ((d'.rx.ended = false ∧ ∃ w, r' = .waiting w d')
      ∨ (d'.rx.ended ≠ d.rx.ended ∧ ∃ d'', r' = .raised .endOfSignal d'' ∧ d''.rx.ahead = []))

theorem Res.Alike.ok {α : Type} {R : Data → Data → Prop} (a : α) {d d' : Data} (h : R d d') :
    (Res.ok a d).Alike R (.ok a d') := ⟨d', rfl, h⟩

theorem Res.Alike.raised {α : Type} {R : Data → Data → Prop} {e : ErrorCode} (he : e ≠ .none) {d d' : Data} (h : R d d') :
    (Res.raised e d : Res α).Alike R (.raised e d') := ⟨he, d', rfl, h⟩

/-- Sequences are alike when their first parts are, and what follows a return is. -/
theorem Res.Alike.bind_of_ok {α β : Type} {R : Data → Data → Prop} {r r' : Res α} {f f' : α → Data → Res β}
    (hr : r.Alike R r') (hf : ∀ a d d', r = .ok a d → R d d' → (f a d).Alike R (f' a d')) :
    (r.bind f).Alike R (r'.bind f') := by
  cases r with
  | ok a d =>
    obtain ⟨d', rfl, h⟩ := hr
    exact hf a d d' rfl h
  | raised e d =>
    obtain ⟨he, d', rfl, h⟩ := hr
    exact .raised he h
  | waiting w d =>
    obtain ⟨d', h, ⟨hgoing, w', rfl⟩ | ⟨hended, d'', rfl, hnil⟩⟩ := hr
    · exact ⟨d', h, .inl ⟨hgoing, w', rfl⟩⟩
    · exact ⟨d', h, .inr ⟨hended, d'', rfl, hnil⟩⟩

theorem Res.Alike.bind {α β : Type} {R : Data → Data → Prop} {r r' : Res α} {f f' : α → Data → Res β} (hr : r.Alike R r')
    (hf : ∀ a d d', R d d' → (f a d).Alike R (f' a d')) : (r.bind f).Alike R (r'.bind f') :=
  hr.bind_of_ok fun a d d' _ h => hf a d d' h

theorem Res.Alike.mono {α : Type} {R S : Data → Data → Prop} {r r' : Res α} (hr : r.Alike R r')
    (hRS : ∀ {d d'}, R d d' → S d d') : r.Alike S r' := by
  cases r with
  | ok a d =>
    obtain ⟨d', hr', h⟩ := hr
    exact ⟨d', hr', hRS h⟩
  | raised e d =>
    obtain ⟨he, d', hr', h⟩ := hr
    exact ⟨he, d', hr', hRS h⟩
  | waiting w d =>
    obtain ⟨d', h, hr'⟩ := hr
    exact ⟨d', hRS h, hr'⟩

/-- A choice made alike on both sides. -/
theorem Res.Alike.ite {α : Type} {R : Data → Data → Prop} (p : Prop) [Decidable p] {r r' q q' : Res α} (hr : r.Alike R r')
    (hq : q.Alike R q') : (if p then r else q).Alike R (if p then r' else q') := by
  split
  · exact hr
  · exact hq

/-- Sync's write of Error on a raise touches no sample (R178). -/
theorem Res.Alike.onRaise {α : Type} {R : Data → Data → Prop} {r r' : Res α} (hr : r.Alike R r') {f : Data → Data}
    (hf : ∀ {d d'}, R d d' → R (f d) (f d')) (hrx : ∀ d, (f d).rx = d.rx) : (r.onRaise f).Alike R (r'.onRaise f) := by
  cases r with
  | ok a d =>
    obtain ⟨d', rfl, h⟩ := hr
    exact .ok a h
  | raised e d =>
    obtain ⟨he, d', rfl, h⟩ := hr
    exact .raised he (hf h)
  | waiting w d =>
    obtain ⟨d', h, ⟨hgoing, w', rfl⟩ | ⟨hended, d'', rfl, hnil⟩⟩ := hr
    · exact ⟨d', h, .inl ⟨hgoing, w', rfl⟩⟩
    · exact ⟨d', h, .inr ⟨hended, f d'', rfl, (congrArg RxPort.ahead (hrx d'')).trans hnil⟩⟩

/-- Running out of the same samples is alike, whether or not one of the streams has ended. -/
theorem RunsOut.alike {α : Type} {R : Data → Data → Prop} (hR : StreamLike R) {d d' : Data} (h : R d d') {r r' : Res α}
    (hr : RunsOut d r) (hr' : RunsOut d' r') : r.Alike R r' := by
  have hlen : d'.rx.ahead.length = d.rx.ahead.length := congrArg List.length (hR.ahead h)
  have hall : R (d.consume d.rx.ahead.length) (d'.consume d'.rx.ahead.length) := hlen ▸ hR.consume _ h
  rcases hr with ⟨hd, rfl⟩ | ⟨hd, w, rfl⟩
  · rcases hr' with ⟨-, rfl⟩ | ⟨hd', -⟩
    · exact .raised (by decide) hall
    · exact nomatch hd'.symm.trans (hR.ended h hd)
  · rcases hr' with ⟨hd', rfl⟩ | ⟨hd', w', rfl⟩
    · exact ⟨_, hall, .inr ⟨by simp [hd, hd'], _, rfl, by simp⟩⟩
    · exact ⟨_, hall, .inl ⟨hd', w', rfl⟩⟩

/-- The operands of another command: CTRL names it, everything else is the same (R91). -/
def Ctx.named (op arg : BitVec 4) (c : Ctx) : Ctx := { c with regs := { c.regs with op := op, arg := arg } }

/-! ### The stream primitives, symbols and bits -/

section Primitives

variable {R : Data → Data → Prop} (hR : StreamLike R) (c : Ctx) (op arg : BitVec 4) {d d' : Data} (h : R d d')

include hR h

theorem advance_alike (n : Nat) : (advance n d).Alike R (advance n d') := by
  have hlen : d'.rx.ahead.length = d.rx.ahead.length := congrArg List.length (hR.ahead h)
  rcases advance_spec n d with ⟨hn, e⟩ | ⟨hn, hout⟩
  · rw [e, advance_enough (hlen ▸ hn)]
    exact .ok () (hR.consume n h)
  · rcases advance_spec n d' with ⟨hn', -⟩ | ⟨-, hout'⟩
    · omega
    · exact hout.alike hR h hout'

theorem level_alike : (level c d).Alike R (level (c.named op arg) d') := by
  rcases level_spec c d with ⟨raw, hraw, e⟩ | ⟨hnil, hout⟩
  · rw [← hR.ahead h] at hraw
    rw [e, level_present (c.named op arg) hraw]
    exact .ok _ h
  · rcases level_spec (c.named op arg) d' with ⟨raw, hraw, -⟩ | ⟨-, hout'⟩
    · rw [hR.ahead h, List.eq_nil_of_length_eq_zero hnil] at hraw
      exact nomatch hraw
    · exact hout.alike hR h hout'

omit hR h in
theorem samplesBefore_named (v : Level) (xs : List Level) :
    samplesBefore (c.named op arg) v xs = samplesBefore c v xs := by
  induction xs with
  | nil => rfl
  | cons x xs ih =>
    rw [samplesBefore, samplesBefore, ih]
    rfl

theorem advanceUntil_alike (v : Level) : (advanceUntil c v d).Alike R (advanceUntil (c.named op arg) v d') := by
  have hlen : d'.rx.ahead.length = d.rx.ahead.length := congrArg List.length (hR.ahead h)
  have hspec := advanceUntil_spec (c.named op arg) v d'
  rw [samplesBefore_named, hR.ahead h] at hspec
  rcases advanceUntil_spec c v d with ⟨hlt, e⟩ | ⟨heq, hout⟩
  · rcases hspec with ⟨-, e'⟩ | ⟨heq', -⟩
    · rw [e, e']
      exact .ok () (hR.consume _ h)
    · omega
  · rcases hspec with ⟨hlt', -⟩ | ⟨-, hout'⟩
    · omega
    · exact hout.alike hR h hout'

theorem decodeSymbol_alike : (decodeSymbol c d).Alike R (decodeSymbol (c.named op arg) d') :=
  (advance_alike hR h _).bind fun _ _ _ h => (level_alike hR c op arg h).bind fun _ _ _ h =>
    (advance_alike hR h _).bind fun _ _ _ h => (level_alike hR c op arg h).bind fun _ _ _ h =>
      (advance_alike hR h _).bind fun _ _ _ h => .ok _ h

theorem decodeBit_alike : (decodeBit c d).Alike R (decodeBit (c.named op arg) d') :=
  (advance_alike hR h _).bind fun _ _ _ h => (level_alike hR c op arg h).bind fun _ _ _ h =>
    (advanceUntil_alike hR c op arg h _).bind fun _ _ _ h => (advance_alike hR h _).bind fun _ _ _ h => .ok _ h

theorem readElement_alike (e : Element) : (readElement c e d).Alike R (readElement (c.named op arg) e d') := by
  cases e with
  | sym x => exact (decodeSymbol_alike hR c op arg h).bind fun _ _ _ h => .ok _ h
  | bit b => exact (decodeBit_alike hR c op arg h).bind fun _ _ _ h => .ok _ h

theorem readEnd_alike : (readEnd c d).Alike R (readEnd (c.named op arg) d') := by
  exact (decodeSymbol_alike hR c op arg h).bind fun x _ _ h => .ite (x = .nl) (.ok () h) (.raised (by decide) h)

end Primitives

/-! ### Fields, the synchronizer and frames -/

section Frames

variable {R : Data → Data → Prop} (hR : Likeness R) (c : Ctx) (op arg : BitVec 4) {d d' : Data}

include hR

theorem readBitsLoop_alike (n k : Nat) (h : WithAcc R d d') :
    (readBitsLoop c n k d).Alike (WithAcc R) (readBitsLoop (c.named op arg) n k d') := by
  induction k generalizing d d' with
  | zero => exact .ok () h
  | succ k ih =>
    refine (decodeBit_alike hR.withAcc c op arg h).bind fun b _ _ h => ih ?_
    obtain ⟨h, hacc⟩ := h
    exact ⟨hR.setDp _ h, congrArg (accBit n · b) hacc⟩

/-- The accumulator begins with 0, so what it held before does not matter (R158). -/
theorem readBits_alike (n : Nat) (h : R d d') : (readBits c n d).Alike R (readBits (c.named op arg) n d') := by
  have hbegin : WithAcc R (d.setDp fun p => { p with acc := 0, nbits := 0 }) (d'.setDp fun p => { p with acc := 0, nbits := 0 }) :=
    ⟨hR.setDp _ h, rfl⟩
  refine Res.Alike.mono (R := WithAcc R) ?_ And.left
  refine (readBitsLoop_alike hR c op arg n n hbegin).bind fun _ _ _ h => ?_
  rw [h.2]
  exact .ok _ h

theorem matchElements_alike (es : List Element) (j : Nat) (h : R d d') :
    (matchElements c es j d).Alike R (matchElements (c.named op arg) es j d') := by
  induction es generalizing j d d' with
  | nil => exact .ok () h
  | cons e es ih =>
    refine (readElement_alike hR.toStreamLike c op arg h e).bind fun good _ _ h => ?_
    cases good with
    | false => exact .raised (by decide) h
    | true => exact ih (j + 1) (hR.setRes _ h)

theorem syncDelimiter_alike (h : R d d') : (syncDelimiter c d).Alike R (syncDelimiter (c.named op arg) d') := by
  refine (decodeSymbol_alike hR.toStreamLike c op arg h).bind fun x _ _ h => ?_
  cases kindOfFirst x with
  | none => exact .raised (by decide) h
  | some kind =>
    exact (matchElements_alike hR c op arg _ 2 (hR.setRes _ (hR.setRes _ h))).bind fun _ _ _ h =>
      .ok kind (hR.setRes _ (hR.setRes _ (hR.setRes _ h)))

theorem sync_alike (h : R d d') : (sync c d).Alike R (sync (c.named op arg) d') := by
  have hS := hR.toStreamLike
  refine Res.Alike.onRaise ?_ (fun h => hR.setRes _ h) fun _ => rfl
  exact (advanceUntil_alike hS c op arg (hR.setRes _ h) HIGH).bind fun _ _ _ h =>
    (advanceUntil_alike hS c op arg (hR.setRes _ h) LOW).bind fun _ _ _ h =>
      (advance_alike hS (hR.setRes _ h) (2 * c.qs)).bind fun _ _ _ h =>
        syncDelimiter_alike hR c op arg (hR.setRes _ h)

theorem readMaster_alike (h : R d d') : (readMaster c d).Alike R (readMaster (c.named op arg) d') := by
  refine (sync_alike hR c op arg h).bind fun kind _ _ h => .ite (kind = false) (.raised (by decide) h) ?_
  refine (readBits_alike hR c op arg 16 h).bind fun w _ _ h => ?_
  refine (readBits_alike hR c op arg 8 (hR.setRes _ h)).bind fun chk _ _ h => ?_
  exact .ite (c.checkValid [w] chk = false) (.raised (by decide) (hR.setRes _ h))
    ((readEnd_alike hR.toStreamLike c op arg (hR.setRes _ h)).bind fun _ _ _ h => .ok w h)

theorem readWords_alike (m i : Nat) (h : R d d') : (readWords c m i d).Alike R (readWords (c.named op arg) m i d') := by
  induction m generalizing i d d' with
  | zero => exact .ok () h
  | succ m ih =>
    exact (readBits_alike hR c op arg 16 h).bind fun _ _ _ h => ih (i + 1) (hR.setRes _ (hR.setRes _ h))

theorem readChunks_alike (ms : List Nat) (i k : Nat) (h : R d d') :
    (readChunks c ms i k d).Alike R (readChunks (c.named op arg) ms i k d') := by
  induction ms generalizing i k d d' with
  | nil => exact .ok () h
  | cons m ms ih =>
    refine (readWords_alike hR c op arg m i (hR.setDp _ h)).bind fun _ _ _ h => ?_
    refine (readBits_alike hR c op arg 8 h).bind fun chk d d' h => ?_
    have hstored := hR.setRes (fun r => { r with chunks := BitVec.ofNat 3 (k + 1) }) (hR.setRes (fun r => r.setSchk k chk) h)
    dsimp only
    rw [hR.res hstored]
    exact .ite (c.checkValid _ chk = false) (.raised (by decide) hstored) (ih (i + m) (k + 1) hstored)

theorem readSlave_alike (fc : BitVec 4) (h : R d d') : (readSlave c fc d).Alike R (readSlave (c.named op arg) fc d') := by
  refine (sync_alike hR c op arg (hR.setRes _ h)).bind fun kind _ _ h => .ite (kind = true) (.raised (by decide) h) ?_
  exact (readChunks_alike hR c op arg _ 0 0 h).bind fun _ _ _ h => readEnd_alike hR.toStreamLike c op arg h

end Frames

end Sys2Proof.Machine

/-! PROOFS. RD_TELEGRAM reads its master frame as RD_MASTER does and its slave frame as RD_SLAVE does (R204). -/

namespace Sys2Proof.Machine

/-! ### RD_TELEGRAM reads its master frame as RD_MASTER does (R204, R266(e)) -/

/-- A command that fails a start check leaves the data as START wrote it (R142, R144). -/
theorem exec_fails_data {i : Instr} {op : BitVec 4} {arg : Nat} {s t : State} {e : ErrorCode}
    (hi : commandParts i = some (op, arg)) (hidle : s.running = none) (hc : startCheck (s.ctxOf op arg).regs = some e)
    (ht : exec i s = .next t) : EndedWith s t op arg e ∧ t.data = { s.data.started with dp := Datapath.idle, seen := [] } := by
  rw [exec_command hi, startCommand_fails hidle hc] at ht
  cases ht
  obtain ⟨hend, -, hdata⟩ := endCommand_spec (s := s) op arg e s.data.started
  exact ⟨hend, hdata⟩

/-- With QS = 0 neither RD_MASTER nor RD_TELEGRAM starts (R145). -/
theorem startCheck_noPeriod {s : State} (hqs : s.ctx.qs = 0) {op : BitVec 4} (hlegal : illegalOp op = false) (hnop : op ≠ 0x0)
    (arg : Nat) : startCheck (s.ctxOf op arg).regs = some .illegalConfig :=
  startCheck_illegalConfig hlegal hnop (.inl (BitVec.eq_of_toNat_eq hqs))

/-- ReadMaster comes to the same in RD_MASTER and in RD_TELEGRAM: CTRL is not its operand (R196, R204). -/
theorem readMaster_sameCommand (s : State) (a b : Nat) :
    (readMaster (s.ctxOf 0x4 a) s.data.started).Alike Eq (readMaster (s.ctxOf 0x6 b) s.data.started) :=
  readMaster_alike .eq (s.ctxOf 0x4 a) 0x6 (BitVec.ofNat 4 b) rfl

theorem EndedWith.running {s t : State} {op : BitVec 4} {arg : Nat} {e : ErrorCode} (h : EndedWith s t op arg e) :
    t.running = none := State.running_none_of_idle h.2.1

theorem EndedWith.err {s t : State} {op : BitVec 4} {arg : Nat} {e : ErrorCode} (h : EndedWith s t op arg e) : t.err = e :=
  h.2.2.2.1

/-- Two commands whose bodies run alike, on streams that have both ended or both go on, end or wait alike. -/
theorem exec_alike {i j : Instr} {op op' : BitVec 4} {arg arg' : Nat} {s s' t : State} {R : Data → Data → Prop}
    (hR : ∀ {d d'}, R d d' → d'.rx.ended = d.rx.ended) (hi : commandParts i = some (op, arg))
    (hj : commandParts j = some (op', arg')) (hidle : s.running = none) (hidle' : s'.running = none)
    (hc : startCheck (s.ctxOf op arg).regs = none) (hc' : startCheck (s'.ctxOf op' arg').regs = none)
    (halike : (commandBody op (s.ctxOf op arg) s.data.started).Alike R
      (commandBody op' (s'.ctxOf op' arg') s'.data.started)) (ht : exec i s = .next t) :
    ∃ t', exec j s' = .next t' ∧ (t.running = none → EndedWith s' t' op' arg' t.err)
      ∧ (t.running.isSome = true → WaitsWith s' t' op' arg')
      ∧ ∃ d d', R d d' ∧ ((t.data = d ∧ t'.data = d')
        ∨ (t.data = { d with dp := Datapath.idle, seen := [] } ∧ t'.data = { d' with dp := Datapath.idle, seen := [] })) := by
  have same {t₁ : State} (h : exec i s = .next t₁) : t₁ = t := Host.Outcome.next.inj (h.symm.trans ht)
  rcases exec_runs hi hidle hc with ⟨_, d, t₁, hbody, h₁, hend, hrun, hdata⟩ | ⟨e, d, t₁, hbody, h₁, hend, hrun, hdata⟩
    | ⟨w, d, t₁, hbody, h₁, -, hrun, hdata⟩ <;> obtain rfl := same h₁ <;> rw [hbody] at halike
  case inl =>
    obtain ⟨d', hbody', h⟩ := halike
    obtain ⟨t', ht', hend', hdata'⟩ := exec_ok hj hidle' hc' hbody'
    exact ⟨t', ht', fun _ => hend.err ▸ hend', fun hw => by simp [hrun] at hw, d, d', h, .inr ⟨hdata, hdata'⟩⟩
  case inr.inl =>
    obtain ⟨-, d', hbody', h⟩ := halike
    obtain ⟨t', ht', hend', hdata'⟩ := exec_raised hj hidle' hc' hbody'
    exact ⟨t', ht', fun _ => hend.err ▸ hend', fun hw => by simp [hrun] at hw, d, d', h, .inr ⟨hdata, hdata'⟩⟩
  case inr.inr =>
    obtain ⟨d', h, ⟨-, w', hbody'⟩ | ⟨hended, -⟩⟩ := halike
    · obtain ⟨t', ht', hwaits, -, hdata'⟩ := exec_waiting hj hidle' hc' hbody'
      exact ⟨t', ht', fun hnone => by simp [hrun] at hnone, fun _ => hwaits, d, d', h, .inl ⟨hdata, hdata'⟩⟩
    · exact absurd (hR h) hended

/-- Settles O32: where ReadMaster does not return, the bodies of RD_MASTER and RD_TELEGRAM come to the same (`exec_alike`); and with
QS = 0 neither starts. -/
theorem rdTelegramStopsOnAMasterError : Obligations.RdTelegramStopsOnAMasterError := by
  intro s m a b hidle hm
  rcases Nat.eq_zero_or_pos s.ctx.qs with hqs | hq
  case inl =>
    obtain ⟨hmend, hmdata⟩ := exec_fails_data (i := .rdMaster a) rfl hidle
      (startCheck_noPeriod hqs (by decide) (by decide) a) hm
    have hc := startCheck_noPeriod hqs (op := 0x6) (by decide) (by decide) b
    obtain ⟨t, ht⟩ := exec_next (.rdTelegram b) s
    obtain ⟨hend, hdata⟩ := exec_fails_data rfl hidle hc ht
    exact ⟨fun _ _ => ⟨t, ht, hmend.err.symm ▸ hend, hdata.trans hmdata.symm⟩, fun hw => by simp [hmend.running] at hw⟩
  have hcm := startCheck_decode (s := s) (op := 0x4) (by decide) hq a
  have hct := startCheck_decode (s := s) (op := 0x6) (by decide) hq b
  by_cases hgood : ∃ w d, readMaster (s.ctxOf 0x4 a) s.data.started = .ok w d
  case pos =>
    obtain ⟨w, d, hread⟩ := hgood
    obtain ⟨m', hm', hmend, -⟩ := exec_ok (i := .rdMaster a) rfl hidle hcm
      ((commandBody_rdMaster _ _).trans (congrArg (Res.bind · _) hread))
    obtain rfl : m' = m := Host.Outcome.next.inj (hm'.symm.trans hm)
    exact ⟨fun _ herr => absurd hmend.err herr, fun hw => by simp [hmend.running] at hw⟩
  case neg =>
    have hbodies : (commandBody 0x4 (s.ctxOf 0x4 a) s.data.started).Alike Eq
        (commandBody 0x6 (s.ctxOf 0x6 b) s.data.started) :=
      (readMaster_sameCommand s a b).bind_of_ok fun w d _ h _ => absurd ⟨w, d, h⟩ hgood
    obtain ⟨t, ht, hend, hwaits, d, d', rfl, hdata⟩ := exec_alike (i := .rdMaster a) (j := .rdTelegram b)
      (R := Eq) (fun h => h ▸ rfl) rfl rfl hidle hidle hcm hct hbodies hm
    have hsame : t.data = m.data := by
      rcases hdata with ⟨h, h'⟩ | ⟨h, h'⟩ <;> rw [h, h']
    exact ⟨fun hended _ => ⟨t, ht, hend hended, hsame⟩, fun hw => ⟨t, ht, hwaits hw, hsame⟩⟩

/-! ### RD_TELEGRAM reads its slave frame as RD_SLAVE does (R204) -/

/-- An RD_MASTER that ends without error has read its master frame: no error has code 0 (R260). -/
theorem exec_rdMaster_good {s m : State} {a : Nat} (hidle : s.running = none) (hm : exec (.rdMaster a) s = .next m)
    (hmrun : m.running = none) (hmerr : m.err = .none) :
    ∃ w d, 0 < s.ctx.qs ∧ readMaster (s.ctxOf 0x4 a) s.data.started = .ok w d ∧ EndedWith s m 0x4 a .none
      ∧ m.data = { d with dp := Datapath.idle, seen := [] } := by
  have same {m' : State} (hm' : exec (.rdMaster a) s = .next m') : m' = m := Host.Outcome.next.inj (hm'.symm.trans hm)
  rcases Nat.eq_zero_or_pos s.ctx.qs with hqs | hq
  case inl =>
    obtain ⟨hmend, -⟩ := exec_fails_data (i := .rdMaster a) rfl hidle
      (startCheck_noPeriod hqs (by decide) (by decide) a) hm
    exact nomatch hmend.err.symm.trans hmerr
  have halike := readMaster_sameCommand s a 0
  have hc := startCheck_decode (s := s) (op := 0x4) (by decide) hq a
  have hmaster := commandBody_rdMaster (s.ctxOf 0x4 a) s.data.started
  cases hread : readMaster (s.ctxOf 0x4 a) s.data.started with
  | ok w d =>
    rw [hread, Res.bind_ok] at hmaster
    obtain ⟨m', hm', hmend, hmdata⟩ := exec_ok (i := .rdMaster a) rfl hidle hc hmaster
    obtain rfl := same hm'
    exact ⟨w, d, hq, rfl, hmend, hmdata⟩
  | raised e d =>
    rw [hread] at halike hmaster
    obtain ⟨m', hm', hmend, -⟩ := exec_raised (i := .rdMaster a) rfl hidle hc hmaster
    obtain rfl := same hm'
    exact absurd (hmend.err.symm.trans hmerr) halike.1
  | waiting w d =>
    rw [hread] at hmaster
    obtain ⟨m', hm', -, hrun, -⟩ := exec_waiting (i := .rdMaster a) rfl hidle hc hmaster
    obtain rfl := same hm'
    exact nomatch hrun.symm.trans hmrun

/-- The word ReadMaster returns stands in RX_MWORD (R193, R197). -/
theorem readMaster_mword (c : Ctx) (d : Data) : (readMaster c d).Ensures (fun w r => r.mword = w) fun _ => True := by
  have sync_any : (sync c d).Ensures (fun _ _ => True) fun _ => True := by
    cases sync c d <;> trivial
  refine sync_any.bind fun kind d _ => ?_
  split
  · trivial
  refine ((readBits_sameResults c 16 d).ensures (I := fun _ => True) trivial).bind fun w d _ => ?_
  have hword : (readBits c 8 (d.setRes fun r => { r with mword := w })).Ensures (fun _ r => r.mword = w) fun _ => True :=
    ((readBits_sameResults c 8 (d.setRes fun r => { r with mword := w })).ensures (I := fun r => r.mword = w) rfl).mono
      (fun _ _ h => h) fun _ _ => trivial
  refine hword.bind fun chk d h => ?_
  dsimp only
  split
  · trivial
  · refine Res.Ensures.bind (Q := fun _ r => r.mword = w) ?_ fun _ _ h => h
    exact ((readEnd_sameResults c (d.setRes fun r => { r with mchk := chk })).ensures (I := fun r => r.mword = w) h).mono
      (fun _ _ h => h) fun _ _ => trivial

/-- ReadMaster leaves SKIPPED alone (R197). -/
theorem readMaster_skipped (c : Ctx) (d : Data) : (readMaster c d).left.res.skipped = d.res.skipped :=
  congrArg (·.res.skipped) (readMaster_agree c d)

/-- RD_SLAVE leaves RX_MWORD alone (R201). -/
theorem exec_rdSlave_mword {m u : State} {arg : Nat} (hidle : m.running = none) (hu : exec (.rdSlave arg) m = .next u) :
    u.data.res.mword = m.data.res.mword ∧ u.data.res.mchk = m.data.res.mchk := by
  obtain ⟨-, -, d, hd, -, -, hres⟩ := exec_command_leaves (i := .rdSlave arg) rfl hidle hu
  rw [hres]
  rcases hd with rfl | rfl
  · exact ⟨rfl, rfl⟩
  · have hagree := readSlave_agree (m.ctxOf 0x5 arg) (BitVec.ofNat 4 arg) m.data.started
    exact ⟨congrArg (·.res.mword) hagree, congrArg (·.res.mchk) hagree⟩

/-- Settles O59: RD_TELEGRAM goes on with ReadSlave from where ReadMaster returned, and what RD_MASTER's end and RD_SLAVE's START
change in between ReadSlave cannot tell (`SameCore`). -/
theorem rdTelegramReadsTheSlaveFrameAsRdSlave : Obligations.RdTelegramReadsTheSlaveFrameAsRdSlave := by
  intro s m u a b hidle hm hmrun hmerr hreads hu
  obtain ⟨w, d, hq, hread, ⟨hregs, -, -, -, -, -, hparams, -⟩, hmdata⟩ := exec_rdMaster_good hidle hm hmrun hmerr
  have hmword := readMaster_mword (s.ctxOf 0x4 a) s.data.started
  have hskipped := readMaster_skipped (s.ctxOf 0x4 a) s.data.started
  rw [hread] at hmword hskipped
  have hword : m.data.res.mword = w := hmdata ▸ hmword
  obtain ⟨fc, hfc⟩ : ∃ fc, wordFcode w = fc := ⟨_, rfl⟩
  rw [hword, hfc] at hreads hu
  have htelegram : commandBody 0x6 (s.ctxOf 0x6 b) s.data.started = readSlave (s.ctxOf 0x6 b) fc d := by
    have halike := readMaster_sameCommand s a b
    rw [hread] at halike
    obtain ⟨d', hread', rfl⟩ := halike
    rw [commandBody_rdTelegram hread', hfc, if_neg (mt (readSkips_iff _ _).1 hreads)]
  have hslave : commandBody 0x5 (m.ctxOf 0x5 fc.toNat) m.data.started
      = readSlave (m.ctxOf 0x5 fc.toNat) fc m.data.started := by
    rw [commandBody_rdSlave, BitVec.ofNat_toNat, BitVec.setWidth_eq]
  have hctx : s.ctxOf 0x6 b = (m.ctxOf 0x5 fc.toNat).named 0x6 (BitVec.ofNat 4 b) := by
    rw [State.ctxOf, State.ctxOf, hregs, hparams]
    rfl
  have hcore : SameCore m.data.started d := by
    have hres : d.res.started = d.res := congrArg (fun x => { d.res with skipped := x }) hskipped.symm
    rw [hmdata]
    exact ⟨rfl, rfl, hres.symm, rfl⟩
  have hbodies : (commandBody 0x5 (m.ctxOf 0x5 fc.toNat) m.data.started).Alike SameCore
      (commandBody 0x6 (s.ctxOf 0x6 b) s.data.started) := by
    rw [hslave, htelegram, hctx]
    exact readSlave_alike .sameCore _ _ _ fc hcore
  have hqm : m.ctx.qs = s.ctx.qs := by rw [State.ctx, hregs]; rfl
  obtain ⟨t, ht, hend, hwaits, e, e', ⟨hrx, htx, hres, hdraws⟩, hdata⟩ := exec_alike (i := .rdSlave fc.toNat)
    (j := .rdTelegram b) (fun h => congrArg RxPort.ended h.1) rfl rfl hmrun hidle
    (startCheck_decode (by decide) (hqm ▸ hq) _) (startCheck_decode (by decide) hq b) hbodies hu
  have hsame : SameCore u.data t.data := by
    rcases hdata with ⟨h, h'⟩ | ⟨h, h'⟩ <;> rw [h, h'] <;> exact ⟨hrx, htx, hres, hdraws⟩
  obtain ⟨hrx, htx, hres, hdraws⟩ := hsame
  obtain ⟨hmw, hmc⟩ := exec_rdSlave_mword hmrun hu
  exact ⟨t, ht, hend, hwaits, hrx, htx, hres, hdraws, hres ▸ hmw, hres ▸ hmc⟩

end Sys2Proof.Machine

/-! PROOFS. A correctly timed frame that is cut short ends its read with EndOfSignal (R209). -/

namespace Sys2Proof.Machine

/-! ### A proper beginning of what would be read whole -/

/-- What reads a whole frame to its last sample raises EndOfSignal on any proper beginning of it with the end of the stream, and
leaves no sample: on the beginning alone it can only wait, for what it had returned or raised would stand when the rest came. -/
theorem Causal.cut {α : Type} {f : Data → Res α} (hcausal : Causal f)
    (halike : ∀ {d d'}, Closed d d' → (f d).Alike Closed (f d')) {d : Data} (hopen : d.rx.ended = false) {more : List Level}
    (hmore : more ≠ []) {a : α} {d' : Data} (hwhole : f (d.present more) = .ok a d') (hall : d'.rx.ahead = []) :
    ∃ d'', f d.endInput = .raised .endOfSignal d'' ∧ d''.rx.ahead = [] := by
  obtain ⟨hok, hraised⟩ := hcausal d more hopen
  have hend := halike (show Closed d d.endInput from rfl)
  cases hf : f d with
  | ok b e =>
    obtain ⟨hpresent, -⟩ := hok b e hf
    obtain ⟨-, rfl⟩ : b = a ∧ e.present more = d' := by simpa [hwhole, eq_comm] using hpresent
    exact absurd (List.append_eq_nil_iff.1 hall).2 hmore
  | raised er e => exact nomatch (hraised er e hf).symm.trans hwhole
  | waiting w e =>
    rw [hf] at hend
    obtain ⟨e', rfl, ⟨hgoing, -⟩ | ⟨-, hcut⟩⟩ := hend
    · exact nomatch hgoing
    · exact hcut

/-- RX_INVERT applied twice is not applied (R72). -/
theorem map_levelOf_levelOf (c : Ctx) (xs : List Level) : (xs.map c.levelOf).map c.levelOf = xs := by
  simp [Ctx.levelOf, Function.comp_def]

/-- The same on the levels the core sees (R72). -/
theorem Causal.cut_sees {α : Type} {f : Data → Res α} (hcausal : Causal f)
    (halike : ∀ {d d'}, Closed d d' → (f d).Alike Closed (f d')) {c : Ctx} {d : Data} (hended : d.rx.ended = true)
    {frame : List Level} {m : Nat} (hm : m < frame.length) (hsees : d.sees c = frame.take m)
    (hwhole : ∀ e : Data, e.sees c = frame → ∃ a e', f e = .ok a e' ∧ e'.rx.ahead = []) :
    ∃ d', f d = .raised .endOfSignal d' ∧ d'.rx.ahead = [] := by
  let going : Data := { d with rx := { d.rx with ended := false } }
  let more := (frame.drop m).map c.levelOf
  have hclosed : going.endInput = d := by
    show { d with rx := { d.rx with ended := true } } = d
    rw [← hended]
  have hmore : more ≠ [] := by
    simpa [more] using hm
  have hsees' : (going.present more).sees c = frame := by
    show (d.rx.ahead ++ more).map c.levelOf = frame
    rw [List.map_append, map_levelOf_levelOf]
    exact (congrArg (· ++ _) hsees).trans (List.take_append_drop m frame)
  obtain ⟨a, e', hread, hall⟩ := hwhole _ hsees'
  rw [← hclosed]
  exact hcausal.cut halike rfl hmore hread hall

/-- A frame read that raises EndOfSignal with no sample left ends its command so (R76, R209). -/
theorem exec_exhausted {i : Instr} {op : BitVec 4} {arg : Nat} {s : State} (hi : commandParts i = some (op, arg))
    (hop : op ∈ [0x1#4, 0x2#4, 0x3#4, 0x4#4, 0x5#4, 0x6#4]) (hidle : s.running = none) (hq : 0 < s.ctx.qs) {d : Data}
    (hbody : commandBody op (s.ctxOf op arg) s.data.started = .raised .endOfSignal d) (hall : d.rx.ahead = []) :
    ∃ t, exec i s = .next t ∧ EndedWith s t op arg .endOfSignal ∧ Consumed s.data.rx.ahead.length s t := by
  obtain ⟨t, ht, hend, hdata⟩ := exec_raised hi hidle (startCheck_decode hop hq arg) hbody
  obtain ⟨n, hn, hcons⟩ := exec_decode_consumes hi hop hidle ht
  have hdrop : s.data.rx.ahead.drop n = [] := by
    rw [← RxPort.consume_ahead, ← hcons.1, hdata]
    exact hall
  have hlen : s.data.rx.ahead.length ≤ n := List.drop_eq_nil_iff.1 hdrop
  exact ⟨t, ht, hend, Nat.le_antisymm hn hlen ▸ hcons⟩

/-! ### Cut frames (R209) -/

/-- The samples of a slave frame of `n` words after others at one level (R114). -/
theorem samplesOfLeadAndSlave_length (q k : Nat) (v : Level) {n : Nat} {chs : List (List Half × Byte)}
    (hsizes : (chs.map fun ch => ch.1.length) = chunkSizes n) :
    (List.replicate k v ++ samplesOfHalves q (halvesOfSlaveFrame chs)).length = k + slaveFrameLength n * (4 * q) := by
  obtain ⟨-, -, hperiods⟩ := chunks_of_sizes hsizes
  rw [List.length_append, List.length_replicate, samplesOfHalves_length, halvesOfSlaveFrame, List.length_append,
    List.length_append, halvesOfStart_length, halvesOfChunks_length, halvesOfSymbol_length, hperiods, slaveFrameLength]
  ring

/-- A master frame cut before the second sample of its end delimiter (R209). -/
theorem readMaster_cut {c : Ctx} (hq : 0 < c.qs) (k : Nat) (v : Level) {w : Half} {chk : Byte}
    (hchk : c.checkValid [w] chk = true) {d : Data} (hended : d.rx.ended = true) {m : Nat} (hm : m ≤ k + 132 * c.qs)
    (h : d.sees c = (List.replicate k v ++ samplesOfHalves c.qs (halvesOfMasterFrame w chk)).take m) :
    ∃ d', readMaster c d = .raised .endOfSignal d' ∧ d'.rx.ahead = [] := by
  have hlength := samplesOfLeadAndMaster_length c.qs k v w chk
  refine (readMaster_causal c).cut_sees (readMaster_alike .closed c c.regs.op c.regs.arg) hended (by omega) h fun e he => ?_
  obtain ⟨e', hread, hmoved, -⟩ := readMaster_wave hq k v w chk (he.trans (List.append_nil _).symm) hchk
  exact ⟨w, e', hread, hmoved.exhausts (by rw [he, hlength])⟩

/-- A slave frame cut before the second sample of its end delimiter (R209). -/
theorem readSlave_cut {c : Ctx} (hq : 0 < c.qs) {fc : BitVec 4} {n : Nat} (hn : n = c.words fc) (hfit : n ≤ 16) (k : Nat)
    (v : Level) {chs : List (List Half × Byte)} (hsizes : (chs.map fun ch => ch.1.length) = chunkSizes n)
    (hvalid : ∀ ch ∈ chs, c.checkValid ch.1 ch.2 = true) {d : Data} (hended : d.rx.ended = true) {m : Nat}
    (hm : m ≤ k + (9 + 16 * n + 8 * chunkCount n) * (4 * c.qs))
    (h : d.sees c = (List.replicate k v ++ samplesOfHalves c.qs (halvesOfSlaveFrame chs)).take m) :
    ∃ d', readSlave c fc d = .raised .endOfSignal d' ∧ d'.rx.ahead = [] := by
  have hlength := samplesOfLeadAndSlave_length c.qs k v hsizes
  have hshort : (9 + 16 * n + 8 * chunkCount n) * (4 * c.qs) < slaveFrameLength n * (4 * c.qs) :=
    Nat.mul_lt_mul_of_pos_right (by rw [slaveFrameLength]; omega) (by omega)
  refine (readSlave_causal c fc).cut_sees (readSlave_alike .closed c c.regs.op c.regs.arg fc) hended (by omega) h
    fun e he => ?_
  obtain ⟨e', hread, hmoved, -⟩ := readSlave_stores hq hn hfit k v hsizes hvalid (he.trans (List.append_nil _).symm)
  exact ⟨(), e', hread, hmoved.exhausts (by rw [he, hlength])⟩

/-- Settles O34: the end delimiter is read last of either frame, so what is cut there is a proper beginning (`Causal.cut_sees`). -/
theorem truncatedFramesEndWithEndOfSignal : Obligations.TruncatedFramesEndWithEndOfSignal := by
  intro s arg k m v hidle hq hended
  refine ⟨fun w chk hchk hm hlevels => ?master, fun n chs hn hfit hsizes hvalid hm hlevels => ?slave⟩
  case master =>
    obtain ⟨d, hread, hall⟩ := readMaster_cut (c := s.ctxOf 0x4 arg) (d := s.data.started) hq k v hchk hended hm hlevels
    exact exec_exhausted (i := .rdMaster arg) rfl (by decide) hidle hq
      ((commandBody_rdMaster _ _).trans (congrArg (Res.bind · _) hread)) hall
  case slave =>
    obtain ⟨d, hread, hall⟩ := readSlave_cut (c := s.ctxOf 0x5 arg) (d := s.data.started) hq hn hfit k v hsizes hvalid hended
      hm hlevels
    exact exec_exhausted (i := .rdSlave arg) rfl (by decide) hidle hq hread hall

end Sys2Proof.Machine

/-! PROOFS. The chunks of a frame part (R221), and the reference CheckValid: no command ends with CheckSequenceMismatch under it
(R223). -/

namespace Sys2Proof.Machine

/-! ### Chunks (R221) -/

/-- The first chunk is the first four words, or all of them, and the others are the chunks of the rest. -/
theorem chunksOf_step {ws : List Half} (h : 0 < ws.length) : chunksOf ws = ws.take 4 :: chunksOf (ws.drop 4) := by
  have hsizes : chunkSizes ws.length = min 4 ws.length :: chunkSizes (ws.drop 4).length := by
    rw [chunkSizes_step _ h, List.length_drop]
  have htake : ws.take (min 4 ws.length) = ws.take 4 := List.take_eq_take_iff.2 (by omega)
  have hdrop : ws.drop (min 4 ws.length) = ws.drop 4 := by
    rcases Nat.le_total 4 ws.length with hle | hle
    · rw [Nat.min_eq_left hle]
    · rw [Nat.min_eq_right hle, List.drop_length, List.drop_eq_nil_of_le hle]
  rw [chunksOf, hsizes, splitBy, htake, hdrop, chunksOf]

theorem chunksOf_length (ws : List Half) : (chunksOf ws).length = chunkCount ws.length := by
  rw [← List.length_map List.length, chunksOf_lengths, chunkSizes_length]

/-- Chunk k holds the words from 4k on, four of them or as many as are left. -/
theorem chunksOf_getElem? {ws : List Half} {k : Nat} (h : 4 * k < ws.length) :
    (chunksOf ws)[k]? = some ((ws.drop (4 * k)).take 4) := by
  induction k generalizing ws with
  | zero => rw [chunksOf_step h]; rfl
  | succ k ih =>
    rw [chunksOf_step (by omega), List.getElem?_cons_succ, ih (by rw [List.length_drop]; omega), List.drop_drop,
      Nat.mul_succ, Nat.add_comm 4]

theorem chunkSizes_getElem? {n k : Nat} (h : k < chunkCount n) : (chunkSizes n)[k]? = some (min 4 (n - 4 * k)) := by
  simp [chunkSizes, h]

/-- Settles O58: the chunk of each index below the chunk count starts below the word count. -/
theorem chunksPartitionTheWords : Obligations.ChunksPartitionTheWords := by
  intro ws
  refine ⟨chunksOf_flatten ws, chunksOf_length ws, chunksOf_lengths ws, fun k hk => ?_⟩
  rw [chunksOf_length] at hk
  have hstarts : 4 * k < ws.length := by unfold chunkCount at hk; omega
  exact ⟨chunksOf_getElem? hstarts, chunkSizes_getElem? hk⟩

/-! ### Parts of a body that do not raise CheckSequenceMismatch -/

/-- `r` has not raised CheckSequenceMismatch. -/
def Res.NoMismatch {α : Type} : Res α → Prop
  | .ok _ _ => True
  | .raised e _ => e ≠ .checkSequenceMismatch
  | .waiting _ _ => True

theorem Res.NoMismatch.ok {α : Type} (a : α) (d : Data) : (Res.ok a d).NoMismatch := trivial

theorem Res.NoMismatch.raised {α : Type} {e : ErrorCode} (he : e ≠ .checkSequenceMismatch) (d : Data) :
    (Res.raised e d : Res α).NoMismatch := he

theorem Res.NoMismatch.bind {α β : Type} {r : Res α} {f : α → Data → Res β} (hr : r.NoMismatch)
    (hf : ∀ a d, (f a d).NoMismatch) : (r.bind f).NoMismatch := by
  cases r with
  | ok a d => exact hf a d
  | raised e d => exact hr
  | waiting w d => trivial

theorem Res.NoMismatch.onRaise {α : Type} {r : Res α} (hr : r.NoMismatch) (f : Data → Data) : (r.onRaise f).NoMismatch := by
  cases r with
  | ok a d => trivial
  | raised e d => exact hr
  | waiting w d => trivial

/-- Running out of samples raises EndOfSignal, if anything (R76). -/
theorem RunsOut.noMismatch {α : Type} {d : Data} {r : Res α} (h : RunsOut d r) : r.NoMismatch := by
  rcases h with ⟨-, rfl⟩ | ⟨-, w, rfl⟩
  · exact .raised (by decide) _
  · trivial

/-! Decoding -/

theorem level_noMismatch (c : Ctx) (d : Data) : (level c d).NoMismatch := by
  rcases level_spec c d with ⟨raw, -, e⟩ | ⟨-, hout⟩
  · rw [e]; exact .ok _ _
  · exact hout.noMismatch

theorem advance_noMismatch (n : Nat) (d : Data) : (advance n d).NoMismatch := by
  rcases advance_spec n d with ⟨-, e⟩ | ⟨-, hout⟩
  · rw [e]; exact .ok _ _
  · exact hout.noMismatch

theorem advanceUntil_noMismatch (c : Ctx) (v : Level) (d : Data) : (advanceUntil c v d).NoMismatch := by
  rcases advanceUntil_spec c v d with ⟨-, e⟩ | ⟨-, hout⟩
  · rw [e]; exact .ok _ _
  · exact hout.noMismatch

theorem decodeSymbol_noMismatch (c : Ctx) (d : Data) : (decodeSymbol c d).NoMismatch :=
  (advance_noMismatch _ _).bind fun _ _ => (level_noMismatch _ _).bind fun _ _ => (advance_noMismatch _ _).bind fun _ _ =>
    (level_noMismatch _ _).bind fun _ _ => (advance_noMismatch _ _).bind fun _ _ => .ok _ _

theorem decodeBit_noMismatch (c : Ctx) (d : Data) : (decodeBit c d).NoMismatch :=
  (advance_noMismatch _ _).bind fun _ _ => (level_noMismatch _ _).bind fun _ _ =>
    (advanceUntil_noMismatch _ _ _).bind fun _ _ => (advance_noMismatch _ _).bind fun _ _ => .ok _ _

theorem readBitsLoop_noMismatch (c : Ctx) (n k : Nat) (d : Data) : (readBitsLoop c n k d).NoMismatch := by
  induction k generalizing d with
  | zero => exact .ok _ _
  | succ k ih => exact (decodeBit_noMismatch _ _).bind fun _ _ => ih _

theorem readBits_noMismatch (c : Ctx) (n : Nat) (d : Data) : (readBits c n d).NoMismatch :=
  (readBitsLoop_noMismatch _ _ _ _).bind fun _ _ => .ok _ _

theorem readElement_noMismatch (c : Ctx) (e : Element) (d : Data) : (readElement c e d).NoMismatch := by
  cases e with
  | sym x => exact (decodeSymbol_noMismatch _ _).bind fun _ _ => .ok _ _
  | bit b => exact (decodeBit_noMismatch _ _).bind fun _ _ => .ok _ _

/-- A delimiter element that does not match raises InvalidStartDelimiter (R176). -/
theorem matchElements_noMismatch (c : Ctx) (es : List Element) (j : Nat) (d : Data) : (matchElements c es j d).NoMismatch := by
  induction es generalizing j d with
  | nil => exact .ok _ _
  | cons e es ih =>
    refine (readElement_noMismatch _ _ _).bind fun good d => ?_
    cases good with
    | false => exact .raised (by decide) _
    | true => exact ih _ _

theorem syncDelimiter_noMismatch (c : Ctx) (d : Data) : (syncDelimiter c d).NoMismatch := by
  refine (decodeSymbol_noMismatch _ _).bind fun x d => ?_
  cases kindOfFirst x with
  | none => exact .raised (by decide) _
  | some kind => exact (matchElements_noMismatch _ _ _ _).bind fun _ _ => .ok _ _

theorem sync_noMismatch (c : Ctx) (d : Data) : (sync c d).NoMismatch :=
  Res.NoMismatch.onRaise ((advanceUntil_noMismatch _ _ _).bind fun _ _ => (advanceUntil_noMismatch _ _ _).bind fun _ _ =>
    (advance_noMismatch _ _).bind fun _ _ => syncDelimiter_noMismatch _ _) _

theorem readEnd_noMismatch (c : Ctx) (d : Data) : (readEnd c d).NoMismatch := by
  refine (decodeSymbol_noMismatch _ _).bind fun x d => ?_
  split
  · exact .ok _ _
  · exact .raised (by decide) _

theorem readWords_noMismatch (c : Ctx) (m i : Nat) (d : Data) : (readWords c m i d).NoMismatch := by
  induction m generalizing i d with
  | zero => exact .ok _ _
  | succ m ih => exact (readBits_noMismatch _ _ _).bind fun _ _ => ih _ _

/-! Reads that check: the reference CheckValid accepts the check byte (R223) -/

theorem readMaster_noMismatch {c : Ctx} (hvalid : c.params.validator = .reference) (d : Data) :
    (readMaster c d).NoMismatch := by
  refine (sync_noMismatch _ _).bind fun kind d => ?_
  split
  · exact .raised (by decide) _
  refine (readBits_noMismatch _ _ _).bind fun w d => (readBits_noMismatch _ _ _).bind fun chk d => ?_
  rw [Ctx.checkValid_reference hvalid, if_neg (by decide)]
  exact (readEnd_noMismatch _ _).bind fun _ _ => .ok _ _

theorem readChunks_noMismatch {c : Ctx} (hvalid : c.params.validator = .reference) (ms : List Nat) (i k : Nat) (d : Data) :
    (readChunks c ms i k d).NoMismatch := by
  induction ms generalizing i k d with
  | nil => exact .ok _ _
  | cons m ms ih =>
    refine (readWords_noMismatch _ _ _ _).bind fun _ d => (readBits_noMismatch _ _ _).bind fun chk d => ?_
    dsimp only
    rw [Ctx.checkValid_reference hvalid, if_neg (by decide)]
    exact ih _ _ _

theorem readSlave_noMismatch {c : Ctx} (hvalid : c.params.validator = .reference) (fc : BitVec 4) (d : Data) :
    (readSlave c fc d).NoMismatch := by
  refine (sync_noMismatch _ _).bind fun kind d => ?_
  split
  · exact .raised (by decide) _
  · exact (readChunks_noMismatch hvalid _ _ _ _).bind fun _ _ => readEnd_noMismatch _ _

theorem bodyRdTelegram_noMismatch {c : Ctx} (hvalid : c.params.validator = .reference) (d : Data) :
    (bodyRdTelegram c d).NoMismatch := by
  refine (readMaster_noMismatch hvalid _).bind fun w d => ?_
  split
  · exact .ok _ _
  · exact readSlave_noMismatch hvalid _ _

/-! Encoding -/

/-- Emitting raises nothing: a sink that stops is waited for (R79, R301). -/
theorem emit_noMismatch (n : Nat) (v : Level) (d : Data) : (emit n v d).NoMismatch := by
  rcases emit_spec n v d with e | ⟨lim, -, -, e⟩ <;> rw [e] <;> trivial

theorem encodeSymbol_noMismatch (c : Ctx) (x : Symbol) (d : Data) : (encodeSymbol c x d).NoMismatch :=
  (emit_noMismatch _ _ _).bind fun _ _ => emit_noMismatch _ _ _

theorem encodeBit_noMismatch (c : Ctx) (b : Bool) (d : Data) : (encodeBit c b d).NoMismatch :=
  (emit_noMismatch _ _ _).bind fun _ _ => emit_noMismatch _ _ _

theorem encodeField_noMismatch (c : Ctx) {n : Nat} (v : BitVec n) (d : Data) : (encodeField c v d).NoMismatch := by
  unfold encodeField
  induction bitsMsbFirst v generalizing d with
  | nil => exact .ok _ _
  | cons b bs ih => exact (encodeBit_noMismatch _ _ _).bind fun _ _ => ih _

theorem sendElements_noMismatch (c : Ctx) (es : List Element) (d : Data) : (sendElements c es d).NoMismatch := by
  induction es generalizing d with
  | nil => exact .ok _ _
  | cons e es ih =>
    refine Res.NoMismatch.bind ?_ fun _ _ => ih _
    cases e with
    | sym x => exact encodeSymbol_noMismatch _ _ _
    | bit b => exact encodeBit_noMismatch _ _ _

theorem encodeStart_noMismatch (c : Ctx) (kind : Bool) (d : Data) : (encodeStart c kind d).NoMismatch :=
  (encodeBit_noMismatch _ _ _).bind fun _ _ => sendElements_noMismatch _ _ _

theorem encodeMaster_noMismatch (c : Ctx) (w : Half) (d : Data) : (encodeMaster c w d).NoMismatch :=
  (encodeStart_noMismatch _ _ _).bind fun _ _ => (encodeField_noMismatch _ _ _).bind fun _ _ =>
    (encodeField_noMismatch _ _ _).bind fun _ _ => encodeSymbol_noMismatch _ _ _

theorem encodeWords_noMismatch (c : Ctx) (ws : List Half) (d : Data) : (encodeWords c ws d).NoMismatch := by
  induction ws generalizing d with
  | nil => exact .ok _ _
  | cons w ws ih => exact (encodeField_noMismatch _ _ _).bind fun _ _ => ih _

theorem encodeChunks_noMismatch (c : Ctx) (ms : List Nat) (ws : List Half) (d : Data) :
    (encodeChunks c ms ws d).NoMismatch := by
  induction ms generalizing ws d with
  | nil => exact .ok _ _
  | cons m ms ih =>
    exact (encodeWords_noMismatch _ _ _).bind fun _ _ => (encodeField_noMismatch _ _ _).bind fun _ _ => ih _ _

theorem encodeSlave_noMismatch (c : Ctx) (ws : List Half) (d : Data) : (encodeSlave c ws d).NoMismatch :=
  (encodeStart_noMismatch _ _ _).bind fun _ _ => (encodeChunks_noMismatch _ _ _ _).bind fun _ _ =>
    encodeSymbol_noMismatch _ _ _

theorem bodyEncTelegram_noMismatch (c : Ctx) (d : Data) : (bodyEncTelegram c d).NoMismatch := by
  refine (encodeMaster_noMismatch _ _ _).bind fun _ d => (emit_noMismatch _ _ _).bind fun _ d => ?_
  split
  · exact .ok _ _
  · exact encodeSlave_noMismatch _ _ _

/-- Under the reference CheckValid no command's body raises CheckSequenceMismatch (R223). -/
theorem commandBody_noMismatch (op : BitVec 4) {c : Ctx} (hvalid : c.params.validator = .reference) (d : Data) :
    (commandBody op c d).NoMismatch := by
  generalize hb : commandBody op = b
  unfold commandBody at hb
  split at hb <;> subst hb
  · exact (decodeSymbol_noMismatch _ _).bind fun _ _ => .ok _ _
  · exact (decodeBit_noMismatch _ _).bind fun _ _ => .ok _ _
  · exact (sync_noMismatch _ _).bind fun _ _ => .ok _ _
  · exact (readMaster_noMismatch hvalid _).bind fun _ _ => .ok _ _
  · exact readSlave_noMismatch hvalid _ _
  · exact bodyRdTelegram_noMismatch hvalid _
  · exact encodeSymbol_noMismatch _ _ _
  · exact encodeBit_noMismatch _ _ _
  · exact encodeMaster_noMismatch _ _ _
  · exact encodeSlave_noMismatch _ _ _
  · exact bodyEncTelegram_noMismatch _ _
  · exact .ok _ _

/-! ### The step -/

/-- From `s` to `t` the parameters stay, and with the reference CheckValid STATUS.ERR does not become CheckSequenceMismatch: what
`Obligations.ReferenceCheckNeverMismatches` says of a step. -/
def ChecksKept (s t : State) : Prop :=
  t.params = s.params
    ∧ (s.params.validator = .reference → s.err ≠ .checkSequenceMismatch → t.err ≠ .checkSequenceMismatch)

/-- What writes neither the parameters nor STATUS.ERR. -/
theorem ChecksKept.of_same {s t : State} (hparams : t.params = s.params) (herr : t.err = s.err) : ChecksKept s t :=
  ⟨hparams, fun _ h => by rwa [herr]⟩

theorem ChecksKept.refl (s : State) : ChecksKept s s := ChecksKept.of_same rfl rfl

/-- A command's end takes its error from its body, and a wait leaves ERR as it is (R142, R301). -/
theorem settle_checksKept (s : State) (start : Data) :
    ChecksKept s (s.settle start (commandBody s.regs.op s.ctx start)) := by
  cases hb : commandBody s.regs.op s.ctx start with
  | ok u d => exact ⟨rfl, fun _ _ => ErrorCode.noConfusion⟩
  | raised e d =>
    refine ⟨rfl, fun hvalid _ => ?_⟩
    have hbody := commandBody_noMismatch s.regs.op (c := s.ctx) hvalid start
    rw [hb] at hbody
    exact hbody
  | waiting w d => exact ChecksKept.of_same rfl rfl

/-- A start check fails with ILLEGAL_COMMAND or ILLEGAL_CONFIG (R144, R145). -/
theorem startCheck_ne_mismatch (r : Regs) : startCheck r ≠ some .checkSequenceMismatch := by
  unfold startCheck
  split_ifs <;> decide

theorem startCommand_checksKept (s : State) (op : BitVec 4) (arg : Nat) :
    ChecksKept s (s.startCommand op arg (commandBody op)) := by
  cases hrun : s.running with
  | some r =>
    rw [startCommand_busy (by simp [State.busy, hrun])]
    exact ChecksKept.of_same rfl rfl
  | none =>
    cases hc : startCheck (s.begin op (BitVec.ofNat 4 arg)).regs with
    | some e =>
      rw [startCommand_fails hrun hc]
      exact ⟨rfl, fun _ _ he => startCheck_ne_mismatch _ (hc.trans (congrArg some he))⟩
    | none =>
      rw [startCommand_runs hrun hc]
      obtain ⟨hparams, herr⟩ := settle_checksKept (s.begin op (BitVec.ofNat 4 arg)) (s.begin op (BitVec.ofNat 4 arg)).data
      exact ⟨hparams, fun hvalid _ => herr hvalid (by simp)⟩

/-- After a change of the environment a waiting command goes on as its body does from its start (R71, R79, R141). -/
theorem changeData_resume_checksKept (f : Data → Data) (s : State) : ChecksKept s (s.changeData f).resume := by
  unfold State.resume
  split
  · exact ChecksKept.of_same rfl rfl
  · exact settle_checksKept (s.changeData f) _

theorem present_checksKept (xs : List Level) (s : State) : ChecksKept s (s.present xs) := by
  unfold State.present
  split
  · exact ChecksKept.refl s
  · exact changeData_resume_checksKept _ s

theorem exec_checksKept {i : Instr} {s t : State} (ht : exec i s = .next t) : ChecksKept s t := by
  cases hparts : commandParts i with
  | some p =>
    obtain ⟨op, arg⟩ := p
    rw [exec_command hparts] at ht
    cases ht
    exact startCommand_checksKept s op arg
  | none =>
    obtain ⟨xs, hxs⟩ := exec_line hparts s
    rw [hxs] at ht
    cases ht
    exact present_checksKept xs s

/-- A write that starts no command writes neither ERR nor a parameter: ERR is not a W1C field (R29). -/
theorem writePort_checksKept (off : Nat) (v : Word) (s : State) : ChecksKept s (s.writePort off v) := by
  unfold State.writePort
  split
  · exact ChecksKept.of_same rfl rfl
  split
  · split <;> exact ChecksKept.of_same rfl rfl
  · exact ChecksKept.refl s

theorem hostWrite_checksKept {addr v : Word} {s t : State} (ht : hostWrite addr v s = .next t) : ChecksKept s t := by
  unfold hostWrite at ht
  split at ht
  · cases ht; exact ChecksKept.refl s
  split at ht
  · split at ht
    · exact exec_checksKept ht
    · cases ht; exact ChecksKept.refl s
  · cases ht; exact writePort_checksKept _ v s

theorem hostRead_checksKept (addr : Word) (s : State) : ChecksKept s (hostRead addr s) := by
  unfold hostRead
  split <;> exact ChecksKept.of_same rfl rfl

theorem handle_checksKept {e : Event} {s t : State} (ht : handle e s = .next t) : ChecksKept s t := by
  cases e with
  | write addr v => exact hostWrite_checksKept ht
  | read addr => cases ht; exact hostRead_checksKept addr s
  | line f bits =>
    obtain ⟨i, -, hi⟩ := handle_line_next ht
    exact exec_checksKept hi
  | sample v => cases ht; exact present_checksKept _ s
  | capture b => cases ht; exact present_checksKept _ s
  | endOfInput => cases ht; exact changeData_resume_checksKept _ s
  | sinkAccepts n => cases ht; exact changeData_resume_checksKept _ s
  | sinkAlways => cases ht; exact changeData_resume_checksKept _ s
  | reset => cases ht; exact ⟨rfl, fun _ _ => ErrorCode.noConfusion⟩

/-- Settles O56: taking the event from what happens next touches neither ERR nor a parameter, and each event keeps both. -/
theorem referenceCheckNeverMismatches : Obligations.ReferenceCheckNeverMismatches := by
  intro s t ht
  cases hp : s.pending with
  | nil =>
    rw [step_of_pending_nil hp] at ht
    cases ht
    exact ChecksKept.refl s
  | cons e rest =>
    rw [step_of_pending_cons hp] at ht
    exact handle_checksKept (s := { s with pending := rest }) ht

end Sys2Proof.Machine

/-! PROOFS. The rest of the encoder: ENC_SYMBOL and ENC_BIT (R231 to R235), the telegram ENC_TELEGRAM emits (R243 to R245), and that
an encode command ends with no error of its own (R246). -/

namespace Sys2Proof.Machine

/-! ### One symbol, one bit (R234, R235) -/

/-- The first half of a symbol is bit 1 of its code, the second half bit 0 (R104). -/
theorem symbolHalves_symbolOfCode : ∀ v : BitVec 2, symbolHalves (symbolOfCode v) = (v.getLsbD 1, v.getLsbD 0) := by decide

/-- ARG holds the low four bits of the operand (R24). -/
theorem getLsbD_arg (arg : Nat) {i : Nat} (h : i < 4) : (BitVec.ofNat 4 arg).getLsbD i = arg.testBit i := by
  rw [BitVec.getLsbD_ofNat, decide_eq_true h, Bool.true_and]

/-- ARG[1:0] is a symbol's code (R102). -/
theorem halvesOfSymbol_argSymbol (s : State) (op : BitVec 4) (arg : Nat) :
    halvesOfSymbol (s.ctxOf op arg).argSymbol = [arg.testBit 1, arg.testBit 0] := by
  have hbit {i : Nat} (h : i < 2) : ((BitVec.ofNat 4 arg).extractLsb' 0 2).getLsbD i = arg.testBit i := by
    rw [BitVec.getLsbD_extractLsb', decide_eq_true h, Bool.true_and, Nat.zero_add, getLsbD_arg arg (by omega)]
  have hhalves : symbolHalves (s.ctxOf op arg).argSymbol = (arg.testBit 1, arg.testBit 0) :=
    (symbolHalves_symbolOfCode _).trans (Prod.ext (hbit (by decide)) (hbit (by decide)))
  rw [halvesOfSymbol, hhalves]

/-- ARG[0] is a bit (R102). -/
theorem halvesOfBit_argBit (s : State) (op : BitVec 4) (arg : Nat) :
    halvesOfBit (s.ctxOf op arg).argBit = [arg.testBit 0, !arg.testBit 0] := by
  have hbit : (s.ctxOf op arg).argBit = arg.testBit 0 := getLsbD_arg arg (by decide)
  rw [halvesOfBit, hbit]

/-- Settles O35: the body of ENC_SYMBOL is `encodeSymbol`, which sends the two halves of the symbol in ARG[1:0]. -/
theorem encSymbolEmitsTwoHalves : Obligations.EncSymbolEmitsTwoHalves := by
  intro s arg hidle hq hsink
  have hc : startCheck (s.ctxOf 0x8 arg).regs = none := startCheck_passes rfl hq (fun h => nomatch h) fun h => nomatch h
  have hsends : Sends (commandBody 0x8 (s.ctxOf 0x8 arg)) _ := encodeSymbol_sends _ _
  rw [halvesOfSymbol_argSymbol, samplesOfHalves_pair] at hsends
  exact exec_sends (i := .encSymbol arg) rfl hidle hc hsink hsends

/-- Settles O36: the body of ENC_BIT is `encodeBit`, which sends the level ARG[0] and then the other one. -/
theorem encBitEmitsTwoHalves : Obligations.EncBitEmitsTwoHalves := by
  intro s arg hidle hq hsink
  have hc : startCheck (s.ctxOf 0x9 arg).regs = none := startCheck_passes rfl hq (fun h => nomatch h) fun h => nomatch h
  have hsends : Sends (commandBody 0x9 (s.ctxOf 0x9 arg)) _ := encodeBit_sends _ _
  rw [halvesOfBit_argBit, samplesOfHalves_pair] at hsends
  exact exec_sends (i := .encBit arg) rfl hidle hc hsink hsends

/-! ### The telegram (R243 to R245) -/

/-- A drawn gap lies within its bounds, whatever the draw (R244). -/
theorem gapLength_bounds {lo hi : Nat} (h : lo ≤ hi) (k : Nat) : lo ≤ gapLength lo hi k ∧ gapLength lo hi k ≤ hi := by
  unfold gapLength
  split
  next => omega
  next =>
    have hdraw : Config.gapDraw k % (hi - lo + 1) < hi - lo + 1 := Nat.mod_lt _ (Nat.succ_pos _)
    omega

/-- The length of the gap that the next draw gives (R244). -/
def Data.nextGap (c : Ctx) (d : Data) : Nat := gapLength c.regs.gapMin.toNat c.regs.gapMax.toNat d.gapDraws

/-- The data after that draw. -/
def Data.drawGap (c : Ctx) (d : Data) : Data := { d with gapDraws := d.gapDraws + 1, dp := { d.dp with gap := d.nextGap c } }

theorem emitGap_eq (c : Ctx) {d : Data} (hsink : d.tx.limit = none) :
    emitGap c d = .ok () ((d.drawGap c).sent (List.replicate (d.nextGap c) c.regs.cfg.idleLevel)) :=
  emit_sends _ _ (d.drawGap c) hsink

/-- The samples of a telegram up to the end of its gap of `g` samples. -/
def Ctx.telegramHead (c : Ctx) (g : Nat) : List Level :=
  samplesOfHalves c.qs (halvesOfMasterFrame c.regs.txMword (c.checkGen [c.regs.txMword]))
    ++ List.replicate g c.regs.cfg.idleLevel

/-- Master frame and gap go out, whichever form the telegram has (R243). -/
theorem bodyEncTelegram_head (c : Ctx) {d : Data} (hsink : d.tx.limit = none) :
    commandBody 0xC c d = if c.sendSkips (wordFcode c.regs.txMword)
      then .ok () (((d.drawGap c).sent (c.telegramHead (d.nextGap c))).setRes fun r => { r with skipped := true })
      else encodeSlave c (c.txWords (c.words (wordFcode c.regs.txMword)))
        ((d.drawGap c).sent (c.telegramHead (d.nextGap c))) := by
  show (encodeMaster _ _ _).bind _ = _
  rw [encodeMaster_sends c c.regs.txMword d hsink, Res.bind_ok, emitGap_eq c (d := d.sent _) hsink, Res.bind_ok, Ctx.telegramHead,
    ← Data.sent_sent]
  rfl

/-- With SLAVE_POLICY and no slave word the telegram ends after its gap, with SKIPPED set (R245). -/
theorem bodyEncTelegram_skips (c : Ctx) {d : Data} (hsink : d.tx.limit = none)
    (hskips : c.sendSkips (wordFcode c.regs.txMword) = true) :
    commandBody 0xC c d
      = .ok () (((d.drawGap c).sent (c.telegramHead (d.nextGap c))).setRes fun r => { r with skipped := true }) := by
  rw [bodyEncTelegram_head c hsink, if_pos hskips]

/-- Otherwise the slave frame of the words the function code calls for follows (R243). -/
theorem bodyEncTelegram_slave (c : Ctx) {d : Data} (hsink : d.tx.limit = none)
    (hskips : ¬c.sendSkips (wordFcode c.regs.txMword) = true) :
    commandBody 0xC c d = .ok () ((d.drawGap c).sent (c.telegramHead (d.nextGap c)
      ++ samplesOfHalves c.qs
        (halvesOfSlaveFrame (c.checkedChunks (c.txWords (c.words (wordFcode c.regs.txMword))))))) := by
  rw [bodyEncTelegram_head c hsink, if_neg hskips, encodeSlave_sends c _ (Data.sent _ (d.drawGap c)) hsink, Data.sent_sent]

theorem sendSkips_iff (c : Ctx) (fc : BitVec 4) :
    c.sendSkips fc = true ↔ c.regs.cfg.slavePolicy = true ∧ c.words fc = 0 := by
  simp [Ctx.sendSkips]

/-- Settles O39: the body of ENC_TELEGRAM in each of its two forms, with the gap the next draw gives. -/
theorem encTelegramEmitsATelegram : Obligations.EncTelegramEmitsATelegram := by
  intro s arg n hidle hq hsink hbounds hn
  subst hn
  have hc : startCheck (s.ctxOf 0xC arg).regs = none := startCheck_passes rfl hq (fun h => nomatch h) fun _ => hbounds
  obtain ⟨hmin, hmax⟩ := gapLength_bounds hbounds s.data.gapDraws
  by_cases hskips : s.regs.cfg.slavePolicy = true ∧ s.ctx.words (wordFcode s.regs.txMword) = 0
  · obtain ⟨t, ht, hend, hdata⟩ := exec_ok (i := .encTelegram arg) rfl hidle hc
      (bodyEncTelegram_skips (s.ctxOf 0xC arg) (d := s.data.started) hsink ((sendSkips_iff _ _).2 hskips))
    refine ⟨t, _, ht, hend, hmin, hmax, ?_, ?_⟩
    · rw [if_pos hskips, List.append_nil, Emitted, hdata]
      exact ⟨rfl, rfl⟩
    · rw [decide_eq_true hskips, hdata]
      rfl
  · obtain ⟨t, ht, hend, hdata⟩ := exec_ok (i := .encTelegram arg) rfl hidle hc
      (bodyEncTelegram_slave (s.ctxOf 0xC arg) (d := s.data.started) hsink fun h => hskips ((sendSkips_iff _ _).1 h))
    refine ⟨t, _, ht, hend, hmin, hmax, ?_, ?_⟩
    · rw [if_neg hskips, Emitted, hdata]
      exact ⟨rfl, rfl⟩
    · rw [decide_eq_false hskips, hdata]
      rfl

/-! ### The errors of the encoder (R246) -/

/-- Whatever an encode command sends, a sink that always accepts lets its body return. -/
theorem encodeBody_returns {op : BitVec 4} (hop : op ∈ [0x8#4, 0x9#4, 0xA#4, 0xB#4, 0xC#4]) (c : Ctx) {d : Data}
    (hsink : d.tx.limit = none) : ∃ d', commandBody op c d = .ok () d' := by
  simp only [List.mem_cons, List.not_mem_nil, or_false] at hop
  rcases hop with rfl | rfl | rfl | rfl | rfl
  · exact ⟨_, encodeSymbol_sends c _ d hsink⟩
  · exact ⟨_, encodeBit_sends c _ d hsink⟩
  · exact ⟨_, encodeMaster_sends c _ d hsink⟩
  · exact ⟨_, encodeSlave_sends c _ d hsink⟩
  · obtain ⟨_, d', hbody, -⟩ := bodyEncTelegram_sends c hsink rfl
    exact ⟨d', hbody⟩

/-- An error stands when the sink is let go on, and then the body returns: so there was none, whatever the sink (R246). -/
theorem encodeBody_ne_raised {op : BitVec 4} (hop : op ∈ [0x8#4, 0x9#4, 0xA#4, 0xB#4, 0xC#4]) (c : Ctx) (d : Data)
    (e : ErrorCode) (d' : Data) : commandBody op c d ≠ .raised e d' := by
  intro hraised
  have hstands : (commandBody op c d).GoesOn d.freed (commandBody op c (d.setLimit none)) := commandBody_freed op c d
  obtain ⟨_, hreturns⟩ := encodeBody_returns hop c (d := d.setLimit none) rfl
  rw [hraised, hreturns] at hstands
  exact nomatch (hstands : Res.ok () _ = Res.raised e _)

/-- Only an illegal opcode fails a start check with another error than ILLEGAL_CONFIG (R144, R145). -/
theorem startCheck_legal {r : Regs} {e : ErrorCode} (hlegal : illegalOp r.op = false) (hc : startCheck r = some e) :
    e = .illegalConfig := by
  unfold startCheck at hc
  rw [if_neg (by simp [hlegal])] at hc
  split_ifs at hc <;> exact (Option.some.inj hc).symm

/-- An encode command fails a start check, returns, or waits; its body raises nothing (R246). -/
theorem exec_encode_err {i : Instr} {op : BitVec 4} {arg : Nat} {s : State} (hi : commandParts i = some (op, arg))
    (hop : op ∈ [0x8#4, 0x9#4, 0xA#4, 0xB#4, 0xC#4]) (hidle : s.running = none) :
    ∃ t, exec i s = .next t ∧ (t.err = .none ∨ t.err = .illegalConfig) := by
  cases hc : startCheck (s.ctxOf op arg).regs with
  | some e =>
    have hlegal : ∀ op ∈ [0x8#4, 0x9#4, 0xA#4, 0xB#4, 0xC#4], illegalOp op = false := by decide
    obtain ⟨t, ht, hend, -⟩ := exec_fails hi hidle hc
    exact ⟨t, ht, .inr (hend.err.trans (startCheck_legal (hlegal op hop) hc))⟩
  | none =>
    rcases exec_runs hi hidle hc with ⟨_, _, t, -, ht, hend, -⟩ | ⟨e, d, _, hraised, -⟩ | ⟨_, _, t, -, ht, hwaits, -⟩
    · exact ⟨t, ht, .inl hend.err⟩
    · exact absurd hraised (encodeBody_ne_raised hop _ _ e d)
    · obtain ⟨-, -, -, herr, -⟩ := hwaits
      exact ⟨t, ht, .inl herr⟩

/-- Settles O40: NOP completes, and the five encode commands end as `exec_encode_err` says. -/
theorem encodersRaiseNoStreamError : Obligations.EncodersRaiseNoStreamError := by
  intro s t arg hidle
  refine ⟨fun ht => ?_, fun i hi ht => ?_⟩
  · obtain ⟨t', ht', hend, -⟩ := nopCompletes.1 s arg hidle
    obtain rfl : t' = t := Host.Outcome.next.inj (ht'.symm.trans ht)
    exact hend.err
  · obtain ⟨t', ht', herr⟩ : ∃ t, exec i s = .next t ∧ (t.err = .none ∨ t.err = .illegalConfig) := by
      simp only [List.mem_cons, List.not_mem_nil, or_false] at hi
      rcases hi with rfl | rfl | rfl | rfl | rfl <;> exact exec_encode_err rfl (by decide) hidle
    obtain rfl : t' = t := Host.Outcome.next.inj (ht'.symm.trans ht)
    exact herr

end Sys2Proof.Machine

/-! PROOFS. The end of the stream: what EndOfSignal says of the samples, and what a decode command makes of a stream at its end (R262). -/

namespace Sys2Proof.Machine

/-! ### Parts of a body that raise EndOfSignal at the end of the stream only (R73 to R76) -/

/-- If `r` has raised EndOfSignal, its stream has ended and holds no sample more. -/
def Res.Exhausts {α : Type} : Res α → Prop
  | .ok _ _ => True
  | .raised e d => e = .endOfSignal → d.rx.ended = true ∧ d.rx.ahead = []
  | .waiting _ _ => True

theorem Res.Exhausts.ok {α : Type} (a : α) (d : Data) : (Res.ok a d).Exhausts := trivial

/-- An error of its own that a part raises is not EndOfSignal (R260). -/
theorem Res.Exhausts.raised {α : Type} {e : ErrorCode} (he : e ≠ .endOfSignal) (d : Data) : (Res.raised e d : Res α).Exhausts :=
  fun h => absurd h he

theorem Res.Exhausts.bind {α β : Type} {r : Res α} {f : α → Data → Res β} (hr : r.Exhausts) (hf : ∀ a d, (f a d).Exhausts) :
    (r.bind f).Exhausts := by
  cases r with
  | ok a d => exact hf a d
  | raised e d => exact hr
  | waiting w d => trivial

/-- A choice, whichever way it is made (R176, R193, R198). -/
theorem Res.Exhausts.ite {α : Type} {p : Prop} [Decidable p] {r r' : Res α} (hr : r.Exhausts) (hr' : r'.Exhausts) :
    (if p then r else r').Exhausts := by
  split
  · exact hr
  · exact hr'

/-- Sync's write of Error on a raise touches no sample (R178). -/
theorem Res.Exhausts.onRaise {α : Type} {r : Res α} (hr : r.Exhausts) {f : Data → Data} (hf : ∀ d, (f d).rx = d.rx) :
    (r.onRaise f).Exhausts := by
  cases r with
  | ok a d => trivial
  | raised e d =>
    intro he
    rw [hf d]
    exact hr he
  | waiting w d => trivial

theorem RunsOut.exhausts {α : Type} {d : Data} {r : Res α} (h : RunsOut d r) : r.Exhausts := by
  rcases h with ⟨hended, rfl⟩ | ⟨-, w, rfl⟩
  · exact fun _ => ⟨hended, by simp⟩
  · trivial

theorem level_exhausts (c : Ctx) (d : Data) : (level c d).Exhausts := by
  rcases level_spec c d with ⟨raw, -, e⟩ | ⟨-, hout⟩
  · rw [e]; exact .ok _ _
  · exact hout.exhausts

theorem advance_exhausts (n : Nat) (d : Data) : (advance n d).Exhausts := by
  rcases advance_spec n d with ⟨-, e⟩ | ⟨-, hout⟩
  · rw [e]; exact .ok _ _
  · exact hout.exhausts

theorem advanceUntil_exhausts (c : Ctx) (v : Level) (d : Data) : (advanceUntil c v d).Exhausts := by
  rcases advanceUntil_spec c v d with ⟨-, e⟩ | ⟨-, hout⟩
  · rw [e]; exact .ok _ _
  · exact hout.exhausts

theorem decodeSymbol_exhausts (c : Ctx) (d : Data) : (decodeSymbol c d).Exhausts :=
  (advance_exhausts _ _).bind fun _ _ => (level_exhausts _ _).bind fun _ _ => (advance_exhausts _ _).bind fun _ _ =>
    (level_exhausts _ _).bind fun _ _ => (advance_exhausts _ _).bind fun _ _ => .ok _ _

theorem decodeBit_exhausts (c : Ctx) (d : Data) : (decodeBit c d).Exhausts :=
  (advance_exhausts _ _).bind fun _ _ => (level_exhausts _ _).bind fun _ _ =>
    (advanceUntil_exhausts _ _ _).bind fun _ _ => (advance_exhausts _ _).bind fun _ _ => .ok _ _

theorem readBitsLoop_exhausts (c : Ctx) (n k : Nat) (d : Data) : (readBitsLoop c n k d).Exhausts := by
  induction k generalizing d with
  | zero => exact .ok _ _
  | succ k ih => exact (decodeBit_exhausts _ _).bind fun _ _ => ih _

theorem readBits_exhausts (c : Ctx) (n : Nat) (d : Data) : (readBits c n d).Exhausts :=
  (readBitsLoop_exhausts _ _ _ _).bind fun _ _ => .ok _ _

theorem readElement_exhausts (c : Ctx) (e : Element) (d : Data) : (readElement c e d).Exhausts := by
  cases e with
  | sym x => exact (decodeSymbol_exhausts _ _).bind fun _ _ => .ok _ _
  | bit b => exact (decodeBit_exhausts _ _).bind fun _ _ => .ok _ _

theorem matchElements_exhausts (c : Ctx) (es : List Element) (j : Nat) (d : Data) : (matchElements c es j d).Exhausts := by
  induction es generalizing j d with
  | nil => exact .ok _ _
  | cons e es ih => exact (readElement_exhausts _ _ _).bind fun _ _ => .ite (ih _ _) (.raised (by decide) _)

theorem syncDelimiter_exhausts (c : Ctx) (d : Data) : (syncDelimiter c d).Exhausts := by
  refine (decodeSymbol_exhausts _ _).bind fun x d => ?_
  cases kindOfFirst x with
  | none => exact .raised (by decide) _
  | some kind => exact (matchElements_exhausts _ _ _ _).bind fun _ _ => .ok _ _

theorem sync_exhausts (c : Ctx) (d : Data) : (sync c d).Exhausts :=
  Res.Exhausts.onRaise ((advanceUntil_exhausts _ _ _).bind fun _ _ => (advanceUntil_exhausts _ _ _).bind fun _ _ =>
    (advance_exhausts _ _).bind fun _ _ => syncDelimiter_exhausts _ _) (Data.setSync_rx .error)

theorem readEnd_exhausts (c : Ctx) (d : Data) : (readEnd c d).Exhausts :=
  (decodeSymbol_exhausts _ _).bind fun _ _ => .ite (.ok _ _) (.raised (by decide) _)

theorem readMaster_exhausts (c : Ctx) (d : Data) : (readMaster c d).Exhausts :=
  (sync_exhausts _ _).bind fun _ _ => .ite (.raised (by decide) _) <|
    (readBits_exhausts _ _ _).bind fun _ _ => (readBits_exhausts _ _ _).bind fun _ _ =>
      .ite (.raised (by decide) _) ((readEnd_exhausts _ _).bind fun _ _ => .ok _ _)

theorem readWords_exhausts (c : Ctx) (m i : Nat) (d : Data) : (readWords c m i d).Exhausts := by
  induction m generalizing i d with
  | zero => exact .ok _ _
  | succ m ih => exact (readBits_exhausts _ _ _).bind fun _ _ => ih _ _

theorem readChunks_exhausts (c : Ctx) (ms : List Nat) (i k : Nat) (d : Data) : (readChunks c ms i k d).Exhausts := by
  induction ms generalizing i k d with
  | nil => exact .ok _ _
  | cons m ms ih =>
    exact (readWords_exhausts _ _ _ _).bind fun _ _ => (readBits_exhausts _ _ _).bind fun _ _ =>
      .ite (.raised (by decide) _) (ih _ _ _)

theorem readSlave_exhausts (c : Ctx) (fc : BitVec 4) (d : Data) : (readSlave c fc d).Exhausts :=
  (sync_exhausts _ _).bind fun _ _ => .ite (.raised (by decide) _) <|
    (readChunks_exhausts _ _ _ _ _).bind fun _ _ => readEnd_exhausts _ _

/-- The body of a decode command raises EndOfSignal at the end of the stream only (R262). -/
theorem decodeBody_exhausts {op : BitVec 4} (hop : op ∈ [0x1#4, 0x2#4, 0x3#4, 0x4#4, 0x5#4, 0x6#4]) (c : Ctx) (d : Data) :
    (commandBody op c d).Exhausts := by
  simp only [List.mem_cons, List.not_mem_nil, or_false] at hop
  rcases hop with rfl | rfl | rfl | rfl | rfl | rfl
  · exact (decodeSymbol_exhausts _ _).bind fun _ _ => .ok _ _
  · exact (decodeBit_exhausts _ _).bind fun _ _ => .ok _ _
  · exact (sync_exhausts _ _).bind fun _ _ => .ok _ _
  · exact (readMaster_exhausts _ _).bind fun _ _ => .ok _ _
  · exact readSlave_exhausts _ _ _
  · exact (readMaster_exhausts _ _).bind fun _ _ => .ite (.ok _ _) (readSlave_exhausts _ _ _)

/-- A decode command that ends with EndOfSignal has passed its start checks and its body has raised it, so it has consumed every sample
of a stream that has ended (R262). -/
theorem exec_endOfSignal {i : Instr} {op : BitVec 4} {arg : Nat} {s t : State} (hi : commandParts i = some (op, arg))
    (hop : op ∈ [0x1#4, 0x2#4, 0x3#4, 0x4#4, 0x5#4, 0x6#4]) (hidle : s.running = none) (ht : exec i s = .next t)
    (herr : t.err = .endOfSignal) : s.data.rx.ended = true ∧ Consumed s.data.rx.ahead.length s t := by
  have hsame {t' : State} (ht' : exec i s = .next t') : t' = t := Host.Outcome.next.inj (ht'.symm.trans ht)
  rcases Nat.eq_zero_or_pos s.ctx.qs with hqs | hq
  case inl =>
    have hops : ∀ op ∈ [0x1#4, 0x2#4, 0x3#4, 0x4#4, 0x5#4, 0x6#4], illegalOp op = false ∧ op ≠ 0x0 := by decide
    obtain ⟨hlegal, hnop⟩ := hops op hop
    obtain ⟨hend, -⟩ := exec_fails_data hi hidle (startCheck_noPeriod hqs hlegal hnop arg) ht
    exact nomatch herr.symm.trans hend.err
  have hexhausts := decodeBody_exhausts hop (s.ctxOf op arg) s.data.started
  obtain ⟨-, -, n, -, hrx⟩ := decodeBody_reads hop (s.ctxOf op arg) s.data.started
  rcases exec_runs hi hidle (startCheck_decode hop hq arg) with ⟨_, _, t', -, ht', hend, -⟩
    | ⟨e, d, t', hbody, ht', hend, -⟩ | ⟨_, _, t', -, ht', ⟨-, -, -, hnone, -⟩, -⟩ <;> obtain rfl := hsame ht'
  · exact nomatch herr.symm.trans hend.err
  · obtain rfl : e = .endOfSignal := hend.err.symm.trans herr
    rw [hbody] at hexhausts hrx
    obtain ⟨hended, hall⟩ := hexhausts rfl
    obtain ⟨t'', ht'', -, hcons⟩ := exec_exhausted hi hop hidle hq hbody hall
    obtain rfl := hsame ht''
    exact ⟨(congrArg RxPort.ended hrx).symm.trans hended, hcons⟩
  · exact nomatch herr.symm.trans hnone

/-! ### Decode commands at the end of the stream (R75, R262) -/

/-- A sequence passes on the error its first part raises (R12, R266). -/
theorem Res.bind_of_raised {α β : Type} {r : Res α} {e : ErrorCode} {d : Data} (h : r = .raised e d) (f : α → Data → Res β) :
    r.bind f = .raised e d := by rw [h, Res.bind_raised]

/-- At the end of the stream the first AdvanceUntil finds no sample, so Sync has written only how it begins, and Error on the raise
(R75, R178). -/
theorem sync_at_end (c : Ctx) {d : Data} (hended : d.rx.ended = true) (hahead : d.rx.ahead = []) :
    sync c d = .raised .endOfSignal (d.syncBegin.setSync .error) := by
  have hhigh : advanceUntil c HIGH d.syncBegin = .raised .endOfSignal d.syncBegin := by
    simp [advanceUntil, samplesBefore, hahead, hended]
  rw [sync, hhigh]
  rfl

/-- A decode command whose body begins with Sync, but for writes of result registers, at the end of the stream. -/
theorem exec_sync_at_end {i : Instr} {op : BitVec 4} {arg : Nat} {s : State} (hi : commandParts i = some (op, arg))
    (hop : op ∈ [0x1#4, 0x2#4, 0x3#4, 0x4#4, 0x5#4, 0x6#4]) (hidle : s.running = none) (hq : 0 < s.ctx.qs)
    (hended : s.data.rx.ended = true) (hahead : s.data.rx.ahead = []) {d : Data} (hstart : Moved 0 s.data.started d)
    (hbody : ∀ d', sync (s.ctxOf op arg) d = .raised .endOfSignal d' →
      commandBody op (s.ctxOf op arg) s.data.started = .raised .endOfSignal d') :
    ∃ t, exec i s = .next t ∧ EndedWith s t op arg .endOfSignal ∧ Consumed 0 s t
      ∧ t.data.res = { d.res with syncState := .error, kind := false, elem := 0, roleValid := false } := by
  have hrx : d.rx = s.data.rx := hstart.1.trans (RxPort.consume_zero _)
  exact exec_reads_raised hi hop hidle hq (hbody _ (sync_at_end _ (hrx ▸ hended) (hrx ▸ hahead))) hstart rfl

/-- Settles O26: the end with EndOfSignal by `exec_endOfSignal`; at the end of the stream DEC_SYMBOL and DEC_BIT run out of samples
(O20, O21), and the other four bodies pass on the error of the Sync they begin with (`exec_sync_at_end`). -/
theorem endOfSignalMeansExhausted : Obligations.EndOfSignalMeansExhausted := by
  intro s arg hidle
  refine ⟨fun i hi t ht _ herr => ?ends, fun hq hended hahead p hp => ?atEnd⟩
  case ends =>
    simp only [List.mem_cons, List.not_mem_nil, or_false] at hi
    rcases hi with rfl | rfl | rfl | rfl | rfl | rfl <;> exact exec_endOfSignal rfl (by decide) hidle ht herr
  case atEnd =>
    have hlen : s.data.rx.ahead.length = 0 := by rw [hahead]; rfl
    simp only [List.mem_cons, List.not_mem_nil, or_false] at hp
    rcases hp with rfl | rfl | rfl | rfl | rfl | rfl
    · obtain ⟨-, hruns, -⟩ := decSymbolRuns s arg hidle hq
      exact hlen ▸ hruns (by omega) hended
    · obtain ⟨-, hruns, -⟩ := decBitRuns s arg hidle hq
      exact hlen ▸ hruns (fun _ _ => by omega) hended
    · exact exec_sync_at_end (i := .sync arg) (op := 0x3) rfl (by decide) hidle hq hended hahead (Moved.zero _)
        fun _ h => Res.bind_of_raised h _
    · exact exec_sync_at_end (i := .rdMaster arg) (op := 0x4) rfl (by decide) hidle hq hended hahead (Moved.zero _)
        fun _ h => Res.bind_of_raised (readMaster_of_sync_raised h) _
    · exact exec_sync_at_end (i := .rdSlave arg) (op := 0x5)
        (d := s.data.started.slaveBegin (s.ctx.words (BitVec.ofNat 4 arg))) rfl (by decide) hidle hq hended hahead
        (Moved.zero _) fun _ h => Res.bind_of_raised h _
    · exact exec_sync_at_end (i := .rdTelegram arg) (op := 0x6) rfl (by decide) hidle hq hended hahead (Moved.zero _)
        fun _ h => Res.bind_of_raised (readMaster_of_sync_raised h) _

end Sys2Proof.Machine

/-! PROOFS. The interrupt output (R270): what the host reads of DONE and IE, how a START leaves it, and the writes that clear it. -/

namespace Sys2Proof.Machine

/-! ### Bits of a register word -/

theorem getElem_bitAt (n : Nat) (b : Bool) {i : Nat} (hi : i < 32) : (bitAt n b)[i] = (decide (i = n) && b) := by
  have hat : i = n ↔ ¬i < n ∧ i - n = 0 := by omega
  rw [decide_eq_decide.2 hat, Bool.decide_and, decide_not]
  simp [bitAt, Bool.and_assoc]

theorem getElem_fieldAt {w : Nat} (n : Nat) (v : BitVec w) {i : Nat} (hi : i < 32) :
    (fieldAt n v)[i] = (!decide (i < n) && v.getLsbD (i - n)) := by
  simp [fieldAt]

/-- STATUS bit 1 is DONE (R28). -/
theorem statusWith_done (s : State) (r : Results) : (s.statusWith r).getLsbD 1 = s.done := by
  simp [State.statusWith, getElem_bitAt, getElem_fieldAt]

/-- CFG bit 11 is IE (R26). -/
theorem cfgWord_ie (c : Cfg) : (cfgWord c).getLsbD 11 = c.ie := by
  simp [cfgWord, getElem_bitAt, getElem_fieldAt]

/-! ### How a START leaves irq, and the writes that clear it -/

/-- A command's end raises irq if IE is set (R142, R270). -/
theorem EndedWith.irq {s t : State} {op : BitVec 4} {arg : Nat} {e : ErrorCode} (h : EndedWith s t op arg e) :
    t.irq = s.regs.cfg.ie := by
  obtain ⟨hregs, -, hdone, -⟩ := h
  rw [State.irq, hdone, hregs, Bool.true_and]

/-- START clears DONE, and with it irq while the command waits (R140, R270). -/
theorem WaitsWith.irq {s t : State} {op : BitVec 4} {arg : Nat} (h : WaitsWith s t op arg) : t.irq = false := by
  obtain ⟨-, -, hdone, -⟩ := h
  rw [State.irq, hdone, Bool.false_and]

/-- Settles O19: irq as read (`statusWith_done`, `cfgWord_ie`), as an accepted START leaves it (O12), and as a write to STATUS or to
CFG clears it. -/
theorem interruptFollowsDone : Obligations.InterruptFollowsDone := by
  refine ⟨fun s => ?asRead, fun i op arg s t hi hidle ht => ?start, fun s addr v off hoff haligned hv => ?acknowledge,
    fun s addr v off hoff haligned hidle hv => ?disable⟩
  case asRead =>
    show _ = ((s.statusWith s.data.res).getLsbD 1 && (cfgWord s.regs.cfg).getLsbD 11)
    rw [statusWith_done, cfgWord_ie]
    rfl
  case start =>
    obtain ⟨t', ht', hcase⟩ := everyAcceptedCommandEndsOrWaits i op arg s hi hidle
    obtain rfl : t' = t := Host.Outcome.next.inj (ht'.symm.trans ht)
    rcases hcase with ⟨e, hend⟩ | hwaits
    · rw [hend.irq, hend.running]
      rfl
    · have hirq := hwaits.irq
      obtain ⟨-, hbusy, -⟩ := hwaits
      obtain ⟨r, hr⟩ := Option.isSome_iff_exists.1 hbusy
      rw [hirq, hr]
      rfl
  case acknowledge =>
    refine ⟨_, hostWrite_of_not_start hoff fun h => by omega, ?_⟩
    rw [writePort_status haligned, State.irq, State.writeStatus_done, hv, Bool.not_true, Bool.and_false, Bool.false_and]
  case disable =>
    have hmask : writableMask (alignOffset off) = some 0x00000FFF := by rw [haligned]; rfl
    refine ⟨_, hostWrite_of_not_start hoff fun h => by omega, ?_⟩
    rw [writePort_writable hmask hidle, haligned]
    show (s.done && v.getLsbD 11) = false
    rw [hv, Bool.and_false]

end Sys2Proof.Machine

/-! PROOFS. Reads of the port while a command runs (R297): what a running command has written stands among the values a read may
draw, and a draw of a counter lies between its value at the START and now. -/

namespace Sys2Proof.Machine

/-! ### A body only adds to the values held since START (R297) -/

/-- From `d` to `d'` no value that the result registers have held is lost. -/
def SeenKept (d d' : Data) : Prop := d.seen <:+ d'.seen

theorem SeenKept.refl (d : Data) : SeenKept d d := List.suffix_rfl

theorem SeenKept.trans {a b c : Data} (h1 : SeenKept a b) (h2 : SeenKept b c) : SeenKept a c := List.IsSuffix.trans h1 h2

theorem SeenKept.bind {α β : Type} {d : Data} {r : Res α} {f : α → Data → Res β} (hr : SeenKept d r.left)
    (hf : ∀ a d', SeenKept d' (f a d').left) : SeenKept d (r.bind f).left := Res.left_bind SeenKept SeenKept.trans hr hf

theorem SeenKept.onRaise {α : Type} {d : Data} {r : Res α} {f : Data → Data} (h : SeenKept d r.left)
    (hf : ∀ d, SeenKept d (f d)) : SeenKept d (r.onRaise f).left := by
  cases r with
  | ok a d' => exact h
  | raised e d' => exact h.trans (hf d')
  | waiting w d' => exact h

/-- A write point puts its value before those held so far. -/
theorem setRes_seenKept (f : Results → Results) (d : Data) : SeenKept d (d.setRes f) := List.suffix_cons _ _

/-- A part may begin with a write point. -/
theorem SeenKept.after_setRes {f : Results → Results} {d d' : Data} (h : SeenKept (d.setRes f) d') : SeenKept d d' :=
  (setRes_seenKept f d).trans h

theorem SeenKept.ok {α : Type} {d d' : Data} (h : SeenKept d d') (a : α) : SeenKept d (Res.ok a d').left := h

theorem SeenKept.raised {α : Type} {d d' : Data} (h : SeenKept d d') (e : ErrorCode) :
    SeenKept d (Res.raised e d' : Res α).left := h

/-- A part that writes no result register adds nothing. -/
theorem SameResults.seenKept {d d' : Data} (h : SameResults d d') : SeenKept d d' := by
  obtain ⟨-, hseen⟩ := h
  rw [SeenKept, hseen]

theorem matchElements_seenKept (c : Ctx) (es : List Element) (j : Nat) (d : Data) :
    SeenKept d (matchElements c es j d).left := by
  induction es generalizing j d with
  | nil => exact SeenKept.refl d
  | cons e es ih =>
    refine (readElement_sameResults c e d).seenKept.bind fun good d => ?_
    cases good with
    | false => exact SeenKept.refl d
    | true => exact (ih _ _).after_setRes

theorem syncDelimiter_seenKept (c : Ctx) (d : Data) : SeenKept d (syncDelimiter c d).left := by
  refine (decodeSymbol_sameResults c d).seenKept.bind fun x d => ?_
  cases kindOfFirst x with
  | none => exact SeenKept.refl d
  | some kind =>
    refine (matchElements_seenKept c _ 2 _).after_setRes.after_setRes.bind fun _ d => ?_
    exact (setRes_seenKept _ _).after_setRes.after_setRes.ok kind

theorem sync_seenKept (c : Ctx) (d : Data) : SeenKept d (sync c d).left := by
  refine SeenKept.onRaise ?_ fun d => setRes_seenKept _ d
  refine (advanceUntil_sameResults c HIGH _).seenKept.after_setRes.bind fun _ d => ?_
  refine (advanceUntil_sameResults c LOW _).seenKept.after_setRes.bind fun _ d => ?_
  refine (advance_sameResults _ _).seenKept.after_setRes.bind fun _ d => ?_
  exact (syncDelimiter_seenKept c _).after_setRes

theorem readMaster_seenKept (c : Ctx) (d : Data) : SeenKept d (readMaster c d).left := by
  refine (sync_seenKept c d).bind fun kind d => ?_
  split
  · exact SeenKept.refl d
  refine (readBits_sameResults c 16 d).seenKept.bind fun w d => ?_
  refine (readBits_sameResults c 8 _).seenKept.after_setRes.bind fun chk d => ?_
  dsimp only
  split
  · exact (setRes_seenKept _ d).raised _
  · exact ((readEnd_sameResults c _).seenKept.bind fun _ d => (SeenKept.refl d).ok w).after_setRes

theorem readWords_seenKept (c : Ctx) (m i : Nat) (d : Data) : SeenKept d (readWords c m i d).left := by
  induction m generalizing i d with
  | zero => exact SeenKept.refl d
  | succ m ih =>
    exact (readBits_sameResults c 16 d).seenKept.bind fun w d => (ih _ _).after_setRes.after_setRes

theorem readChunks_seenKept (c : Ctx) (ms : List Nat) (i k : Nat) (d : Data) : SeenKept d (readChunks c ms i k d).left := by
  induction ms generalizing i k d with
  | nil => exact SeenKept.refl d
  | cons m ms ih =>
    refine SeenKept.bind (readWords_seenKept c m i (d.setDp _)) fun _ d => ?_
    refine (readBits_sameResults c 8 d).seenKept.bind fun chk d => ?_
    dsimp only
    split
    · exact (setRes_seenKept _ _).after_setRes.raised _
    · exact (ih _ _ _).after_setRes.after_setRes

theorem readSlave_seenKept (c : Ctx) (fc : BitVec 4) (d : Data) : SeenKept d (readSlave c fc d).left := by
  refine (sync_seenKept c _).after_setRes.bind fun kind d => ?_
  split
  · exact SeenKept.refl d
  · exact (readChunks_seenKept c _ 0 0 d).bind fun _ d => (readEnd_sameResults c d).seenKept

theorem bodyRdTelegram_seenKept (c : Ctx) (d : Data) : SeenKept d (bodyRdTelegram c d).left := by
  refine (readMaster_seenKept c d).bind fun w d => ?_
  split
  · exact (setRes_seenKept _ d).ok ()
  · exact readSlave_seenKept c _ d

theorem bodyEncTelegram_seenKept (c : Ctx) (d : Data) : SeenKept d (bodyEncTelegram c d).left := by
  refine (encodeMaster_writes c _ d).sameResults.seenKept.bind fun _ d => ?_
  refine (emitGap_writes c d).sameResults.seenKept.bind fun _ d => ?_
  split
  · exact (setRes_seenKept _ d).ok ()
  · exact (encodeSlave_writes c _ d).sameResults.seenKept

/-- Every body keeps the values held since START, whichever way it ends. -/
theorem commandBody_seenKept (op : BitVec 4) (c : Ctx) (d : Data) : SeenKept d (commandBody op c d).left := by
  generalize hb : commandBody op = b
  unfold commandBody at hb
  split at hb <;> subst hb
  · exact (decodeSymbol_sameResults c d).seenKept.bind fun _ d => (setRes_seenKept _ d).ok ()
  · exact (decodeBit_sameResults c d).seenKept.bind fun _ d => (setRes_seenKept _ d).ok ()
  · exact (sync_seenKept c d).bind fun _ d => SeenKept.refl d
  · exact (readMaster_seenKept c d).bind fun _ d => SeenKept.refl d
  · exact readSlave_seenKept c _ d
  · exact bodyRdTelegram_seenKept c d
  · exact (encodeSymbol_writes c _ d).sameResults.seenKept
  · exact (encodeBit_writes c _ d).sameResults.seenKept
  · exact (encodeMaster_writes c _ d).sameResults.seenKept
  · exact (encodeSlave_writes c _ d).sameResults.seenKept
  · exact bodyEncTelegram_seenKept c d
  · exact SeenKept.refl d

/-! ### What a running command has come to since START -/

/-- The body of a running command has brought the core from where START left it to where it is (R141). -/
theorem RunningOk.left_eq {s : State} {r : Running} (h : RunningOk s r) :
    (commandBody s.regs.op s.ctx r.start).left = s.data := by
  obtain ⟨-, hbody⟩ := (runningOk_iff s r).1 h
  rw [hbody]
  rfl

theorem RunningOk.forward {s : State} {r : Running} (h : RunningOk s r) : Forward r.start s.data := by
  rw [← h.left_eq]
  exact (commandBody_resumes s.regs.op s.ctx r.start).1

theorem Forward.pos_le {d d' : Data} (h : Forward d d') : d.rx.pos ≤ d'.rx.pos := by
  obtain ⟨⟨n, -, hrx⟩, -⟩ := h
  rw [hrx, RxPort.consume_pos]
  exact Nat.le_add_right _ _

/-- The value START left is among those held since, so there is one to draw (R140, R297). -/
theorem RunningOk.seen_ne_nil {s : State} {r : Running} (h : RunningOk s r) : s.data.seen ≠ [] := by
  have hkept : SeenKept r.start s.data := h.left_eq ▸ commandBody_seenKept s.regs.op s.ctx r.start
  obtain ⟨-, -, -, -, -, hstart, -⟩ := h
  rw [SeenKept, hstart] at hkept
  exact List.ne_nil_of_mem (hkept.subset (List.mem_singleton_self _))

/-! ### Free draws (R297, log entry 12) -/

/-- Whatever is drawn from a list that is not empty is a member of it. -/
theorem choose_mem {xs : List Results} (h : xs ≠ []) (n : Nat) (now : Results) : choose n xs now ∈ xs := by
  match xs with
  | [] => exact absurd rfl h
  | [x] => exact List.mem_singleton_self x
  | x :: y :: rest =>
    have hlt : Config.raceDraw n % (x :: y :: rest).length < (x :: y :: rest).length := Nat.mod_lt _ (Nat.succ_pos _)
    show (x :: y :: rest)[_]?.getD now ∈ _
    rw [List.getElem?_eq_getElem hlt, Option.getD_some]
    exact List.getElem_mem hlt

/-- Whatever is drawn between two bounds lies between them. -/
theorem chooseBetween_mem {lo hi : Nat} (h : lo ≤ hi) (n : Nat) : lo ≤ chooseBetween n lo hi ∧ chooseBetween n lo hi ≤ hi := by
  have hlt : Config.raceDraw n % (hi - lo + 1) < hi - lo + 1 := Nat.mod_lt _ (Nat.succ_pos _)
  unfold chooseBetween
  split <;> omega

/-- What a read that races with a running command sees (R297). -/
theorem viewSeen_running {s : State} {r : Running} (h : s.running = some r) :
    s.viewSeen = { res := choose s.raceDraws s.data.seen s.data.res
                   pos := chooseBetween s.raceDraws r.start.rx.pos s.data.rx.pos
                   count := chooseBetween s.raceDraws r.start.tx.count s.data.tx.count } := by
  simp [State.viewSeen, h]

/-- A read of a busy core's port gives the host the register in a drawn view and counts the draw (R85, R297). -/
theorem hostRead_running {s : State} {r : Running} {addr : Word} {off : Nat} (h : s.running = some r)
    (hoff : s.portOffset addr = some off) : hostRead addr s =
      { s with busReads := s.register s.viewSeen (alignOffset off) :: s.busReads, raceDraws := s.raceDraws + 1 } := by
  simp [hostRead, hoff, State.readPort, State.busy, h]

/-- Settles O18: the view drawn is the witness. By the invariant the running body started from what START left, and from there
both streams have only gone forward and `seen` has only grown. -/
theorem busyReadsReturnAHeldValue : Obligations.BusyReadsReturnAHeldValue := by
  intro s r addr off hinv hrun hoff
  obtain ⟨-, -, -, -, hrunning⟩ := hinv
  have hok := hrunning r hrun
  obtain ⟨hposLo, hposHi⟩ := chooseBetween_mem hok.forward.pos_le s.raceDraws
  obtain ⟨hcountLo, hcountHi⟩ := chooseBetween_mem hok.forward.count_le s.raceDraws
  refine ⟨s.viewSeen, ?_⟩
  rw [viewSeen_running hrun]
  refine ⟨choose_mem hok.seen_ne_nil _ _, hposLo, hposHi, hcountLo, hcountHi, ?_⟩
  rw [← viewSeen_running hrun]
  exact hostRead_running hrun hoff

end Sys2Proof.Machine

/-! PROOFS. The reset input (R290, R292). -/

namespace Sys2Proof.Machine

/-- Below the table the port reads after the reset input as it reads in the reset state: only the table is a parameter (R290(e)). -/
theorem register_assertReset {off : Nat} (h : off < 0x100) (s : State) :
    s.assertReset.register s.assertReset.viewNow off = State.reset.register State.reset.viewNow off := by
  have hfct : ¬(0x100 ≤ off ∧ off < 0x140) := fun ⟨hle, _⟩ => absurd h (Nat.not_lt.2 hle)
  unfold State.register
  simp only [if_neg hfct]
  rfl

/-- Settles O51: the step is `State.assertReset`, and every register but CFG and the table reads as in the reset state. -/
theorem resetAbandonsEverything : Obligations.ResetAbandonsEverything := by
  intro s rest hp
  refine ⟨State.assertReset { s with pending := rest }, step_of_pending_cons hp, rfl, rfl, rfl, rfl, rfl, rfl, rfl, rfl, rfl, rfl,
    rfl, rfl, rfl, rfl, rfl, rfl, rfl, fun off hmapped hbelow hcfg => ?_⟩
  rw [register_assertReset hbelow]
  exact register_reset_mapped off hmapped hcfg hbelow

end Sys2Proof.Machine

/-! PROOFS. Words written out from the tables of spec/30_encoding.md. -/

namespace Sys2Proof.Machine

/-- The encoding of a well-formed row of a layer decodes in that layer to the row. -/
theorem decode_of_encodes {f : Format} {w : Word} {i : Instr} (h : Encodes f w i) : decode f w = .ok i := by
  obtain ⟨hwf, rfl, rfl⟩ := h
  exact decode_encode hwf

/-- Settles O4: each word but one is the encoding of its row (`decode_encode`), and the one left has START = 0 (R100). -/
theorem sampleWordsDecode : Obligations.SampleWordsDecode :=
  ⟨decode_of_encodes ⟨rfl, rfl, rfl⟩, decode_of_encodes ⟨rfl, rfl, rfl⟩, decode_of_encodes ⟨rfl, rfl, rfl⟩,
    decode_of_encodes ⟨rfl, rfl, rfl⟩, rfl, decode_of_encodes ⟨rfl, rfl, rfl⟩, decode_of_encodes ⟨rfl, rfl, rfl⟩,
    decode_of_encodes ⟨rfl, rfl, rfl⟩, decode_of_encodes ⟨rfl, rfl, rfl⟩, decode_of_encodes ⟨rfl, rfl, rfl⟩,
    decode_of_encodes ⟨rfl, rfl, rfl⟩⟩

end Sys2Proof.Machine
